-- ==== Sys2Proof/Word.lean ====
section
/-! DEFINITION. The word type of the block: every register is a 32-bit word (R6, R41), and the byte of its
byte view (R43). -/

namespace Sys2Proof

/-- A 32-bit word; bit 31 is the most significant (R6). -/
abbrev Word := BitVec 32

/-- A byte of the register memory's byte view (R43). -/
abbrev Byte := BitVec 8

end Sys2Proof
end

