-- ==== Sys2Proof/Config.lean ====
section
/-! DEFINITION. What an implementation fixes (R5): the names of the block's parts, its layout, the parameters whose
value changes behaviour, and what the source fixes. The default layout numbers are taken by the spec from general
knowledge (G1, G4 to G7): PRESUMED, log 15. -/

namespace Sys2Proof

/-- The five bus groups, in index order (R5, D3). -/
inductive BusGroup where
  | hs1 | hs2 | hs3 | p1 | p2
deriving DecidableEq, Repr

/-- A clock source: one of the three of the source document (R15), or the n-th of the implementation's
`EXTRA_SOURCES` (R5, D4; log 16). -/
inductive Source where
  | hsi | hse | pll
  | extra (n : Nat)
deriving DecidableEq, Repr

/-- The seven registers of the register memory (R10). -/
inductive Reg where
  | cr | cfgr
  | enr (g : BusGroup)
deriving DecidableEq, Repr

/-- One value per bus group. -/
structure PerGroup (α : Type) where
  hs1 : α
  hs2 : α
  hs3 : α
  p1 : α
  p2 : α
deriving DecidableEq, Repr

/-- The value of group `g`. -/
def PerGroup.get {α : Type} (v : PerGroup α) : BusGroup → α
  | .hs1 => v.hs1
  | .hs2 => v.hs2
  | .hs3 => v.hs3
  | .p1 => v.p1
  | .p2 => v.p2

/-- Replace the value of group `g` alone. -/
def PerGroup.set {α : Type} (v : PerGroup α) (g : BusGroup) (x : α) : PerGroup α :=
  match g with
  | .hs1 => { v with hs1 := x }
  | .hs2 => { v with hs2 := x }
  | .hs3 => { v with hs3 := x }
  | .p1 => { v with p1 := x }
  | .p2 => { v with p2 := x }

/-- The same value for every group. -/
def PerGroup.const {α : Type} (x : α) : PerGroup α := ⟨x, x, x, x, x⟩

/-- One value per clock source: the three named ones, and the extra ones in order. -/
structure PerSource (α : Type) where
  hsi : α
  hse : α
  pll : α
  extra : List α
deriving DecidableEq, Repr

/-- The value of source `x`. -/
def PerSource.get {α : Type} [Inhabited α] (v : PerSource α) : Source → α
  | .hsi => v.hsi
  | .hse => v.hse
  | .pll => v.pll
  | .extra n => v.extra.getD n default

/-- Replace the value of source `x` alone. -/
def PerSource.set {α : Type} (v : PerSource α) (x : Source) (a : α) : PerSource α :=
  match x with
  | .hsi => { v with hsi := a }
  | .hse => { v with hse := a }
  | .pll => { v with pll := a }
  | .extra n => { v with extra := v.extra.set n a }

/-- A value computed for every source, `k` extra ones among them. -/
def PerSource.tabulate {α : Type} (k : Nat) (f : Source → α) : PerSource α :=
  ⟨f .hsi, f .hse, f .pll, (List.range k).map fun n => f (.extra n)⟩

/-- One value per selector value 0, 1, 2, 3 (R20). -/
structure PerSelector (α : Type) where
  v0 : α
  v1 : α
  v2 : α
  v3 : α
deriving DecidableEq, Repr

/-- The value at selector `v`. -/
def PerSelector.get {α : Type} (x : PerSelector α) (v : BitVec 2) : α :=
  if v = 0 then x.v0 else if v = 1 then x.v1 else if v = 2 then x.v2 else x.v3

/-- When the ready bit of a disabled source falls (`READY_CLEAR_MODE`, R161, R162). -/
inductive ReadyClearMode where
  | immediate | eventual
deriving DecidableEq, Repr

/-- How the status field follows the selector (`SWS_FOLLOW`, R163). -/
inductive FollowMode where
  | agent | immediate
deriving DecidableEq, Repr

/-- What a write that disables a source the selector or status field names does
(`DISABLE_SELECTED_POLICY`, R91, R210). -/
inductive DisablePolicy where
  | allow | refuse
deriving DecidableEq, Repr

/-- The layout parameters of R5: where the registers stand, and where the fields stand in CR and CFGR. -/
structure Layout where
  /-- `BASE` (R40). -/
  base : Word
  /-- `OFF_CR` (R40). -/
  offCr : BitVec 8
  /-- `OFF_CFGR` (R40). -/
  offCfgr : BitVec 8
  /-- `OFF_ENR[g]` (R40). -/
  offEnr : PerGroup (BitVec 8)
  /-- `SOURCES` and `EXTRA_SOURCES`: the position `EN[s]` of each source's enable bit in CR (R15, R64). -/
  enPos : PerSource Nat
  /-- `BYP_POS` (R17). -/
  bypPos : Nat
  /-- `SW_POS`: the position of bit 0 of the selector field in CFGR (R19). -/
  swPos : Nat
  /-- `SWS_POS`: the position of bit 0 of the status field in CFGR (R19). -/
  swsPos : Nat
deriving DecidableEq, Repr

/-- The parameters of R5 that are not fixed by the source document. They are plain data and stand in State, so that a
statement about every state is a statement about every implementation (log 13); no step changes them. -/
structure Params where
  /-- `BASE`, `OFF_*`, `SOURCES`, `EXTRA_SOURCES`, `BYP_POS`, `SW_POS`, `SWS_POS`. -/
  layout : Layout
  /-- `ENR_IMPL[g]`: the implemented bits of enable register g (R12). -/
  enrImpl : PerGroup Word
  /-- `ENR_RESET[g]` (R32). -/
  enrReset : PerGroup Word
  /-- `CR_OTHER_RESET` (R33). -/
  crOtherReset : Word
  /-- `CFGR_OTHER_RESET` (R34). -/
  cfgrOtherReset : Word
  /-- `SEL_DEP`: the source each selector value depends on (R20). -/
  selDep : PerSelector Source
  /-- `stabilizes(s)`: whether source s ever reports ready once enabled (R160); OPEN in the spec (D13). -/
  stabilizes : PerSource Bool
  /-- `READY_CLEAR_MODE` (R161, R162). -/
  readyClear : ReadyClearMode
  /-- `SWS_FOLLOW` (R163). -/
  swsFollow : FollowMode
  /-- `DISABLE_SELECTED_POLICY` (R91). -/
  disableSelected : DisablePolicy
  /-- `BYP_LOCK` (R17). -/
  bypLock : Bool
deriving DecidableEq, Repr

namespace Config

/-- `RDY_OFFSET`: a ready bit stands one above its enable bit (R5, R16); fixed by the source document. -/
def rdyOffset : Nat := 1

/-- `PID_MAX`: the largest peripheral identifier (R5); fixed by the source document. -/
def pidMax : Int := 31

/-- `SEL_ERROR`, the sentinel -1, the word 0xFFFF_FFFF (R5, R28), fixed by D8. -/
def selError : Word := 0xFFFFFFFF

/-- The default layout (R5, D2, D4 to D6): no extra sources. PRESUMED, log 15. -/
def layout : Layout where
  base := 0x40023800
  offCr := 0x00
  offCfgr := 0x08
  offEnr := ⟨0x30, 0x34, 0x38, 0x40, 0x44⟩
  enPos := ⟨0, 16, 24, []⟩
  bypPos := 18
  swPos := 0
  swsPos := 2

/-- The default parameters (R5, D7, D9, D12, D14 to D17). `stabilizes` is OPEN in the spec (D13): here true for every
source, DESIGN CHOICE, log 14; statements range over both values. -/
def defaults : Params where
  layout := layout
  enrImpl := PerGroup.const 0xFFFFFFFF
  enrReset := PerGroup.const 0
  crOtherReset := 0
  cfgrOtherReset := 0
  selDep := ⟨.hsi, .hse, .pll, .pll⟩
  stabilizes := ⟨true, true, true, []⟩
  readyClear := .immediate
  swsFollow := .agent
  disableSelected := .allow
  bypLock := false

/-- The number of primitives of the longest operation, SETSYS: six transactions and the return (R140). -/
def longestOperation : Nat := 7

end Config

end Sys2Proof
end

