-- ==== Sys2Proof/Syntax.lean ====
section
/-! DEFINITION. The 29 forms of the opcode table (R60, R68) and the three ways of presenting one. Operands of
operations are unbounded integers, as in the textual form of R72; the encodings of R61 and R62 reach only the
well-formed ones. -/

namespace Sys2Proof

/-- One constructor per row of spec/opcode_table.json. -/
inductive Instr where
  /-- `RD.CR` (R90) -/
  | rdCr
  /-- `WR.CR d` (R91) -/
  | wrCr (d : Word)
  /-- `RD.CFGR` (R92) -/
  | rdCfgr
  /-- `WR.CFGR d` (R93) -/
  | wrCfgr (d : Word)
  /-- `RD.ENR_HS1` (R80) -/
  | rdEnrHs1
  /-- `WR.ENR_HS1 d` (R81) -/
  | wrEnrHs1 (d : Word)
  /-- `RD.ENR_HS2` (R82) -/
  | rdEnrHs2
  /-- `WR.ENR_HS2 d` (R83) -/
  | wrEnrHs2 (d : Word)
  /-- `RD.ENR_HS3` (R84) -/
  | rdEnrHs3
  /-- `WR.ENR_HS3 d` (R85) -/
  | wrEnrHs3 (d : Word)
  /-- `RD.ENR_P1` (R86) -/
  | rdEnrP1
  /-- `WR.ENR_P1 d` (R87) -/
  | wrEnrP1 (d : Word)
  /-- `RD.ENR_P2` (R88) -/
  | rdEnrP2
  /-- `WR.ENR_P2 d` (R89) -/
  | wrEnrP2 (d : Word)
  /-- `ENCLK.HS1 p` (R100) -/
  | enclkHs1 (p : Int)
  /-- `ENCLK.HS2 p` (R101) -/
  | enclkHs2 (p : Int)
  /-- `ENCLK.HS3 p` (R102) -/
  | enclkHs3 (p : Int)
  /-- `ENCLK.P1 p` (R103) -/
  | enclkP1 (p : Int)
  /-- `ENCLK.P2 p` (R104) -/
  | enclkP2 (p : Int)
  /-- `DISCLK.HS1 p` (R105) -/
  | disclkHs1 (p : Int)
  /-- `DISCLK.HS2 p` (R106) -/
  | disclkHs2 (p : Int)
  /-- `DISCLK.HS3 p` (R107) -/
  | disclkHs3 (p : Int)
  /-- `DISCLK.P1 p` (R108) -/
  | disclkP1 (p : Int)
  /-- `DISCLK.P2 p` (R109) -/
  | disclkP2 (p : Int)
  /-- `SETBYP enabled` (R120); 1 is true, 0 is false (R66) -/
  | setbyp (enabled : Int)
  /-- `SETCLK source, status` (R121); the source by its enable position (R64), 1 is ON, 0 is OFF (R66) -/
  | setclk (source : Int) (status : Int)
  /-- `GETCLK source` (R122); the source by its enable position (R64) -/
  | getclk (source : Int)
  /-- `SETSYS target` (R140) -/
  | setsys (target : Int)
  /-- `GETSYS` (R141) -/
  | getsys
deriving DecidableEq, Repr

/-- One presentation at a port of the block. -/
inductive Packet where
  /-- Format BUS (R61): a 16-bit descriptor and the 32-bit data word of a write. A read has no data word: `data` is
  then not looked at (log 21). -/
  | bus (desc : BitVec 16) (data : Word)
  /-- Format CMD (R62): one 32-bit command word. -/
  | cmd (word : Word)
  /-- The textual form, its operands already read as unbounded integers (R70, R72). -/
  | text (i : Instr)
deriving DecidableEq, Repr

end Sys2Proof
end

