-- ==== Sys2Proof/Machine/Operands.lean ====
section
/-! DEFINITION. Operand assembly (R63 to R67): how a peripheral identifier becomes a bit, how a ready position comes
from an enable position, how a selector enters and leaves its field, and which textual operands are in range (R72).
The positions a layout assigns in CR and CFGR (R14, R19) stand here as well. -/

namespace Sys2Proof.Machine

/-- The word with only bit `k` set (R6, R63). -/
def bitMask (k : Nat) : Word := (1 : Word) <<< k

/-- Bit `b` placed at position `k`, every other bit 0 (R90). -/
def placeBit (b : Bool) (k : Nat) : Word := if b then bitMask k else 0

/-- `t | (1 << k)`: the word with bit `k` set (R63). -/
def setBit (t : Word) (k : Nat) : Word := t ||| bitMask k

/-- `t & ~(1 << k)`: the word with bit `k` cleared (R63). -/
def clearBit (t : Word) (k : Nat) : Word := t &&& ~~~(bitMask k)

/-- A 2-bit value placed with its low bit at position `k` (R65). -/
def placeField (v : BitVec 2) (k : Nat) : Word := (v.setWidth 32) <<< k

/-- The word with the 2-bit field at position `k` cleared, `t & ~(0b11 << k)` (R65). -/
def clearField (t : Word) (k : Nat) : Word := t &&& ~~~(placeField 3 k)

/-- The word with `v` put into the cleared 2-bit field at position `k`, `t | (zext_32(v) << k)` (R65). -/
def orField (t : Word) (v : BitVec 2) (k : Nat) : Word := t ||| placeField v k

/-- The 2-bit field of `w` at position `k` (R65). -/
def field2 (w : Word) (k : Nat) : BitVec 2 := w.extractLsb' k 2

/-- The word with the bits at the positions of a list set (R14, R19). -/
def positionsMask (l : List Nat) : Word := l.foldr (fun k w => bitMask k ||| w) 0

end Sys2Proof.Machine

namespace Sys2Proof

open Machine (bitMask positionsMask)

/-- The seven registers in the order of their default offsets. -/
def allRegs : List Reg := [.cr, .cfgr, .enr .hs1, .enr .hs2, .enr .hs3, .enr .p1, .enr .p2]

/-- `OFF_X`: the byte offset of register X from `BASE` (R40). -/
def Layout.offset (L : Layout) : Reg → BitVec 8
  | .cr => L.offCr
  | .cfgr => L.offCfgr
  | .enr g => L.offEnr.get g

/-- The clock sources of the implementation: `SOURCES`, then `EXTRA_SOURCES` (R5, R15, D4). -/
def Layout.sources (L : Layout) : List Source :=
  [.hsi, .hse, .pll] ++ (List.range L.enPos.extra.length).map .extra

/-- The position of the ready bit of source `x`, `EN[x] + RDY_OFFSET` (R16, R64). -/
def Layout.rdyPos (L : Layout) (x : Source) : Nat := L.enPos.get x + Config.rdyOffset

/-- The positions of CR that R15 to R17 assign. -/
def Layout.crPositions (L : Layout) : List Nat := L.bypPos :: L.sources.flatMap fun x => [L.enPos.get x, L.rdyPos x]

/-- The positions of CFGR that R20 and R21 assign. -/
def Layout.cfgrPositions (L : Layout) : List Nat := [L.swPos, L.swPos + 1, L.swsPos, L.swsPos + 1]

/-- `CR_ASSIGNED` (R14). -/
def Layout.crAssigned (L : Layout) : Word := positionsMask L.crPositions

/-- `CR_OTHER_MASK` (R14). -/
def Layout.crOtherMask (L : Layout) : Word := ~~~L.crAssigned

/-- `CFGR_ASSIGNED` (R19). -/
def Layout.cfgrAssigned (L : Layout) : Word := positionsMask L.cfgrPositions

/-- `CFGR_OTHER_MASK` (R19). -/
def Layout.cfgrOtherMask (L : Layout) : Word := ~~~L.cfgrAssigned

/-- A layout a model may take: seven distinct aligned addresses (N1, R42), and distinct positions in each of CR and
CFGR (D4, D5, D6). -/
def Layout.ok (L : Layout) : Bool :=
  decide (L.base.toNat % 4 = 0) && decide (∀ r ∈ allRegs, (L.offset r).toNat % 4 = 0) &&
  decide (allRegs.map L.offset).Nodup &&
  decide (∀ k ∈ L.crPositions, k < 32) && decide L.crPositions.Nodup &&
  decide (∀ k ∈ L.cfgrPositions, k < 32) && decide L.cfgrPositions.Nodup

end Sys2Proof

namespace Sys2Proof.Machine

/-- A peripheral identifier is a bit position 0 to 31 (R11, R63, R72). -/
def peripheralOk (p : Int) : Bool := decide (0 ≤ p) && decide (p ≤ Config.pidMax)

/-- The latched form of a peripheral identifier: its low five bits, `arg[4:0]` (R63). -/
def peripheralBits (p : Int) : BitVec 5 := BitVec.ofInt 5 p

/-- The source whose enable bit stands at position `k` of CR, if there is one (R64, R72). -/
def sourceAt (L : Layout) (k : Int) : Option Source := L.sources.find? fun x => ((L.enPos.get x : Nat) : Int) == k

/-- The boolean an operand stands for, if it is one of the two values: 1 is true or ON, 0 is false or OFF (R66, R72). -/
def boolAt (k : Int) : Option Bool :=
  if k = 1 then some true else if k = 0 then some false else none

/-- A selector value is 0 to 3 (R20, R65, R72). -/
def selectorOk (v : Int) : Bool := decide (0 ≤ v) && decide (v ≤ 3)

/-- The latched form of a selector value: `arg[1:0]` (R65). -/
def selectorBits (v : Int) : BitVec 2 := BitVec.ofInt 2 v

end Sys2Proof.Machine
end

