-- ==== Sys2Proof/WellFormed.lean ====
section
/-! DEFINITION. Which operands an encoding admits (R63 to R66, R69, R72). -/

namespace Sys2Proof

open Machine (peripheralOk sourceAt boolAt selectorOk)

/-- The operands of `i` are those a command word can hold and the spec gives a meaning under layout `L` (R69, R72). -/
def Instr.wellFormed (L : Layout) : Instr → Bool
  | .rdCr | .rdCfgr | .rdEnrHs1 | .rdEnrHs2 | .rdEnrHs3 | .rdEnrP1 | .rdEnrP2 => true
  | .wrCr _ | .wrCfgr _ | .wrEnrHs1 _ | .wrEnrHs2 _ | .wrEnrHs3 _ | .wrEnrP1 _ | .wrEnrP2 _ => true
  | .enclkHs1 p | .enclkHs2 p | .enclkHs3 p | .enclkP1 p | .enclkP2 p => peripheralOk p
  | .disclkHs1 p | .disclkHs2 p | .disclkHs3 p | .disclkP1 p | .disclkP2 p => peripheralOk p
  | .setbyp e => (boolAt e).isSome
  | .setclk k st => (sourceAt L k).isSome && (boolAt st).isSome
  | .getclk k => (sourceAt L k).isSome
  | .setsys v => selectorOk v
  | .getsys => true

end Sys2Proof
end

