-- ==== Sys2Proof/Decode.lean ====
section
/-! DEFINITION. Decoding a presentation (R60 to R69), rejecting by name, and after it the encoder, both written from
the field tables of R61 and R62 and the codes of R68; then the opcode table itself. -/

namespace Sys2Proof

open Machine (peripheralOk sourceAt boolAt selectorOk peripheralBits)

/-- Why a presentation is a reserved encoding (R69); the letters are those of the rule. -/
inductive Reserved where
  /-- (a) `opc` is none of the 15 codes. -/
  | opcode
  /-- (b) a must-be-zero bit is set. -/
  | mustBeZero
  /-- (c) `src` is no source's enable position (R64). -/
  | source
  /-- (d) bits 14:8 of a descriptor are not zero. -/
  | descriptor
  /-- (e) the offset is not a multiple of 4 (R42). -/
  | misalignedOffset
  /-- (e) the offset is aligned and none of the seven (R44). -/
  | unmappedOffset
deriving DecidableEq, Repr

/-- The register at byte offset `off` of the window, if there is one (R40). -/
def regAt (L : Layout) (off : BitVec 8) : Option Reg := allRegs.find? fun r => L.offset r == off

/-- The transaction that reads register `r` (R60). -/
def readOf : Reg → Instr
  | .cr => .rdCr
  | .cfgr => .rdCfgr
  | .enr .hs1 => .rdEnrHs1
  | .enr .hs2 => .rdEnrHs2
  | .enr .hs3 => .rdEnrHs3
  | .enr .p1 => .rdEnrP1
  | .enr .p2 => .rdEnrP2

/-- The transaction that writes `d` to register `r` (R60). -/
def writeOf (d : Word) : Reg → Instr
  | .cr => .wrCr d
  | .cfgr => .wrCfgr d
  | .enr .hs1 => .wrEnrHs1 d
  | .enr .hs2 => .wrEnrHs2 d
  | .enr .hs3 => .wrEnrHs3 d
  | .enr .p1 => .wrEnrP1 d
  | .enr .p2 => .wrEnrP2 d

/-- Decode a transaction descriptor and its data word (R61, R69 d and e). -/
def decodeBus (L : Layout) (desc : BitVec 16) (data : Word) : Except Reserved Instr :=
  let off := desc.extractLsb' 0 8
  if desc.extractLsb' 8 7 ≠ 0 then .error .descriptor
  else match regAt L off with
    | some r => .ok (if desc.getLsbD 15 then writeOf data r else readOf r)
    | none => .error (if off.extractLsb' 0 2 = 0 then .unmappedOffset else .misalignedOffset)

/-- The 15 operation codes (R68). -/
inductive Opc where
  | enclk (g : BusGroup)
  | disclk (g : BusGroup)
  | setbyp | setclk | getclk | setsys | getsys
deriving DecidableEq, Repr

/-- `opc`, bits 31:24 of the command word, of each operation (R68). -/
def Opc.code : Opc → BitVec 8
  | .enclk .hs1 => 0x10
  | .enclk .hs2 => 0x11
  | .enclk .hs3 => 0x12
  | .enclk .p1 => 0x13
  | .enclk .p2 => 0x14
  | .disclk .hs1 => 0x18
  | .disclk .hs2 => 0x19
  | .disclk .hs3 => 0x1A
  | .disclk .p1 => 0x1B
  | .disclk .p2 => 0x1C
  | .setbyp => 0x20
  | .setclk => 0x21
  | .getclk => 0x22
  | .setsys => 0x23
  | .getsys => 0x24

/-- The operations in the order of their codes. -/
def allOpcs : List Opc :=
  [.enclk .hs1, .enclk .hs2, .enclk .hs3, .enclk .p1, .enclk .p2,
   .disclk .hs1, .disclk .hs2, .disclk .hs3, .disclk .p1, .disclk .p2,
   .setbyp, .setclk, .getclk, .setsys, .getsys]

/-- The operation a code names, if it names one (R68, R69 a). -/
def opcAt (b : BitVec 8) : Option Opc := allOpcs.find? fun o => o.code == b

/-- Whether the operation takes a source operand in `src` (R62, R64). -/
def Opc.hasSource : Opc → Bool
  | .setclk | .getclk => true
  | .enclk _ | .disclk _ | .setbyp | .setsys | .getsys => false

/-- How many low bits of `arg` the operation uses (R62, R63, R65, R66). -/
def Opc.argBits : Opc → Nat
  | .enclk _ | .disclk _ => 5
  | .setsys => 2
  | .setbyp | .setclk => 1
  | .getclk | .getsys => 0

/-- The instruction of an operation code and its operands. -/
def Opc.instr (src arg : Int) : Opc → Instr
  | .enclk .hs1 => .enclkHs1 arg
  | .enclk .hs2 => .enclkHs2 arg
  | .enclk .hs3 => .enclkHs3 arg
  | .enclk .p1 => .enclkP1 arg
  | .enclk .p2 => .enclkP2 arg
  | .disclk .hs1 => .disclkHs1 arg
  | .disclk .hs2 => .disclkHs2 arg
  | .disclk .hs3 => .disclkHs3 arg
  | .disclk .p1 => .disclkP1 arg
  | .disclk .p2 => .disclkP2 arg
  | .setbyp => .setbyp arg
  | .setclk => .setclk src arg
  | .getclk => .getclk src
  | .setsys => .setsys arg
  | .getsys => .getsys

/-- Decode a command word (R62, R68, R69 a to c): the fields are `opc` 31:24, zero 23:13, `src` 12:8, zero 7:5,
`arg` 4:0; bits of `src` and `arg` that the operation does not use must be 0. -/
def decodeCmd (L : Layout) (w : Word) : Except Reserved Instr :=
  let src := w.extractLsb' 8 5
  let arg := w.extractLsb' 0 5
  match opcAt (w.extractLsb' 24 8) with
  | none => .error .opcode
  | some o =>
    if w.extractLsb' 13 11 ≠ 0 ∨ w.extractLsb' 5 3 ≠ 0 ∨ arg >>> o.argBits ≠ 0 ∨ (o.hasSource = false ∧ src ≠ 0) then
      .error .mustBeZero
    else if o.hasSource = true ∧ sourceAt L src.toNat = none then .error .source
    else .ok (o.instr src.toNat arg.toNat)

/-- Decode a presentation under layout `L`, total on every one. A textual operation is taken as it stands: its operands are checked
where it is executed (R72). -/
def decode (L : Layout) : Packet → Except Reserved Instr
  | .bus desc data => decodeBus L desc data
  | .cmd w => decodeCmd L w
  | .text i => .ok i

/-- A transaction descriptor: `w` in bit 15, seven zeros, the offset (R61). -/
def descriptor (L : Layout) (write : Bool) (r : Reg) : BitVec 16 := BitVec.ofBool write ++ (0 : BitVec 7) ++ L.offset r

/-- A command word from its fields (R62). -/
def commandWord (o : Opc) (src arg : Int) : Word :=
  o.code ++ (0 : BitVec 11) ++ BitVec.ofInt 5 src ++ (0 : BitVec 3) ++ BitVec.ofInt 5 arg

/-- The words of a well-formed instruction (R61, R62, R68). A read's data word, which it does not have, is 0. -/
def encode (L : Layout) : Instr → Packet
  | .rdCr => .bus (descriptor L false .cr) 0
  | .wrCr d => .bus (descriptor L true .cr) d
  | .rdCfgr => .bus (descriptor L false .cfgr) 0
  | .wrCfgr d => .bus (descriptor L true .cfgr) d
  | .rdEnrHs1 => .bus (descriptor L false (.enr .hs1)) 0
  | .wrEnrHs1 d => .bus (descriptor L true (.enr .hs1)) d
  | .rdEnrHs2 => .bus (descriptor L false (.enr .hs2)) 0
  | .wrEnrHs2 d => .bus (descriptor L true (.enr .hs2)) d
  | .rdEnrHs3 => .bus (descriptor L false (.enr .hs3)) 0
  | .wrEnrHs3 d => .bus (descriptor L true (.enr .hs3)) d
  | .rdEnrP1 => .bus (descriptor L false (.enr .p1)) 0
  | .wrEnrP1 d => .bus (descriptor L true (.enr .p1)) d
  | .rdEnrP2 => .bus (descriptor L false (.enr .p2)) 0
  | .wrEnrP2 d => .bus (descriptor L true (.enr .p2)) d
  | .enclkHs1 p => .cmd (commandWord (.enclk .hs1) 0 p)
  | .enclkHs2 p => .cmd (commandWord (.enclk .hs2) 0 p)
  | .enclkHs3 p => .cmd (commandWord (.enclk .hs3) 0 p)
  | .enclkP1 p => .cmd (commandWord (.enclk .p1) 0 p)
  | .enclkP2 p => .cmd (commandWord (.enclk .p2) 0 p)
  | .disclkHs1 p => .cmd (commandWord (.disclk .hs1) 0 p)
  | .disclkHs2 p => .cmd (commandWord (.disclk .hs2) 0 p)
  | .disclkHs3 p => .cmd (commandWord (.disclk .hs3) 0 p)
  | .disclkP1 p => .cmd (commandWord (.disclk .p1) 0 p)
  | .disclkP2 p => .cmd (commandWord (.disclk .p2) 0 p)
  | .setbyp e => .cmd (commandWord .setbyp 0 e)
  | .setclk k st => .cmd (commandWord .setclk k st)
  | .getclk k => .cmd (commandWord .getclk k 0)
  | .setsys v => .cmd (commandWord .setsys 0 v)
  | .getsys => .cmd (commandWord .getsys 0 0)

/-- One row of the table of R68 for a command word. -/
structure Row where
  mnemonic : String
  mtch : Word
  mask : Word
deriving DecidableEq, Repr

/-- The CMD rows of the table of R68, numbers as the table has them. -/
def cmdRows : List Row :=
  [⟨"ENCLK.HS1", 0x10000000, 0xFFFFFFE0⟩, ⟨"ENCLK.HS2", 0x11000000, 0xFFFFFFE0⟩, ⟨"ENCLK.HS3", 0x12000000, 0xFFFFFFE0⟩,
   ⟨"ENCLK.P1", 0x13000000, 0xFFFFFFE0⟩, ⟨"ENCLK.P2", 0x14000000, 0xFFFFFFE0⟩, ⟨"DISCLK.HS1", 0x18000000, 0xFFFFFFE0⟩,
   ⟨"DISCLK.HS2", 0x19000000, 0xFFFFFFE0⟩, ⟨"DISCLK.HS3", 0x1A000000, 0xFFFFFFE0⟩, ⟨"DISCLK.P1", 0x1B000000, 0xFFFFFFE0⟩,
   ⟨"DISCLK.P2", 0x1C000000, 0xFFFFFFE0⟩] ++
  [⟨"SETBYP", 0x20000000, 0xFFFFFFFE⟩, ⟨"SETCLK", 0x21000000, 0xFFFFE0FE⟩, ⟨"GETCLK", 0x22000000, 0xFFFFE0FF⟩,
   ⟨"SETSYS", 0x23000000, 0xFFFFFFFC⟩, ⟨"GETSYS", 0x24000000, 0xFFFFFFFF⟩]

/-- The match values of the BUS rows of the table of R68, with their mnemonics; every mask is 0xFFFF. The numbers are
those of the default layout, as the table has them. -/
def busRows : List (String × BitVec 16) :=
  [("RD.CR", 0x0000), ("WR.CR", 0x8000), ("RD.CFGR", 0x0008), ("WR.CFGR", 0x8008), ("RD.ENR_HS1", 0x0030),
   ("WR.ENR_HS1", 0x8030), ("RD.ENR_HS2", 0x0034), ("WR.ENR_HS2", 0x8034)] ++
  [("RD.ENR_HS3", 0x0038), ("WR.ENR_HS3", 0x8038), ("RD.ENR_P1", 0x0040), ("WR.ENR_P1", 0x8040),
   ("RD.ENR_P2", 0x0044), ("WR.ENR_P2", 0x8044)]

/-- The BUS rows under layout `L`: the read of the register at offset `off` is `0x00 ++ off`, the write `0x80 ++ off`
(R68). -/
def busRowsOf (L : Layout) : List (String × BitVec 16) :=
  [("RD.CR", (0x00 : BitVec 8) ++ L.offCr), ("WR.CR", (0x80 : BitVec 8) ++ L.offCr),
   ("RD.CFGR", (0x00 : BitVec 8) ++ L.offCfgr), ("WR.CFGR", (0x80 : BitVec 8) ++ L.offCfgr),
   ("RD.ENR_HS1", (0x00 : BitVec 8) ++ L.offEnr.hs1), ("WR.ENR_HS1", (0x80 : BitVec 8) ++ L.offEnr.hs1),
   ("RD.ENR_HS2", (0x00 : BitVec 8) ++ L.offEnr.hs2), ("WR.ENR_HS2", (0x80 : BitVec 8) ++ L.offEnr.hs2)] ++
  [("RD.ENR_HS3", (0x00 : BitVec 8) ++ L.offEnr.hs3), ("WR.ENR_HS3", (0x80 : BitVec 8) ++ L.offEnr.hs3),
   ("RD.ENR_P1", (0x00 : BitVec 8) ++ L.offEnr.p1), ("WR.ENR_P1", (0x80 : BitVec 8) ++ L.offEnr.p1),
   ("RD.ENR_P2", (0x00 : BitVec 8) ++ L.offEnr.p2), ("WR.ENR_P2", (0x80 : BitVec 8) ++ L.offEnr.p2)]

/-- The row of R68 that matches a command word, if one does. -/
def cmdRowOf (w : Word) : Option Row := cmdRows.find? fun r => w &&& r.mask == r.mtch

/-- The mnemonic of each form (R68, R71). -/
def Instr.mnemonic : Instr → String
  | .rdCr => "RD.CR"
  | .wrCr _ => "WR.CR"
  | .rdCfgr => "RD.CFGR"
  | .wrCfgr _ => "WR.CFGR"
  | .rdEnrHs1 => "RD.ENR_HS1"
  | .wrEnrHs1 _ => "WR.ENR_HS1"
  | .rdEnrHs2 => "RD.ENR_HS2"
  | .wrEnrHs2 _ => "WR.ENR_HS2"
  | .rdEnrHs3 => "RD.ENR_HS3"
  | .wrEnrHs3 _ => "WR.ENR_HS3"
  | .rdEnrP1 => "RD.ENR_P1"
  | .wrEnrP1 _ => "WR.ENR_P1"
  | .rdEnrP2 => "RD.ENR_P2"
  | .wrEnrP2 _ => "WR.ENR_P2"
  | .enclkHs1 _ => "ENCLK.HS1"
  | .enclkHs2 _ => "ENCLK.HS2"
  | .enclkHs3 _ => "ENCLK.HS3"
  | .enclkP1 _ => "ENCLK.P1"
  | .enclkP2 _ => "ENCLK.P2"
  | .disclkHs1 _ => "DISCLK.HS1"
  | .disclkHs2 _ => "DISCLK.HS2"
  | .disclkHs3 _ => "DISCLK.HS3"
  | .disclkP1 _ => "DISCLK.P1"
  | .disclkP2 _ => "DISCLK.P2"
  | .setbyp _ => "SETBYP"
  | .setclk _ _ => "SETCLK"
  | .getclk _ => "GETCLK"
  | .setsys _ => "SETSYS"
  | .getsys => "GETSYS"

/-- The packet that an instruction of `nbits` table bits makes when its bits are `w`, bit 0 the least significant of
the first word: 32 bits are a command word, any other length a descriptor in bits 15:0 with its data word in bits
47:16 (R61, R62; log 21). -/
def packetOf (nbits w : Nat) : Packet :=
  let v := w % 2 ^ nbits
  if nbits = 32 then .cmd (BitVec.ofNat 32 v)
  else .bus (BitVec.ofNat 16 v) (BitVec.ofNat 32 (v >>> 16))

/-- What the decoder reads, under the default layout, from an instruction whose bits are `w`, numbered as the opcode
table numbers them. -/
def decodeTableWord (nbits w : Nat) : Option Instr :=
  match decode Config.layout (packetOf nbits w) with
  | .ok i => some i
  | .error _ => none

end Sys2Proof
end

