-- ==== Sys2Proof/Machine/State.lean ====
section
/-! DEFINITION. The state of the block (R10, R26 to R28), the agents' turns (R3, R48), and the state after reset
(R32 to R35). Plain data throughout. -/

namespace Sys2Proof.Machine

/-- The register memory, as the state variables of R10. -/
structure Memory where
  /-- `enr[g]`: the gate bits of each bus group (R11, R12). -/
  enr : PerGroup Word
  /-- `en[s]`: the enable bit of each clock source (R15). -/
  en : PerSource Bool
  /-- `rdy[s]`: the ready bit of each clock source (R16). -/
  rdy : PerSource Bool
  /-- `byp`: the external-oscillator bypass bit (R17). -/
  byp : Bool
  /-- `cr_other`: the unassigned bits of CR (R18). -/
  crOther : Word
  /-- `sw`: the system clock selector field (R20). -/
  sw : BitVec 2
  /-- `sws`: the system clock status field (R21). -/
  sws : BitVec 2
  /-- `cfgr_other`: the unassigned bits of CFGR (R22). -/
  cfgrOther : Word
deriving DecidableEq, Repr

/-- The kinds of operation SEQ runs (R27); the group of a gate operation is a latched operand. -/
inductive Op where
  | enclk | disclk | setbyp | setclk | getclk | setsys | getsys
deriving DecidableEq, Repr

/-- The sequencer's own state (R26 to R28). -/
structure SeqState where
  /-- An operation is in progress (R27). -/
  busy : Bool
  /-- The operation in progress (R27). -/
  op : Op
  /-- Which primitive of the operation's pseudocode is next (R27). -/
  upc : Nat
  /-- The word read for a read-modify-write (R26). -/
  t : Word
  /-- The word of a read-back or poll read (R26). -/
  u : Word
  /-- Latched operand: the bus group of a gate operation (R26). -/
  g : BusGroup
  /-- Latched operand: the peripheral identifier (R26). -/
  p : BitVec 5
  /-- Latched operand: the clock source (R26). -/
  src : Source
  /-- Latched operand: `enabled` or `status` (R26). -/
  flag : Bool
  /-- Latched operand: the selector value (R26). -/
  target : BitVec 2
  /-- `RES`, the result of the last completed operation, read as a signed integer (R28). -/
  res : Word
  /-- The model's own mark: RES has been written since reset, so that reading it has a meaning (R35, R192; log 11). -/
  resDefined : Bool
deriving DecidableEq, Repr

/-- An execution context on the bus port (R165, R191): the caller of the command port, or an EXT context. The spec
gives contexts no identifiers; the numbers are the model's (log 12). -/
inductive Context where
  | caller
  | ext (n : Nat)
deriving DecidableEq, Repr

/-- Each context's own latch (R191): the word its last read delivered. The EXT contexts' are (number, word) pairs,
numbers rising; an unlisted one holds 0, and no listed one does (log 12). -/
structure Latches where
  caller : Word
  ext : List (Nat × Word)
deriving DecidableEq, Repr

/-- One access on the bus port by byte address, of any width and alignment, as an agent outside may attempt it
(R40 to R44). -/
structure Access where
  write : Bool
  addr : Word
  /-- The number of bytes. -/
  width : Nat
  data : Word
deriving DecidableEq, Repr

/-- Whose turn it is in the total order of R48 (R3, R164). -/
inductive Turn where
  /-- SEQ takes its next primitive; while SEQ is idle, its caller presents the next packet. -/
  | seq
  /-- OSC[x] takes its enabled step (R160, R162). -/
  | osc (x : Source)
  /-- MUX takes its step (R163). -/
  | mux
  /-- EXT context `ctx` issues the transaction a descriptor names (R61, R165, R191). -/
  | ext (ctx : Nat) (desc : BitVec 16) (data : Word)
  /-- EXT context `ctx` attempts an access by address (R40 to R44, R165, R191). -/
  | access (ctx : Nat) (a : Access)
  /-- The caller reads RES (R28, R35, R192). -/
  | result
  /-- The RESET event (R200). -/
  | reset
deriving DecidableEq, Repr

/-- The state of the block, with its parameters and its inputs. -/
structure State where
  /-- The register memory (R10). -/
  mem : Memory
  /-- The sequencer (R26 to R28). -/
  seq : SeqState
  /-- The implementation's parameters (R5), which no step changes (log 13). -/
  params : Params
  /-- The latches of the contexts outside SEQ (R191; log 12). -/
  latches : Latches
  /-- The model's own field: the context that has the bus port, to which a raw read delivers its word (R191; log 30). -/
  issuer : Context
  /-- The model's own field: whose turns come next, in order (R48, R164; log 2). It is finite, so that EXT contexts and
  RESET have finitely many turns in a run: DESIGN CHOICE, log 2. -/
  sched : List Turn
  /-- The model's own field: what the caller still has to present, in order (R8, R27, R51; log 7). -/
  program : List Packet
deriving DecidableEq, Repr

/-- The block raises no exception, trap or fault (R180), and every failure is a result value or a hang (R181):
there is no fault to name (log 22). -/
inductive Fault where
deriving DecidableEq, Repr

/-- Why the model gives an input no meaning (R192). Each is safe: the run stops where the spec gives no behaviour. -/
inductive Refusal where
  /-- An arm of `exec` that has no meaning yet. No arm raises it. Safe. -/
  | notModelled (mnemonic : String)
  /-- A reserved command word or descriptor (R69, R94). Raised by `present` and by an EXT turn. Safe. -/
  | reservedEncoding (why : Reserved)
  /-- A textual peripheral identifier outside 0 to 31 (R72). Raised by ENCLK and DISCLK. Safe. -/
  | peripheralOutOfRange
  /-- A textual source that is not in SOURCES (R72). Raised by SETCLK and GETCLK. Safe. -/
  | unknownSource
  /-- A textual status or enabled that is neither of its two values (R72). Raised by SETBYP and SETCLK. Safe. -/
  | badBoolean
  /-- A transaction of a width other than 4 bytes (R41). Raised by an access turn. Safe. -/
  | accessWidth
  /-- A transaction at an address that is not a multiple of 4 (R42). Raised by an access turn. Safe. -/
  | misalignedAddress
  /-- An address outside the window the bus port decodes (R40; log 19). Raised by an access turn. Safe. -/
  | outsideWindow
  /-- An aligned offset of the window where none of the seven registers stands (R44). Raised by an access turn. Safe. -/
  | unmappedOffset
  /-- With `DISABLE_SELECTED_POLICY = refuse`, a write of CR that disables a source the selector or status field
  names (R91, R210). Raised by a write of CR. Safe. -/
  | disableOfSelectedSource
  /-- A read of RES before any operation has returned: the spec itself refuses it (R192's closed list, R35, V12).
  Raised by the turn `result`. Safe. -/
  | resultNotWritten
  /-- `exec` of an operation while SEQ is busy, which the synchronous caller cannot present (R189, V13; log 8).
  No run of `step` raises it. Safe. -/
  | commandWhileBusy
deriving DecidableEq, Repr

/-- The canonical form of the register memory: unimplemented enable bits are 0 (R12), the words of unassigned bits are
0 at every assigned position (R10), and there is a bit pair for every source (R15, D4). Two memories in this form that read equal are
equal. -/
def Memory.wf (P : Params) (m : Memory) : Bool :=
  decide (∀ g ∈ [BusGroup.hs1, .hs2, .hs3, .p1, .p2], m.enr.get g &&& ~~~(P.enrImpl.get g) = 0) &&
  decide (m.crOther &&& P.layout.crAssigned = 0) && decide (m.cfgrOther &&& P.layout.cfgrAssigned = 0) &&
  decide (m.en.extra.length = P.layout.enPos.extra.length) && decide (m.rdy.extra.length = P.layout.enPos.extra.length)

/-- The parameters fit each other: the layout is one a model may take, the reset values lie inside the bits they are
reset values of (R10, R12; log 20), and no selector value depends on an extra source (D4). -/
def paramsWf (P : Params) : Bool :=
  P.layout.ok && decide (∀ g ∈ [BusGroup.hs1, .hs2, .hs3, .p1, .p2], P.enrReset.get g &&& ~~~(P.enrImpl.get g) = 0) &&
  decide (P.crOtherReset &&& P.layout.crAssigned = 0) && decide (P.cfgrOtherReset &&& P.layout.cfgrAssigned = 0) &&
  decide (∀ x ∈ [P.selDep.v0, P.selDep.v1, P.selDep.v2, P.selDep.v3], x ∈ [Source.hsi, .hse, .pll])

/-- The register memory after reset (R32, R33, R34). Extra sources are OFF: DESIGN CHOICE, log 16. -/
def Memory.reset (P : Params) : Memory where
  enr := P.enrReset
  en := ⟨true, false, false, List.replicate P.layout.enPos.extra.length false⟩
  rdy := ⟨true, false, false, List.replicate P.layout.enPos.extra.length false⟩
  byp := false
  crOther := P.crOtherReset
  sw := 0
  sws := 0
  cfgrOther := P.cfgrOtherReset

/-- The sequencer after power-up: idle (R35). RES, the latches and the operands are unspecified in the spec; the
values here are a DESIGN CHOICE, log 9. -/
def SeqState.reset : SeqState where
  busy := false
  op := .getsys
  upc := 0
  t := 0
  u := 0
  g := .hs1
  p := 0
  src := .hsi
  flag := false
  target := 0
  res := 0
  resDefined := false

/-- The block right after reset, with the default parameters (R5, R201), nothing scheduled and nothing to present. -/
def State.reset : State where
  mem := Memory.reset Config.defaults
  seq := SeqState.reset
  params := Config.defaults
  latches := ⟨0, []⟩
  issuer := .caller
  sched := []
  program := []

end Sys2Proof.Machine
end

