-- ==== Sys2Proof/Machine/Flags.lean ====
section
/-! DEFINITION. The block has no flags, condition codes or predicates (R29): an operation's only report is its result
value. This file holds the computation of every result value (R28, R181). -/

namespace Sys2Proof.Machine

/-- A boolean result: 1 for true, 0 for false (R28). -/
def boolResult (b : Bool) : Word := if b then 1 else 0

/-- A selector result, zero-extended from the 2-bit field (R28, R65). -/
def selectorResult (v : BitVec 2) : Word := v.setWidth 32

/-- The result of a refused selection, `SEL_ERROR` = -1 (R28, R183). -/
def refusedSelection : Word := Config.selError

end Sys2Proof.Machine
end

