-- ==== Sys2Proof/Machine/Ops.lean ====
section
/-! DEFINITION. The named operations over the register memory: reading and writing each register (R80 to R93), access
by address (R40 to R44), the byte view (R43), the steps the hardware takes by itself (R160 to R163), the RESET event
(R200), which is the block's only asynchronous entry since it takes no exceptions (R180), and the derived outputs
(R13, R25). -/

namespace Sys2Proof.Machine

/-- The three outcomes of a step of this machine. -/
abbrev Result := Host.Outcome State Fault Refusal

/-- Continue with the next state, if there is one. -/
def andThen (r : Result) (k : State → Result) : Result :=
  match r with
  | .next s => k s
  | .fault f => .fault f
  | .refused e => .refused e

/-! Reading. -/

/-- The word a read of CR returns (R14, R90): the unassigned bits, the bypass bit, and for every source its enable bit
and its ready bit. -/
def crWord (L : Layout) (m : Memory) : Word :=
  L.sources.foldr
    (fun x w => placeBit (m.en.get x) (L.enPos.get x) ||| placeBit (m.rdy.get x) (L.rdyPos x) ||| w)
    (placeBit m.byp L.bypPos ||| m.crOther)

/-- The word a read of CFGR returns (R19, R92). -/
def cfgrWord (L : Layout) (m : Memory) : Word :=
  m.cfgrOther ||| placeField m.sws L.swsPos ||| placeField m.sw L.swPos

/-- The word a read of register `r` returns (R80, R82, R84, R86, R88, R90, R92). -/
def readReg (r : Reg) (s : State) : Word :=
  match r with
  | .cr => crWord s.params.layout s.mem
  | .cfgr => cfgrWord s.params.layout s.mem
  | .enr g => s.mem.enr.get g &&& s.params.enrImpl.get g

/-! Writing. -/

/-- The write of an enable register: the implemented bits are replaced at once (R81, R83, R85, R87, R89). -/
def Memory.writeEnr (P : Params) (g : BusGroup) (d : Word) (m : Memory) : Memory :=
  { m with enr := m.enr.set g (d &&& P.enrImpl.get g) }

/-- The source the selector value `v` depends on, `SEL_DEP[v]` (R20). -/
def selDep (P : Params) (v : BitVec 2) : Source := P.selDep.get v

/-- The write `d` of CR disables a source that the selector or the status field names (R91, R210). -/
def disablesSelected (P : Params) (d : Word) (m : Memory) : Bool :=
  P.layout.sources.any fun x =>
    m.en.get x && !d.getLsbD (P.layout.enPos.get x) && (selDep P m.sw == x || selDep P m.sws == x)

/-- The write of CR, all at one instant (R91): enable bits, ready bits of disabled sources, the bypass bit, the
unassigned bits. The bits written at ready positions are ignored (R16). -/
def Memory.writeCr (P : Params) (d : Word) (m : Memory) : Memory :=
  { m with
    en := PerSource.tabulate P.layout.enPos.extra.length fun x => d.getLsbD (P.layout.enPos.get x)
    rdy := PerSource.tabulate P.layout.enPos.extra.length fun x =>
      m.rdy.get x && (d.getLsbD (P.layout.enPos.get x) || P.readyClear != .immediate)
    byp := if P.bypLock && m.en.get .hse then m.byp else d.getLsbD P.layout.bypPos
    crOther := d &&& P.layout.crOtherMask }

/-- MUX's guard: the status field differs from the selector, whose source is ready (R163). -/
def muxEnabled (P : Params) (m : Memory) : Bool := m.sws != m.sw && m.rdy.get (selDep P m.sw)

/-- MUX's step (R163): when its guard holds, the status field takes the selector's value. -/
def Memory.follow (P : Params) (m : Memory) : Memory := if muxEnabled P m then { m with sws := m.sw } else m

/-- With `SWS_FOLLOW = immediate` MUX's step is part of the transaction or step that enables it (R93, R163). -/
def Memory.followNow (P : Params) (m : Memory) : Memory :=
  match P.swsFollow with
  | .agent => m
  | .immediate => m.follow P

/-- The write of CFGR (R93): the selector field and the unassigned bits. The bits written at the status positions are
ignored (R21). -/
def Memory.writeCfgr (P : Params) (d : Word) (m : Memory) : Memory :=
  Memory.followNow P { m with sw := field2 d P.layout.swPos, cfgrOther := d &&& P.layout.cfgrOtherMask }

/-- The write of `d` to register `r` (R47). -/
def writeReg (r : Reg) (d : Word) (s : State) : Result :=
  match r with
  | .enr g => .next { s with mem := s.mem.writeEnr s.params g d }
  | .cfgr => .next { s with mem := s.mem.writeCfgr s.params d }
  | .cr =>
    match s.params.disableSelected with
    | .allow => .next { s with mem := s.mem.writeCr s.params d }
    | .refuse =>
      if disablesSelected s.params d s.mem then .refused .disableOfSelectedSource
      else .next { s with mem := s.mem.writeCr s.params d }

/-- The word a list of (number, word) pairs holds for context `n`; 0 for an unlisted one (log 12). -/
def wordOf (n : Nat) : List (Nat × Word) → Word
  | [] => 0
  | (k, v) :: l => if k = n then v else wordOf n l

/-- The list with the word of context `n` replaced, numbers still rising and no word 0 listed. -/
def putWord (n : Nat) (w : Word) : List (Nat × Word) → List (Nat × Word)
  | [] => if w = 0 then [] else [(n, w)]
  | (k, v) :: l =>
    if k < n then (k, v) :: putWord n w l
    else if k = n then (if w = 0 then l else (n, w) :: l)
    else if w = 0 then (k, v) :: l
    else (n, w) :: (k, v) :: l

/-- The latch of one context (R191). -/
def Latches.get (l : Latches) : Context → Word
  | .caller => l.caller
  | .ext n => wordOf n l.ext

/-- Replace the latch of one context alone (R191). -/
def Latches.set (l : Latches) (c : Context) (w : Word) : Latches :=
  match c with
  | .caller => { l with caller := w }
  | .ext n => { l with ext := putWord n w l.ext }

/-- The canonical form of the latches: numbers rising, no word 0 listed. -/
def Latches.wf (l : Latches) : Bool :=
  decide (l.ext.Pairwise fun a b => a.1 < b.1) && decide (∀ a ∈ l.ext, a.2 ≠ 0)

/-- A raw read: the word goes to the latch of the context that issued it, and no state of the block changes
(R46, R191; log 12). -/
def rawRead (r : Reg) (s : State) : Result := .next { s with latches := s.latches.set s.issuer (readReg r s) }

/-- A raw write (R47). -/
def rawWrite (r : Reg) (d : Word) (s : State) : Result := writeReg r d s

/-! Access by address. -/

/-- `A(X) = BASE + OFF_X` (R40). -/
def regAddr (L : Layout) (r : Reg) : Word := L.base + (L.offset r).setWidth 32

/-- The register an access of `width` bytes at `addr` reaches, or why it is refused: width, then alignment, then the
window of 256 bytes from `BASE`, then the seven offsets (R40, R41, R42, R44; the order of the checks: log 19). -/
def locate (L : Layout) (addr : Word) (width : Nat) : Except Refusal Reg :=
  if width ≠ 4 then .error .accessWidth
  else if addr.extractLsb' 0 2 ≠ 0 then .error .misalignedAddress
  else if 256 ≤ (addr - L.base).toNat then .error .outsideWindow
  else match regAt L ((addr - L.base).setWidth 8) with
    | some r => .ok r
    | none => .error .unmappedOffset

/-- One access by address (R40 to R45). -/
def busAccess (a : Access) (s : State) : Result :=
  match locate s.params.layout a.addr a.width with
  | .error e => .refused e
  | .ok r => if a.write then rawWrite r a.data s else rawRead r s

/-- The byte at address `a` of the register memory: the byte at the lowest address of a register holds its bits 7:0
(R43; log 1). None where no register stands. -/
def byteAt (a : Word) (s : State) : Option Byte :=
  match locate s.params.layout (a &&& ~~~3) 4 with
  | .error _ => none
  | .ok r => some ((readReg r s).extractLsb' (8 * (a.extractLsb' 0 2).toNat) 8)

/-! The steps the hardware takes by itself. -/

/-- The guard of OSC[x].Stabilize (R160). -/
def stabilizeEnabled (P : Params) (x : Source) (m : Memory) : Bool :=
  m.en.get x && !m.rdy.get x && P.stabilizes.get x

/-- The guard of OSC[x].Decay (R162). -/
def decayEnabled (P : Params) (x : Source) (m : Memory) : Bool :=
  P.readyClear == .eventual && !m.en.get x && m.rdy.get x

/-- OSC[x] has an enabled step. -/
def oscEnabled (P : Params) (x : Source) (m : Memory) : Bool := stabilizeEnabled P x m || decayEnabled P x m

/-- OSC[x]'s enabled step, Stabilize or Decay (R160, R162); with `SWS_FOLLOW = immediate` the status field follows at
the same instant a source becomes ready (R163). Without an enabled step nothing changes (log 4). -/
def Memory.osc (P : Params) (x : Source) (m : Memory) : Memory :=
  if stabilizeEnabled P x m then Memory.followNow P { m with rdy := m.rdy.set x true }
  else if decayEnabled P x m then { m with rdy := m.rdy.set x false }
  else m

/-- A hardware agent. -/
inductive Hardware where
  | osc (x : Source)
  | mux
deriving DecidableEq, Repr

/-- The agent has an enabled step (R160, R162, R163). -/
def Hardware.enabled (P : Params) (m : Memory) : Hardware → Bool
  | .osc x => oscEnabled P x m
  | .mux => muxEnabled P m

/-- The agent's step on the register memory. -/
def Hardware.act (P : Params) (m : Memory) : Hardware → Memory
  | .osc x => m.osc P x
  | .mux => m.follow P

/-- The agent's step. -/
def hardwareStep (h : Hardware) (s : State) : State := { s with mem := h.act s.params s.mem }

/-- The first hardware agent with an enabled step, in the model's default order: the sources' oscillators, then MUX
(log 3). -/
def firstEnabled (s : State) : Option Hardware :=
  (s.params.layout.sources.map Hardware.osc ++ [Hardware.mux]).find? fun h => h.enabled s.params s.mem

/-! The RESET event. -/

/-- RESET (R200): the register memory takes its reset values, the operation in progress is abandoned without writing
RES, SEQ is idle, and nothing else is discarded. RES is unspecified from here on (R35), so it counts as not written
(log 10, 11). -/
def resetEvent (s : State) : State :=
  { s with
    mem := Memory.reset s.params
    seq := { s.seq with busy := false, upc := 0, resDefined := false } }

/-- The caller's reading of RES (R28). Before any operation has returned it is refused, as the closed list of R192 says
("a read of `RES` before any operation has returned"; R35, V12). A read while SEQ is busy, of which the spec does not say
whether the synchronous caller can make it (R189), delivers the last result: DESIGN CHOICE, log 31. -/
def readResult (s : State) : Result :=
  if s.seq.resDefined then .next { s with latches := s.latches.set .caller s.seq.res } else .refused .resultNotWritten

/-! Derived outputs and states. -/

/-- `gate(g, p) = enr[g][p]` (R13). -/
def gate (g : BusGroup) (p : Nat) (s : State) : Bool := (s.mem.enr.get g).getLsbD p

/-- `osc_en(s) = en[s]` (R25). -/
def oscEn (x : Source) (s : State) : Bool := s.mem.en.get x

/-- `osc_bypass = byp` (R25). -/
def oscBypass (s : State) : Bool := s.mem.byp

/-- `sysclk_sel = sws` (R25). -/
def sysclkSel (s : State) : BitVec 2 := s.mem.sws

/-- `sysclk_alive = rdy[SEL_DEP[sws]]` (R25). -/
def sysclkAlive (s : State) : Bool := s.mem.rdy.get (selDep s.params s.mem.sws)

/-- The state of a clock source (R23); STOPPING is the one the source document does not name. -/
inductive SourceState where
  | off | stabilizing | ready | stopping
deriving DecidableEq, Repr

/-- The state of source `x`, read off its two bits (R23). -/
def sourceState (x : Source) (m : Memory) : SourceState :=
  match m.en.get x, m.rdy.get x with
  | false, false => .off
  | true, false => .stabilizing
  | true, true => .ready
  | false, true => .stopping

end Sys2Proof.Machine
end

