-- ==== Sys2Proof/Machine/BusTransactions.lean ====
section
/-! DEFINITION. The 14 raw register transactions (R80 to R93), issued on the bus port by any agent at any time; each
completes in one step (R95). -/

namespace Sys2Proof.Machine

/-- `RD.CR` (R90). -/
def execRdCr (s : State) : Result := rawRead .cr s

/-- `WR.CR d` (R91). -/
def execWrCr (d : Word) (s : State) : Result := rawWrite .cr d s

/-- `RD.CFGR` (R92). -/
def execRdCfgr (s : State) : Result := rawRead .cfgr s

/-- `WR.CFGR d` (R93). -/
def execWrCfgr (d : Word) (s : State) : Result := rawWrite .cfgr d s

/-- `RD.ENR_HS1` (R80). -/
def execRdEnrHs1 (s : State) : Result := rawRead (.enr .hs1) s

/-- `WR.ENR_HS1 d` (R81). -/
def execWrEnrHs1 (d : Word) (s : State) : Result := rawWrite (.enr .hs1) d s

/-- `RD.ENR_HS2` (R82). -/
def execRdEnrHs2 (s : State) : Result := rawRead (.enr .hs2) s

/-- `WR.ENR_HS2 d` (R83). -/
def execWrEnrHs2 (d : Word) (s : State) : Result := rawWrite (.enr .hs2) d s

/-- `RD.ENR_HS3` (R84). -/
def execRdEnrHs3 (s : State) : Result := rawRead (.enr .hs3) s

/-- `WR.ENR_HS3 d` (R85). -/
def execWrEnrHs3 (d : Word) (s : State) : Result := rawWrite (.enr .hs3) d s

/-- `RD.ENR_P1` (R86). -/
def execRdEnrP1 (s : State) : Result := rawRead (.enr .p1) s

/-- `WR.ENR_P1 d` (R87). -/
def execWrEnrP1 (d : Word) (s : State) : Result := rawWrite (.enr .p1) d s

/-- `RD.ENR_P2` (R88). -/
def execRdEnrP2 (s : State) : Result := rawRead (.enr .p2) s

/-- `WR.ENR_P2 d` (R89). -/
def execWrEnrP2 (d : Word) (s : State) : Result := rawWrite (.enr .p2) d s

end Sys2Proof.Machine
end

