-- ==== Sys2Proof/Machine/Sequencer.lean ====
section
/-! DEFINITION. The sequencer SEQ (R26, R27): the primitives of each operation, one per step of SEQ, and how an
accepted operation runs between the turns of the other agents (R48, R50; log 5, 6). -/

namespace Sys2Proof.Machine

/-! Primitives. Each but `finish` moves `upc` to the next one (R27). -/

/-- `t <- MemRead(A(r), 4)`. -/
def loadT (r : Reg) (s : State) : Result :=
  .next { s with seq := { s.seq with t := readReg r s, upc := s.seq.upc + 1 } }

/-- `u <- MemRead(A(r), 4)`. -/
def loadU (r : Reg) (s : State) : Result :=
  .next { s with seq := { s.seq with u := readReg r s, upc := s.seq.upc + 1 } }

/-- `MemWrite(A(r), 4, d)`. -/
def store (r : Reg) (d : Word) (s : State) : Result :=
  andThen (writeReg r d s) fun s' => .next { s' with seq := { s'.seq with upc := s'.seq.upc + 1 } }

/-- `return v`: writes RES, drops `upc` and sets SEQ idle (R7, R27). -/
def finish (v : Word) (s : State) : Result :=
  .next { s with seq := { s.seq with busy := false, upc := 0, res := v, resDefined := true } }

/-- One iteration of the poll loop of SETCLK (R121, R123): a read of CR into `u`, after which `upc` goes on if bit `k`
is set and stays for the next iteration if not. -/
def poll (k : Nat) (s : State) : Result :=
  let u := readReg .cr s
  .next { s with seq := { s.seq with u := u, upc := if u.getLsbD k then s.seq.upc + 1 else s.seq.upc } }

/-! Operations: the primitive at `upc`. An index past the last primitive, which no run reaches, acts as the last
(log 26). -/

/-- `ENCLK.g p` (R100 to R104). -/
def stepEnclk (s : State) : Result :=
  match s.seq.upc with
  | 0 => loadT (.enr s.seq.g) s
  | 1 => store (.enr s.seq.g) (setBit s.seq.t s.seq.p.toNat) s
  | 2 => loadU (.enr s.seq.g) s
  | _ => finish (boolResult (s.seq.u.getLsbD s.seq.p.toNat)) s

/-- `DISCLK.g p` (R105 to R109). -/
def stepDisclk (s : State) : Result :=
  match s.seq.upc with
  | 0 => loadT (.enr s.seq.g) s
  | 1 => store (.enr s.seq.g) (clearBit s.seq.t s.seq.p.toNat) s
  | 2 => loadU (.enr s.seq.g) s
  | _ => finish (boolResult (!s.seq.u.getLsbD s.seq.p.toNat)) s

/-- `SETBYP enabled` (R120): the enable branch returns the post-write bit, the other its inverse. -/
def stepSetbyp (s : State) : Result :=
  let k := s.params.layout.bypPos
  match s.seq.upc with
  | 0 => loadT .cr s
  | 1 => store .cr (if s.seq.flag then setBit s.seq.t k else clearBit s.seq.t k) s
  | 2 => loadU .cr s
  | _ => finish (boolResult (if s.seq.flag then s.seq.u.getLsbD k else !s.seq.u.getLsbD k)) s

/-- `SETCLK s, status` (R121): ON polls after the write, OFF returns after it; both return true (R125). -/
def stepSetclk (s : State) : Result :=
  let k := s.params.layout.enPos.get s.seq.src
  match s.seq.upc with
  | 0 => loadT .cr s
  | 1 => store .cr (if s.seq.flag then setBit s.seq.t k else clearBit s.seq.t k) s
  | 2 => if s.seq.flag then poll (s.params.layout.rdyPos s.seq.src) s else finish (boolResult true) s
  | _ => finish (boolResult true) s

/-- `GETCLK s` (R122). -/
def stepGetclk (s : State) : Result :=
  match s.seq.upc with
  | 0 => loadU .cr s
  | _ => finish (boolResult (s.seq.u.getLsbD (s.params.layout.rdyPos s.seq.src))) s

/-- `SETSYS target` (R140): validate, clear the field, write the value, read back. -/
def stepSetsys (s : State) : Result :=
  match s.seq.upc with
  | 0 => loadU .cr s
  | 1 =>
    if s.seq.u.getLsbD (s.params.layout.rdyPos (selDep s.params s.seq.target)) then loadT .cfgr s
    else finish refusedSelection s
  | 2 => store .cfgr (clearField s.seq.t s.params.layout.swPos) s
  | 3 => loadT .cfgr s
  | 4 => store .cfgr (orField s.seq.t s.seq.target s.params.layout.swPos) s
  | 5 => loadU .cfgr s
  | _ => finish (selectorResult (field2 s.seq.u s.params.layout.swPos)) s

/-- `GETSYS` (R141). -/
def stepGetsys (s : State) : Result :=
  match s.seq.upc with
  | 0 => loadU .cfgr s
  | _ => finish (selectorResult (field2 s.seq.u s.params.layout.swPos)) s

/-- SEQ's next primitive (R27). -/
def seqStep (s : State) : Result :=
  match s.seq.op with
  | .enclk => stepEnclk s
  | .disclk => stepDisclk s
  | .setbyp => stepSetbyp s
  | .setclk => stepSetclk s
  | .getclk => stepGetclk s
  | .setsys => stepSetsys s
  | .getsys => stepGetsys s

/-! Turns. -/

/-- No other agent's turn stands before SEQ's next primitive: the next turn is SEQ's, or no turn is listed. With no turn
listed SEQ so goes on within its step although OSC or MUX may have become enabled by then, and the default order, in
which hardware moves first, is asked only between steps: DESIGN CHOICE, log 3 and 5. -/
def seqIsNext (s : State) : Bool :=
  match s.sched with
  | [] => true
  | .seq :: _ => true
  | .osc _ :: _ | .mux :: _ | .ext _ _ _ :: _ | .access _ _ :: _ | .result :: _ | .reset :: _ => false

/-- The first listed turn is over. -/
def passTurn (s : State) : State := { s with sched := s.sched.tail }

/-- SEQ's consecutive turns: at most `n` primitives of the operation in progress, ending early when it has returned,
when another agent's turn comes (R50), and after a poll iteration that did not see the ready bit, which leaves `upc`
where it was (R123). Merging SEQ's uninterrupted primitives into one step of the model hides nothing: no other agent
acts between them (log 5). -/
def runSeq : Nat → State → Result
  | 0, s => .next s
  | n + 1, s =>
    if s.seq.busy && seqIsNext s then
      andThen (seqStep (passTurn s)) fun s' => if s'.seq.upc = s.seq.upc then .next s' else runSeq n s'
    else .next s

/-- SEQ goes on with the operation in progress. -/
def resume (s : State) : Result := runSeq Config.longestOperation s

/-- The command port accepts an operation only when SEQ is idle (R27, R189); a busy SEQ gives the presentation no
meaning (V13; log 8). -/
def whenIdle (s : State) (k : State → Result) : Result :=
  if s.seq.busy then .refused .commandWhileBusy else k s

/-- The command port accepts the operation `op`, its operands already latched by the caller of this function, and SEQ
takes its turns (R8, R27). -/
def accept (op : Op) (s : State) : Result :=
  resume { s with seq := { s.seq with busy := true, op := op, upc := 0 } }

end Sys2Proof.Machine
end

