-- ==== Sys2Proof/Machine/ClockSourceControl.lean ====
section
/-! DEFINITION. The three oscillator operations of ClockSourceController (R120 to R122). Their primitives are
`stepSetbyp`, `stepSetclk` and `stepGetclk`; here they are accepted with their operands. -/

namespace Sys2Proof.Machine

/-- `SETBYP enabled` (R120); a textual operand that is neither 0 nor 1 is refused (R72), and that is checked before SEQ
being busy: DESIGN CHOICE, log 32. -/
def execSetbyp (enabled : Int) (s : State) : Result :=
  match boolAt enabled with
  | some b => whenIdle s fun s => accept .setbyp { s with seq := { s.seq with flag := b } }
  | none => .refused .badBoolean

/-- `SETCLK source, status` (R121); a textual source that is not in SOURCES, or a status that is neither of its two
values, is refused (R72). Where several refusals apply the source comes first, then the status, then SEQ being busy:
DESIGN CHOICE, log 32. -/
def execSetclk (source status : Int) (s : State) : Result :=
  match sourceAt s.params.layout source, boolAt status with
  | some x, some b => whenIdle s fun s => accept .setclk { s with seq := { s.seq with src := x, flag := b } }
  | none, _ => .refused .unknownSource
  | some _, none => .refused .badBoolean

/-- `GETCLK source` (R122); a textual source that is not in SOURCES is refused (R72), and that is checked before SEQ
being busy: DESIGN CHOICE, log 32. -/
def execGetclk (source : Int) (s : State) : Result :=
  match sourceAt s.params.layout source with
  | some x => whenIdle s fun s => accept .getclk { s with seq := { s.seq with src := x } }
  | none => .refused .unknownSource

end Sys2Proof.Machine
end

