-- ==== Sys2Proof/Machine/PeripheralClockGate.lean ====
section
/-! DEFINITION. The ten operations of PeripheralClockGate (R100 to R109). Their primitives are `stepEnclk` and
`stepDisclk`; here they are accepted with their group and peripheral identifier. -/

namespace Sys2Proof.Machine

/-- Accept a gate operation on group `g` with peripheral identifier `p`, refused where a textual `p` is outside 0 to 31
(R63, R72). The operand is checked before SEQ being busy: DESIGN CHOICE, log 32. -/
def gateOperation (op : Op) (g : BusGroup) (p : Int) (s : State) : Result :=
  if peripheralOk p then
    whenIdle s fun s => accept op { s with seq := { s.seq with g := g, p := peripheralBits p } }
  else .refused .peripheralOutOfRange

/-- `ENCLK.HS1 p` (R100). -/
def execEnclkHs1 (p : Int) (s : State) : Result := gateOperation .enclk .hs1 p s

/-- `ENCLK.HS2 p` (R101). -/
def execEnclkHs2 (p : Int) (s : State) : Result := gateOperation .enclk .hs2 p s

/-- `ENCLK.HS3 p` (R102). -/
def execEnclkHs3 (p : Int) (s : State) : Result := gateOperation .enclk .hs3 p s

/-- `ENCLK.P1 p` (R103). -/
def execEnclkP1 (p : Int) (s : State) : Result := gateOperation .enclk .p1 p s

/-- `ENCLK.P2 p` (R104). -/
def execEnclkP2 (p : Int) (s : State) : Result := gateOperation .enclk .p2 p s

/-- `DISCLK.HS1 p` (R105). -/
def execDisclkHs1 (p : Int) (s : State) : Result := gateOperation .disclk .hs1 p s

/-- `DISCLK.HS2 p` (R106). -/
def execDisclkHs2 (p : Int) (s : State) : Result := gateOperation .disclk .hs2 p s

/-- `DISCLK.HS3 p` (R107). -/
def execDisclkHs3 (p : Int) (s : State) : Result := gateOperation .disclk .hs3 p s

/-- `DISCLK.P1 p` (R108). -/
def execDisclkP1 (p : Int) (s : State) : Result := gateOperation .disclk .p1 p s

/-- `DISCLK.P2 p` (R109). -/
def execDisclkP2 (p : Int) (s : State) : Result := gateOperation .disclk .p2 p s

end Sys2Proof.Machine
end

