-- ==== Sys2Proof/Machine/SystemClockSelect.lean ====
section
/-! DEFINITION. The two selection operations of ClockSourceController (R140, R141). Their primitives are `stepSetsys`
and `stepGetsys`; here they are accepted with their operands. -/

namespace Sys2Proof.Machine

/-- `SETSYS target` (R140). A textual target outside 0 to 3 depends on no source and fails validation: it returns the
sentinel with no register access at all (R72; log 18). SEQ being busy is checked first: DESIGN CHOICE, log 32. -/
def execSetsys (target : Int) (s : State) : Result :=
  whenIdle s fun s =>
    if selectorOk target then accept .setsys { s with seq := { s.seq with target := selectorBits target } }
    else finish refusedSelection s

/-- `GETSYS` (R141). -/
def execGetsys (s : State) : Result := whenIdle s fun s => accept .getsys s

end Sys2Proof.Machine
end

