-- ==== Sys2Proof/Machine/Dispatch.lean ====
section
/-! DEFINITION. The meaning of every form of the opcode table, one arm each. -/

namespace Sys2Proof.Machine

open Sys2Proof

-- The meaning of one instruction: a transaction on the bus port, or an operation presented to the command port.
def exec (i : Instr) (s : State) : Host.Outcome State Fault Refusal :=
  match i with
  | .rdCr => Sys2Proof.Machine.execRdCr s
  | .wrCr d => Sys2Proof.Machine.execWrCr d s
  | .rdCfgr => Sys2Proof.Machine.execRdCfgr s
  | .wrCfgr d => Sys2Proof.Machine.execWrCfgr d s
  | .rdEnrHs1 => Sys2Proof.Machine.execRdEnrHs1 s
  | .wrEnrHs1 d => Sys2Proof.Machine.execWrEnrHs1 d s
  | .rdEnrHs2 => Sys2Proof.Machine.execRdEnrHs2 s
  | .wrEnrHs2 d => Sys2Proof.Machine.execWrEnrHs2 d s
  | .rdEnrHs3 => Sys2Proof.Machine.execRdEnrHs3 s
  | .wrEnrHs3 d => Sys2Proof.Machine.execWrEnrHs3 d s
  | .rdEnrP1 => Sys2Proof.Machine.execRdEnrP1 s
  | .wrEnrP1 d => Sys2Proof.Machine.execWrEnrP1 d s
  | .rdEnrP2 => Sys2Proof.Machine.execRdEnrP2 s
  | .wrEnrP2 d => Sys2Proof.Machine.execWrEnrP2 d s
  | .enclkHs1 p => Sys2Proof.Machine.execEnclkHs1 p s
  | .enclkHs2 p => Sys2Proof.Machine.execEnclkHs2 p s
  | .enclkHs3 p => Sys2Proof.Machine.execEnclkHs3 p s
  | .enclkP1 p => Sys2Proof.Machine.execEnclkP1 p s
  | .enclkP2 p => Sys2Proof.Machine.execEnclkP2 p s
  | .disclkHs1 p => Sys2Proof.Machine.execDisclkHs1 p s
  | .disclkHs2 p => Sys2Proof.Machine.execDisclkHs2 p s
  | .disclkHs3 p => Sys2Proof.Machine.execDisclkHs3 p s
  | .disclkP1 p => Sys2Proof.Machine.execDisclkP1 p s
  | .disclkP2 p => Sys2Proof.Machine.execDisclkP2 p s
  | .setbyp enabled => Sys2Proof.Machine.execSetbyp enabled s
  | .setclk source status => Sys2Proof.Machine.execSetclk source status s
  | .getclk source => Sys2Proof.Machine.execGetclk source s
  | .setsys target => Sys2Proof.Machine.execSetsys target s
  | .getsys => Sys2Proof.Machine.execGetsys s

end Sys2Proof.Machine
end

