-- ==== Sys2Proof/Machine/Turns.lean ====
section
/-! DEFINITION. Whose turn it is (R48, R164): a turn of each agent, the caller's presentations (R8, R189), and the
default order once no turn is listed (log 3). A turn on the bus port says whose it is (`issuer`, log 30). -/

namespace Sys2Proof.Machine

/-- A presentation at a port: a reserved encoding is refused before any transaction (R69, R186), anything else is
executed. -/
def present (pk : Packet) (s : State) : Result :=
  match decode s.params.layout pk with
  | .error e => .refused (.reservedEncoding e)
  | .ok i => exec i s

/-- SEQ's turn. Busy: it goes on with the operation in progress. Idle: the turn passes and the synchronous caller
presents its next packet, if it has one left (R8, R189; log 7). -/
def seqTurn (s : State) : Result :=
  if s.seq.busy then resume s
  else match s.program with
    | [] => .next (passTurn s)
    | pk :: rest => present pk { passTurn s with program := rest, issuer := .caller }

/-- The step taken when no turn is listed (DESIGN CHOICE, log 3): the first hardware agent with an enabled step, else
SEQ or its caller. Every infinite run is so weakly fair to every agent of R164. EXT contexts and RESET have no turn by
default: R164 owes them none, and the listed ones are finitely many (DESIGN CHOICE, log 2). -/
def defaultTurn (s : State) : Result :=
  match firstEnabled s with
  | some h => .next (hardwareStep h s)
  | none => seqTurn s

/-- One step of the machine: the next listed turn, or the default (R48, R164). A hardware turn without an enabled step
passes with no effect (log 4). -/
def takeTurn (s : State) : Result :=
  match s.sched with
  | [] => defaultTurn s
  | .seq :: _ => seqTurn s
  | .osc x :: _ => .next (hardwareStep (.osc x) (passTurn s))
  | .mux :: _ => .next (hardwareStep .mux (passTurn s))
  | .ext c desc data :: _ => present (.bus desc data) { passTurn s with issuer := .ext c }
  | .access c a :: _ => busAccess a { passTurn s with issuer := .ext c }
  | .result :: _ => readResult (passTurn s)
  | .reset :: _ => .next (resetEvent (passTurn s))

/-- Place a packet so that the very next turn presents it: a transaction as the turn of EXT context 0, which is possible at
any time; an operation as the caller's next packet, with SEQ idle and its turn next (log 7, 29). -/
def placePacket (pk : Packet) (s : State) : State :=
  match pk with
  | .bus desc data => { s with sched := .ext 0 desc data :: s.sched }
  | .cmd _ | .text _ =>
    { s with
      seq := { s.seq with busy := false, upc := 0 }
      program := pk :: s.program
      sched := .seq :: s.sched }

end Sys2Proof.Machine
end

