-- ==== Sys2Proof/Machine/Step.lean ====
section
/-! DEFINITION. One step of the machine, and the placing of one instruction for the next step. -/

namespace Sys2Proof.Machine

/-- One step: the next agent's turn (R48, R164). -/
def step (s : State) : Host.Outcome State Fault Refusal := takeTurn s

/-- `s` with the instruction whose bits are `w` placed so that the very next step presents and runs it. -/
def State.withFetchWord (s : State) (nbits w : Nat) : State := placePacket (packetOf nbits w) s

end Sys2Proof.Machine
end

