-- ==== Sys2Proof/Machine/Text.lean ====
section
/-! DEFINITION. The textual syntax of R70 and R71, read as lists of characters: one instruction a line, `;` starts a
comment, operands separated by commas, operands unbounded integers (R72). What R70 leaves open is in log 27. -/

namespace Sys2Proof.Machine.Text

/-- The line without its comment (R70). -/
def dropComment : List Char → List Char
  | [] => []
  | c :: cs => if c = ';' then [] else c :: dropComment cs

/-- The words of a line: blanks separate them, and a comma is a word of its own. `acc` holds the current word
backwards. -/
def words (acc : List Char) : List Char → List (List Char)
  | [] => if acc = [] then [] else [acc.reverse]
  | c :: cs =>
    if c = ' ' ∨ c = '\t' then (if acc = [] then words [] cs else acc.reverse :: words [] cs)
    else if c = ',' then (if acc = [] then [','] :: words [] cs else acc.reverse :: [','] :: words [] cs)
    else words (c :: acc) cs

/-- The value of a hexadecimal digit. -/
def digit (c : Char) : Option Nat :=
  let n := c.toNat
  if 48 ≤ n ∧ n ≤ 57 then some (n - 48)
  else if 65 ≤ n ∧ n ≤ 70 then some (n - 55)
  else if 97 ≤ n ∧ n ≤ 102 then some (n - 87)
  else none

/-- The digits of a number in base `b`, `_` being a visual separator (R6). A word with no digit, of underscores alone, is
read as 0: DESIGN CHOICE, log 27. -/
def digits (b : Nat) (acc : Nat) : List Char → Option Nat
  | [] => some acc
  | c :: cs =>
    if c = '_' then digits b acc cs
    else match digit c with
      | some d => if d < b then digits b (acc * b + d) cs else none
      | none => none

/-- A decimal natural number. -/
def natural (w : List Char) : Option Nat := if w = [] then none else digits 10 0 w

/-- A decimal integer, unbounded in both directions (R70, R72). -/
def integer : List Char → Option Int
  | '-' :: w => (natural w).map fun n => -(n : Int)
  | w => (natural w).map fun n => (n : Int)

/-- A 32-bit word in hexadecimal, `0x....` (R6, R70). -/
def hexWord : List Char → Option Word
  | '0' :: 'x' :: w =>
    match (if w = [] then none else digits 16 0 w) with
    | some n => if n < 2 ^ 32 then some (BitVec.ofNat 32 n) else none
    | none => none
  | _ => none

/-- The characters of a name. -/
def named (s : String) (w : List Char) : Bool := s.toList == w

/-- A source operand: its name, or the enable position itself (R64, R70). -/
def source (L : Layout) (w : List Char) : Option Int :=
  if named "HSI" w then some (L.enPos.get .hsi)
  else if named "HSE" w then some (L.enPos.get .hse)
  else if named "PLL" w then some (L.enPos.get .pll)
  else integer w

/-- A status operand: ON or OFF, or a number (R66, R70). -/
def status (w : List Char) : Option Int :=
  if named "ON" w then some 1 else if named "OFF" w then some 0 else integer w

/-- A target operand: a number or one of the names of R71. -/
def target (w : List Char) : Option Int :=
  if named "INTERNAL" w then some 0
  else if named "EXTERNAL" w then some 1
  else if named "PLL_P" w then some 2
  else if named "PLL_R" w then some 3
  else integer w

/-- The forms with no operand (R70). -/
def bare (w : List Char) : Option Instr :=
  [Instr.rdCr, .rdCfgr, .rdEnrHs1, .rdEnrHs2, .rdEnrHs3, .rdEnrP1, .rdEnrP2, .getsys].find? fun i => named i.mnemonic w

/-- The gate operations, with operand `p` (R70). -/
def gated (p : Int) (w : List Char) : Option Instr :=
  [Instr.enclkHs1 p, .enclkHs2 p, .enclkHs3 p, .enclkP1 p, .enclkP2 p,
   .disclkHs1 p, .disclkHs2 p, .disclkHs3 p, .disclkP1 p, .disclkP2 p].find? fun i => named i.mnemonic w

/-- The writing transactions, with word `d` (R70). -/
def writing (d : Word) (w : List Char) : Option Instr :=
  [Instr.wrCr d, .wrCfgr d, .wrEnrHs1 d, .wrEnrHs2 d, .wrEnrHs3 d, .wrEnrP1 d, .wrEnrP2 d].find? fun i => named i.mnemonic w

/-- The forms with one operand (R70). -/
def unary (L : Layout) (w x : List Char) : Option Instr :=
  if named "SETBYP" w then (integer x).map .setbyp
  else if named "GETCLK" w then (source L x).map .getclk
  else if named "SETSYS" w then (target x).map .setsys
  else match hexWord x with
    | some d => writing d w
    | none => (integer x).bind fun p => gated p w

/-- One line: the instruction it holds, or none (R70). -/
def line (L : Layout) (cs : List Char) : Option Instr :=
  match words [] (dropComment cs) with
  | [w] => bare w
  | [w, x] => unary L w x
  | [w, x, [','], y] =>
    if named "SETCLK" w then (source L x).bind fun k => (status y).map fun st => .setclk k st else none
  | _ => none

end Sys2Proof.Machine.Text
end

