-- ==== Sys2Proof/Safety.lean ====
section
/-! DEFINITION. The terms claims are stated in: the invariant of the machine, runs without interference, and the
states of a waiting operation. -/

namespace Sys2Proof.Machine

/-- The index of an operation's last primitive, its `return` (R27). -/
def lastUpc : Op → Nat
  | .enclk | .disclk | .setbyp | .setclk => 3
  | .getclk | .getsys => 1
  | .setsys => 6

/-- The parameters fit each other and the register memory is in its canonical form (R10, R12). -/
abbrev State.wf (s : State) : Prop := paramsWf s.params = true ∧ s.mem.wf s.params = true

/-- What holds at reset and is kept by every step: the parameters fit each other; the register memory is in its
canonical form (R10, R12); with immediate clearing a ready source is enabled (R23); with immediate following MUX has
nothing left to do (R163); `upc` is an index of the operation in progress, and 0 while SEQ is idle (R27); the latched
source is one of the implementation's (R26, R64); the contexts' latches are in their canonical form. -/
structure MachineInv (s : State) : Prop where
  params : paramsWf s.params = true
  mem : s.mem.wf s.params = true
  ready : s.params.readyClear = .immediate → ∀ x, s.mem.rdy.get x = true → s.mem.en.get x = true
  follow : s.params.swsFollow = .immediate → muxEnabled s.params s.mem = false
  upc : s.seq.upc ≤ if s.seq.busy then lastUpc s.seq.op else 0
  src : s.seq.src ∈ s.params.layout.sources
  latches : s.latches.wf = true

/-- No other agent has one of the next `n` turns: each of them is SEQ's, or no turn is listed any more. It is the
premise by which a claim rules interference out (R53, R165). -/
def Undisturbed (n : Nat) (s : State) : Prop := ∀ x ∈ s.sched.take n, x = Turn.seq

/-- The source operand that names `x`: its enable position (R64). -/
abbrev clockOperand (s : State) (x : Source) : Int := ((s.params.layout.enPos.get x : Nat) : Int)

/-- SEQ is in the poll loop of `SETCLK x, ON` (R121, R123). -/
def Polling (x : Source) (s : State) : Prop :=
  s.seq.busy = true ∧ s.seq.op = .setclk ∧ s.seq.flag = true ∧ s.seq.src = x ∧ s.seq.upc = 2

/-- SEQ is about to take primitive `k` of operation `op`, and agent `x` has the turn after it: the primitive is a step
of its own, with whatever has happened before it (R27, R50). -/
def AtPrimitive (op : Op) (k : Nat) (x : Turn) (rest : List Turn) (s : State) : Prop :=
  s.seq.busy = true ∧ s.seq.op = op ∧ s.seq.upc = k ∧ s.sched = .seq :: x :: rest ∧ x ≠ .seq

/-- The bus write that SEQ's next primitive issues, its register and its word, or none if the next primitive is a read,
a poll read or a return (R100 to R109, R120, R121, R140; the numbering of the primitives is log 6). -/
def nextStore (s : State) : Option (Reg × Word) :=
  match s.seq.op, s.seq.upc with
  | .enclk, 1 => some (.enr s.seq.g, s.seq.t ||| ((1 : Word) <<< s.seq.p.toNat))
  | .disclk, 1 => some (.enr s.seq.g, s.seq.t &&& ~~~((1 : Word) <<< s.seq.p.toNat))
  | .setbyp, 1 => some (.cr,
      if s.seq.flag then s.seq.t ||| ((1 : Word) <<< s.params.layout.bypPos)
      else s.seq.t &&& ~~~((1 : Word) <<< s.params.layout.bypPos))
  | .setclk, 1 => some (.cr,
      if s.seq.flag then s.seq.t ||| ((1 : Word) <<< s.params.layout.enPos.get s.seq.src)
      else s.seq.t &&& ~~~((1 : Word) <<< s.params.layout.enPos.get s.seq.src))
  | .setsys, 2 => some (.cfgr, s.seq.t &&& ~~~((3 : Word) <<< s.params.layout.swPos))
  | .setsys, 4 => some (.cfgr, s.seq.t ||| (s.seq.target.setWidth 32 <<< s.params.layout.swPos))
  | _, _ => none

/-- The sequencer after `return v`: idle, `upc` dropped, RES written (R7, R27, R28). -/
def Returned (v : Word) (q : SeqState) : Prop := q.busy = false ∧ q.upc = 0 ∧ q.res = v ∧ q.resDefined = true

/-- Byte address `a` is one of the four bytes of register `r` (R40, R43). -/
def InReg (L : Layout) (r : Reg) (a : Word) : Prop := ∃ k : BitVec 2, a = regAddr L r + k.setWidth 32

/-- A run is over when SEQ is idle with nothing left to present, and no hardware agent has an enabled step (R8). -/
def Over (s : State) : Prop := s.seq.busy = false ∧ s.program = [] ∧ firstEnabled s = none

end Sys2Proof.Machine
end

