-- ==== Sys2Proof/Certificates/Slice0/Obligations.lean ====
section
/-! DEFINITION. The statements about the machine, from the spec's numbered rules. Rule numbers in the docstrings are
those of spec/. -/

open Sys2Proof Sys2Proof.Machine

/-! Encoding and decoding. -/

/-- Under every layout, decoding the words of any well-formed instruction gives it back, with every operand (R61 to
R68). -/
def Obligations.DecodeOfEncodeIsTheInstruction : Prop :=
  ∀ (L : Layout) (i : Instr), L.ok = true → Instr.wellFormed L i = true → decode L (encode L i) = .ok i

/-- Under every layout a word the decoder accepts is the encoding of what it gives: no two words mean the same
instruction (R61, R62). A read's data word is written as 0: DESIGN CHOICE, log 21. -/
def Obligations.EncodeOfDecodeIsTheWord : Prop := ∀ L : Layout,
  (∀ (w : Word) (i : Instr), decodeCmd L w = .ok i → encode L i = .cmd w) ∧
  (∀ (desc : BitVec 16) (d : Word) (i : Instr), decodeBus L desc d = .ok i →
    encode L i = .bus desc (if desc.getLsbD 15 then d else 0))

/-- The decoder accepts exactly what the table of R68 matches, less SETCLK and GETCLK with a `src` that names no
source, and as the instruction of the matching row; everything else is refused before any transaction (R69). Under the
default layout the descriptors and the positions are those the table and R64 print. -/
def Obligations.ReservedExactlyOutsideTheTable : Prop :=
  (∀ (L : Layout) (w : Word), (∃ i, decodeCmd L w = .ok i) ↔
    ∃ r, cmdRowOf w = some r ∧ (r.mnemonic = "SETCLK" ∨ r.mnemonic = "GETCLK" →
      ∃ x ∈ L.sources, (w.extractLsb' 8 5).toNat = L.enPos.get x)) ∧
  (∀ (L : Layout) (w : Word) (i : Instr), decodeCmd L w = .ok i → ∃ r, cmdRowOf w = some r ∧ r.mnemonic = i.mnemonic) ∧
  (∀ (L : Layout) (desc : BitVec 16) (d : Word), (∃ i, decodeBus L desc d = .ok i) ↔ ∃ m, (m, desc) ∈ busRowsOf L) ∧
  (∀ (L : Layout) (desc : BitVec 16) (d : Word) (i : Instr), decodeBus L desc d = .ok i →
    (i.mnemonic, desc) ∈ busRowsOf L) ∧
  busRowsOf Config.layout = busRows ∧
  (∀ k : Nat, (∃ x ∈ Config.layout.sources, k = Config.layout.enPos.get x) ↔ k = 0 ∨ k = 16 ∨ k = 24) ∧
  (∀ (pk : Packet) (e : Reserved) (s : State), decode s.params.layout pk = .error e →
    present pk s = .refused (.reservedEncoding e))

/-- The worked encodings of R73, under the default layout, read from their text and decoded from their words. -/
def Obligations.WorkedEncodings : Prop :=
  (Text.line Config.layout "ENCLK.P1 17".toList = some (.enclkP1 17) ∧
    decode Config.layout (.cmd 0x13000011) = .ok (.enclkP1 17)) ∧
  (Text.line Config.layout "DISCLK.HS1 0".toList = some (.disclkHs1 0) ∧
    decode Config.layout (.cmd 0x18000000) = .ok (.disclkHs1 0)) ∧
  (Text.line Config.layout "SETBYP 1".toList = some (.setbyp 1) ∧
    decode Config.layout (.cmd 0x20000001) = .ok (.setbyp 1)) ∧
  (Text.line Config.layout "SETCLK HSE, ON".toList = some (.setclk 16 1) ∧
    decode Config.layout (.cmd 0x21001001) = .ok (.setclk 16 1)) ∧
  (Text.line Config.layout "SETCLK PLL, ON".toList = some (.setclk 24 1) ∧
    decode Config.layout (.cmd 0x21001801) = .ok (.setclk 24 1)) ∧
  (Text.line Config.layout "SETCLK HSI, OFF".toList = some (.setclk 0 0) ∧
    decode Config.layout (.cmd 0x21000000) = .ok (.setclk 0 0)) ∧
  (Text.line Config.layout "GETCLK HSE".toList = some (.getclk 16) ∧
    decode Config.layout (.cmd 0x22001000) = .ok (.getclk 16)) ∧
  (Text.line Config.layout "SETSYS 2".toList = some (.setsys 2) ∧
    decode Config.layout (.cmd 0x23000002) = .ok (.setsys 2)) ∧
  (Text.line Config.layout "GETSYS".toList = some .getsys ∧ decode Config.layout (.cmd 0x24000000) = .ok .getsys) ∧
  (Text.line Config.layout "RD.CR".toList = some .rdCr ∧ decode Config.layout (.bus 0x0000 0) = .ok .rdCr) ∧
  (Text.line Config.layout "WR.ENR_P2 0x0000_4000".toList = some (.wrEnrP2 0x4000) ∧
    decode Config.layout (.bus 0x8044 0x4000) = .ok (.wrEnrP2 0x4000))

/-- Textual operands outside the encodable range (R72): refused, and a target outside 0 to 3 returns the sentinel with
no register access at all. Which refusal is named where several apply, SEQ being busy among them, is the model's
choice, log 32. -/
def Obligations.TextualOperandsOutOfRange : Prop :=
  (∀ (g : BusGroup) (p : Int) (s : State), p < 0 ∨ 31 < p →
    exec ((Opc.enclk g).instr 0 p) s = .refused .peripheralOutOfRange ∧
    exec ((Opc.disclk g).instr 0 p) s = .refused .peripheralOutOfRange) ∧
  (∀ (k b : Int) (s : State), (∀ x ∈ s.params.layout.sources, k ≠ clockOperand s x) →
    exec (.setclk k b) s = .refused .unknownSource ∧ exec (.getclk k) s = .refused .unknownSource) ∧
  (∀ (b : Int) (s : State), b ≠ 0 → b ≠ 1 → exec (.setbyp b) s = .refused .badBoolean ∧
    ∀ x ∈ s.params.layout.sources, exec (.setclk (clockOperand s x) b) s = .refused .badBoolean) ∧
  (∀ (v : Int) (s : State), v < 0 ∨ 3 < v → s.seq.busy = false →
    ∃ q, exec (.setsys v) s = .next { s with seq := q } ∧ Returned 0xFFFFFFFF q)

/-! Raw transactions. -/

/-- `RD.CR` (R90): it changes nothing of the block, and yields every enable, ready and bypass bit at its position and
the unassigned bits at theirs. That the word goes to the latch of the context that has the port is the model's choice,
log 12 and 30; the default mask of unassigned bits is R14's, of the default positions, log 15. -/
def Obligations.ReadOfControlRegister : Prop :=
  encode Config.layout .rdCr = .bus 0x0000 0 ∧ Config.layout.crOtherMask = 0xFCF8FFFC ∧
  ∀ s : State, s.wf →
    ∃ w, exec .rdCr s = .next { s with latches := s.latches.set s.issuer w } ∧
      (∀ x ∈ s.params.layout.sources, w.getLsbD (s.params.layout.enPos.get x) = s.mem.en.get x ∧
        w.getLsbD (s.params.layout.enPos.get x + 1) = s.mem.rdy.get x) ∧
      w.getLsbD s.params.layout.bypPos = s.mem.byp ∧ w &&& s.params.layout.crOtherMask = s.mem.crOther

/-- `RD.CFGR` (R92): it changes nothing of the block, and yields the selector, the status field and the unassigned
bits. That the word goes to the latch of the context that has the port is the model's choice, log 12 and 30; the
default mask of unassigned bits is R19's, of the default positions, log 15. -/
def Obligations.ReadOfConfigurationRegister : Prop :=
  encode Config.layout .rdCfgr = .bus 0x0008 0 ∧ Config.layout.cfgrOtherMask = 0xFFFFFFF0 ∧
  ∀ s : State, s.wf →
    ∃ w, exec .rdCfgr s = .next { s with latches := s.latches.set s.issuer w } ∧
      w.extractLsb' s.params.layout.swPos 2 = s.mem.sw ∧ w.extractLsb' s.params.layout.swsPos 2 = s.mem.sws ∧
      w &&& s.params.layout.cfgrOtherMask = s.mem.cfgrOther

/-- `RD.ENR_HS1`, `RD.ENR_HS2`, `RD.ENR_HS3`, `RD.ENR_P1`, `RD.ENR_P2` (R80, R82, R84, R86, R88). That the word goes to
the latch of the context that has the port is the model's choice, log 12 and 30. -/
def Obligations.ReadOfEnableRegister : Prop :=
  (encode Config.layout .rdEnrHs1 = .bus 0x0030 0 ∧ encode Config.layout .rdEnrHs2 = .bus 0x0034 0 ∧
    encode Config.layout .rdEnrHs3 = .bus 0x0038 0 ∧ encode Config.layout .rdEnrP1 = .bus 0x0040 0 ∧
    encode Config.layout .rdEnrP2 = .bus 0x0044 0) ∧
  ∀ (g : BusGroup) (s : State),
    exec (readOf (.enr g)) s =
      .next { s with latches := s.latches.set s.issuer (s.mem.enr.get g &&& s.params.enrImpl.get g) }

/-- `WR.ENR_HS1`, `WR.ENR_HS2`, `WR.ENR_HS3`, `WR.ENR_P1`, `WR.ENR_P2` (R81, R83, R85, R87, R89): the implemented bits
are replaced, the gate outputs follow, and no other register and no other byte changes. -/
def Obligations.EnableRegisterWrite : Prop :=
  (∀ d : Word, encode Config.layout (.wrEnrHs1 d) = .bus 0x8030 d ∧
    encode Config.layout (.wrEnrHs2 d) = .bus 0x8034 d ∧ encode Config.layout (.wrEnrHs3 d) = .bus 0x8038 d ∧
    encode Config.layout (.wrEnrP1 d) = .bus 0x8040 d ∧ encode Config.layout (.wrEnrP2 d) = .bus 0x8044 d) ∧
  ∀ (g : BusGroup) (d : Word) (s : State), s.params.layout.ok = true →
    ∃ e, exec (writeOf d (.enr g)) s = .next { s with mem := { s.mem with enr := e } } ∧
      e.get g = d &&& s.params.enrImpl.get g ∧ (∀ h, h ≠ g → e.get h = s.mem.enr.get h) ∧
      (∀ p, gate g p { s with mem := { s.mem with enr := e } } = (d.getLsbD p && (s.params.enrImpl.get g).getLsbD p)) ∧
      ∀ a, ¬ InReg s.params.layout (.enr g) a → byteAt a { s with mem := { s.mem with enr := e } } = byteAt a s

/-- `WR.CR` (R91): enable bits, ready bits of disabled sources, bypass bit, unassigned bits; bits written at ready
positions ignored; nothing else changes; with the policy `refuse` a disable of a selected source is refused. -/
def Obligations.ControlRegisterWrite : Prop :=
  (∀ d : Word, encode Config.layout (.wrCr d) = .bus 0x8000 d) ∧
  ∀ (d : Word) (s : State), s.params.layout.ok = true →
    ((s.params.disableSelected = .refuse ∧ ∃ x ∈ s.params.layout.sources, s.mem.en.get x = true ∧
        d.getLsbD (s.params.layout.enPos.get x) = false ∧
        (s.params.selDep.get s.mem.sw = x ∨ s.params.selDep.get s.mem.sws = x)) →
      exec (.wrCr d) s = .refused .disableOfSelectedSource) ∧
    (¬ (s.params.disableSelected = .refuse ∧ ∃ x ∈ s.params.layout.sources, s.mem.en.get x = true ∧
        d.getLsbD (s.params.layout.enPos.get x) = false ∧
        (s.params.selDep.get s.mem.sw = x ∨ s.params.selDep.get s.mem.sws = x)) →
      ∃ e r b o, exec (.wrCr d) s = .next { s with mem := { s.mem with en := e, rdy := r, byp := b, crOther := o } } ∧
        (∀ x ∈ s.params.layout.sources, e.get x = d.getLsbD (s.params.layout.enPos.get x)) ∧
        (∀ x ∈ s.params.layout.sources, r.get x =
          if d.getLsbD (s.params.layout.enPos.get x) = false ∧ s.params.readyClear = .immediate then false
          else s.mem.rdy.get x) ∧
        e.extra.length = s.params.layout.enPos.extra.length ∧ r.extra.length = s.params.layout.enPos.extra.length ∧
        b = (if s.params.bypLock = true ∧ s.mem.en.get .hse = true then s.mem.byp
          else d.getLsbD s.params.layout.bypPos) ∧
        o = d &&& s.params.layout.crOtherMask ∧
        ∀ a, ¬ InReg s.params.layout .cr a →
          byteAt a { s with mem := { s.mem with en := e, rdy := r, byp := b, crOther := o } } = byteAt a s)

/-- `WR.CFGR` (R93): the selector field and the unassigned bits; bits written at the status positions ignored; with
`SWS_FOLLOW = immediate` the status field follows at once if the source is ready; nothing else changes. -/
def Obligations.ConfigurationRegisterWrite : Prop :=
  (∀ d : Word, encode Config.layout (.wrCfgr d) = .bus 0x8008 d) ∧
  ∀ (d : Word) (s : State), s.params.layout.ok = true →
    ∃ v f o, exec (.wrCfgr d) s = .next { s with mem := { s.mem with sw := v, sws := f, cfgrOther := o } } ∧
      v = d.extractLsb' s.params.layout.swPos 2 ∧ o = d &&& s.params.layout.cfgrOtherMask ∧
      f = (if s.params.swsFollow = .immediate ∧ s.mem.rdy.get (s.params.selDep.get v) = true then v else s.mem.sws) ∧
      ∀ a, ¬ InReg s.params.layout .cfgr a →
        byteAt a { s with mem := { s.mem with sw := v, sws := f, cfgrOther := o } } = byteAt a s

/-- The effects of a write, seen by a read of the register after it, and no others (R47): an enable register stores the
implemented bits; CR stores every bit but those at ready positions, the bypass bit subject to `BYP_LOCK`, and clears
the ready bits of the sources it leaves disabled when clearing is immediate; CFGR stores every bit but those at the
status positions, and the status field follows at the same instant with `SWS_FOLLOW = immediate`; every other register
reads as before. Writing to a register the value it holds changes nothing, and is never refused. -/
def Obligations.WritingBackChangesNothing : Prop :=
  (∀ (r : Reg) (s : State), MachineInv s → exec (writeOf (readReg r s) r) s = .next s) ∧
  (∀ (r : Reg) (d : Word) (s t : State), exec (writeOf d r) s = .next t →
    t = { s with mem := t.mem } ∧ ∀ r', r' ≠ r → readReg r' t = readReg r' s) ∧
  (∀ (g : BusGroup) (d : Word) (s t : State), exec (writeOf d (.enr g)) s = .next t →
    readReg (.enr g) t = d &&& s.params.enrImpl.get g) ∧
  (∀ (d : Word) (s t : State), s.wf → exec (.wrCr d) s = .next t →
    (∀ k < 32, (∀ x ∈ s.params.layout.sources, k ≠ s.params.layout.enPos.get x + 1) →
      (k = s.params.layout.bypPos → s.params.bypLock = false ∨ s.mem.en.get .hse = false) →
      (readReg .cr t).getLsbD k = d.getLsbD k) ∧
    (s.params.bypLock = true → s.mem.en.get .hse = true →
      (readReg .cr t).getLsbD s.params.layout.bypPos = (readReg .cr s).getLsbD s.params.layout.bypPos) ∧
    (∀ x ∈ s.params.layout.sources, (readReg .cr t).getLsbD (s.params.layout.enPos.get x + 1) =
      if d.getLsbD (s.params.layout.enPos.get x) = false ∧ s.params.readyClear = .immediate then false
      else (readReg .cr s).getLsbD (s.params.layout.enPos.get x + 1))) ∧
  (∀ (d : Word) (s t : State), s.wf → exec (.wrCfgr d) s = .next t →
    (∀ k < 32, k ≠ s.params.layout.swsPos → k ≠ s.params.layout.swsPos + 1 →
      (readReg .cfgr t).getLsbD k = d.getLsbD k) ∧
    (readReg .cfgr t).extractLsb' s.params.layout.swsPos 2 =
      if s.params.swsFollow = .immediate ∧
        s.mem.rdy.get (s.params.selDep.get (d.extractLsb' s.params.layout.swPos 2)) = true
      then d.extractLsb' s.params.layout.swPos 2 else (readReg .cfgr s).extractLsb' s.params.layout.swsPos 2)

/-- An access by address is the transaction of the register that stands there when it is 4 bytes wide, and is refused
otherwise: at any other width, at an address that is not a multiple of 4, at an aligned offset of the window where no
register stands, and outside the window of 256 bytes from `BASE` (R40, R41, R42, R44). Which bytes beyond the seven
registers make up the window, that an access outside it is refused, and the order of the checks, are the model's
choice: log 19. -/
def Obligations.AccessReachesExactlyTheRegisters : Prop :=
  (∀ (r : Reg) (a : Access) (s : State), s.params.layout.ok = true → a.addr = regAddr s.params.layout r → a.width = 4 →
    busAccess a s = exec (if a.write then writeOf a.data r else readOf r) s) ∧
  (∀ (a : Access) (s : State), a.width ≠ 4 → busAccess a s = .refused .accessWidth) ∧
  (∀ (a : Access) (s : State), a.width = 4 → a.addr.toNat % 4 ≠ 0 → busAccess a s = .refused .misalignedAddress) ∧
  (∀ (a : Access) (s : State), a.width = 4 → a.addr.toNat % 4 = 0 → (a.addr - s.params.layout.base).toNat < 256 →
    (∀ r, a.addr ≠ regAddr s.params.layout r) → busAccess a s = .refused .unmappedOffset) ∧
  (∀ (a : Access) (s : State), a.width = 4 → a.addr.toNat % 4 = 0 → 256 ≤ (a.addr - s.params.layout.base).toNat →
    busAccess a s = .refused .outsideWindow) ∧
  (∀ a : Word, (a - Config.layout.base).toNat < 256 ↔ 0x40023800 ≤ a.toNat ∧ a.toNat ≤ 0x400238FF)

/-- The turn of an EXT context leaves RES, SEQ's latches, SEQ's control state, the parameters, the caller's program
and every other context's latch as they are; its own latch takes the register it reads, and is kept by a write
(R165, R191). That contexts bear numbers, and that the port's holder is a field, is log 12 and log 30. -/
def Obligations.ExternalContextCannotTouchTheSequencer : Prop :=
  ∀ (s t : State) (c : Nat) (x : Turn), MachineInv s → ((∃ desc d, x = .ext c desc d) ∨ ∃ a, x = .access c a) →
    s.sched.head? = some x → step s = .next t →
    t.seq = s.seq ∧ t.params = s.params ∧ t.program = s.program ∧ t.sched = s.sched.tail ∧ t.issuer = .ext c ∧
    (∀ c', c' ≠ .ext c → t.latches.get c' = s.latches.get c') ∧
    (∀ r d, x = .ext c (descriptor s.params.layout false r) d → t.latches.get (.ext c) = readReg r s) ∧
    (∀ r d, x = .ext c (descriptor s.params.layout true r) d → t.latches = s.latches) ∧
    (∀ r a, x = .access c a → a.addr = regAddr s.params.layout r → a.width = 4 →
      if a.write then t.latches = s.latches else t.latches.get (.ext c) = readReg r s)

/-! PeripheralClockGate. -/

/-- The ten gate operations, primitive by primitive, whatever other agents do between any two of them (R100 to R109):
encoding, acceptance with the operands latched, read, write, read-back, return. The split into three transactions is
the spec's decision D23; the numbering and merging of the primitives is the model's, log 5 and 6. -/
def Obligations.GateOperationsFollowTheirPseudocode : Prop :=
  (∀ (L : Layout) (p : Int), 0 ≤ p → p ≤ 31 →
    encode L (.enclkHs1 p) = .cmd (0x10000000 + BitVec.ofInt 32 p) ∧
    encode L (.enclkHs2 p) = .cmd (0x11000000 + BitVec.ofInt 32 p) ∧
    encode L (.enclkHs3 p) = .cmd (0x12000000 + BitVec.ofInt 32 p) ∧
    encode L (.enclkP1 p) = .cmd (0x13000000 + BitVec.ofInt 32 p) ∧
    encode L (.enclkP2 p) = .cmd (0x14000000 + BitVec.ofInt 32 p) ∧
    encode L (.disclkHs1 p) = .cmd (0x18000000 + BitVec.ofInt 32 p) ∧
    encode L (.disclkHs2 p) = .cmd (0x19000000 + BitVec.ofInt 32 p) ∧
    encode L (.disclkHs3 p) = .cmd (0x1A000000 + BitVec.ofInt 32 p) ∧
    encode L (.disclkP1 p) = .cmd (0x1B000000 + BitVec.ofInt 32 p) ∧
    encode L (.disclkP2 p) = .cmd (0x1C000000 + BitVec.ofInt 32 p)) ∧
  (∀ (g : BusGroup) (p : Int) (s : State) (x : Turn) (rest : List Turn), 0 ≤ p → p ≤ 31 → s.seq.busy = false →
    s.sched = x :: rest → x ≠ .seq →
    (∃ q, exec ((Opc.enclk g).instr 0 p) s = .next { s with seq := q } ∧ q.busy = true ∧ q.op = .enclk ∧ q.upc = 0 ∧
      q.g = g ∧ (q.p.toNat : Int) = p ∧ q.res = s.seq.res) ∧
    (∃ q, exec ((Opc.disclk g).instr 0 p) s = .next { s with seq := q } ∧ q.busy = true ∧ q.op = .disclk ∧ q.upc = 0 ∧
      q.g = g ∧ (q.p.toNat : Int) = p ∧ q.res = s.seq.res)) ∧
  (∀ (o : Op) (s : State) (x : Turn) (rest : List Turn), o = .enclk ∨ o = .disclk →
    (AtPrimitive o 0 x rest s →
      step s = .next { s with seq := { s.seq with t := readReg (.enr s.seq.g) s, upc := 1 }, sched := x :: rest }) ∧
    (AtPrimitive o 1 x rest s → ∃ e,
      step s = .next { s with
        mem := { s.mem with enr := s.mem.enr.set s.seq.g (e &&& s.params.enrImpl.get s.seq.g) }
        seq := { s.seq with upc := 2 }, sched := x :: rest } ∧
      (o = .enclk → e = s.seq.t ||| ((1 : Word) <<< s.seq.p.toNat)) ∧
      (o = .disclk → e = s.seq.t &&& ~~~((1 : Word) <<< s.seq.p.toNat))) ∧
    (AtPrimitive o 2 x rest s →
      step s = .next { s with seq := { s.seq with u := readReg (.enr s.seq.g) s, upc := 3 }, sched := x :: rest }) ∧
    (AtPrimitive o 3 x rest s → ∃ q, step s = .next { s with seq := q, sched := x :: rest } ∧
      (o = .enclk → Returned (if s.seq.u.getLsbD s.seq.p.toNat = true then 1 else 0) q) ∧
      (o = .disclk → Returned (if s.seq.u.getLsbD s.seq.p.toNat = false then 1 else 0) q)))

/-- `ENCLK.HS1`, `ENCLK.HS2`, `ENCLK.HS3`, `ENCLK.P1`, `ENCLK.P2` (R100 to R104) without interference: the bit is set
if it is implemented, the result is the bit read back, and nothing else changes. -/
def Obligations.EnableClockSetsItsBit : Prop :=
  ∀ (g : BusGroup) (p : Int) (s : State), 0 ≤ p → p ≤ 31 → s.seq.busy = false → Undisturbed 4 s →
    ∃ e q, exec ((Opc.enclk g).instr 0 p) s =
        .next { s with mem := { s.mem with enr := s.mem.enr.set g e }, seq := q, sched := s.sched.drop 4 } ∧
      e = (readReg (.enr g) s ||| ((1 : Word) <<< p.toNat)) &&& s.params.enrImpl.get g ∧
      Returned (if e.getLsbD p.toNat then 1 else 0) q

/-- `DISCLK.HS1`, `DISCLK.HS2`, `DISCLK.HS3`, `DISCLK.P1`, `DISCLK.P2` (R105 to R109) without interference: the bit is
cleared, the result is true, and nothing else changes. -/
def Obligations.DisableClockClearsItsBit : Prop :=
  ∀ (g : BusGroup) (p : Int) (s : State), 0 ≤ p → p ≤ 31 → s.seq.busy = false → Undisturbed 4 s →
    ∃ e q, exec ((Opc.disclk g).instr 0 p) s =
        .next { s with mem := { s.mem with enr := s.mem.enr.set g e }, seq := q, sched := s.sched.drop 4 } ∧
      e = readReg (.enr g) s &&& ~~~((1 : Word) <<< p.toNat) ∧ e.getLsbD p.toNat = false ∧ Returned 1 q

/-- The frame of the ten gate operations, however far they run before another agent's turn (R111): no register but
their group's changes, no bit of it but bit p reads differently, and no byte outside it. -/
def Obligations.GateOperationsTouchOneBit : Prop :=
  ∀ (o : Opc) (g : BusGroup) (p : Int) (s t : State), s.params.layout.ok = true →
    o = .enclk g ∨ o = .disclk g → exec (o.instr 0 p) s = .next t →
    t = { s with mem := { s.mem with enr := t.mem.enr }, seq := t.seq, sched := t.sched } ∧
    (∀ h, h ≠ g → t.mem.enr.get h = s.mem.enr.get h) ∧
    (∀ k : Nat, (k : Int) ≠ p → (readReg (.enr g) t).getLsbD k = (readReg (.enr g) s).getLsbD k) ∧
    ∀ a, ¬ InReg s.params.layout (.enr g) a → byteAt a t = byteAt a s

/-- A repeated gate operation stores the same word and returns true where its bit is implemented (R110). -/
def Obligations.GateOperationsAreIdempotent : Prop :=
  ∀ (o : Opc) (g : BusGroup) (p : Int) (s : State), o = .enclk g ∨ o = .disclk g → 0 ≤ p → p ≤ 31 → s.seq.busy = false →
    Undisturbed 8 s → (s.params.enrImpl.get g).getLsbD p.toNat = true →
    ∃ t u, exec (o.instr 0 p) s = .next t ∧ exec (o.instr 0 p) t = .next u ∧ u.mem = t.mem ∧
      t.seq.res = 1 ∧ u.seq.res = 1 ∧ u.seq.busy = false ∧ u.sched = s.sched.drop 8

/-- A gate operation that another agent's turn has interrupted after its read writes back what it read, whatever the
register holds by then: the other agent's change is lost, and no error is reported (R50, R204). -/
def Obligations.InterruptedGateOperationLosesTheUpdate : Prop :=
  ∀ (s : State) (rest : List Turn), s.seq.busy = true → s.seq.upc = 1 → s.sched = .seq :: .seq :: .seq :: rest →
    (s.seq.op = .enclk → (s.params.enrImpl.get s.seq.g).getLsbD s.seq.p.toNat = true →
      ∃ e q, step s = .next { s with mem := { s.mem with enr := s.mem.enr.set s.seq.g e }, seq := q, sched := rest } ∧
        e = (s.seq.t ||| ((1 : Word) <<< s.seq.p.toNat)) &&& s.params.enrImpl.get s.seq.g ∧ Returned 1 q) ∧
    (s.seq.op = .disclk →
      ∃ e q, step s = .next { s with mem := { s.mem with enr := s.mem.enr.set s.seq.g e }, seq := q, sched := rest } ∧
        e = (s.seq.t &&& ~~~((1 : Word) <<< s.seq.p.toNat)) &&& s.params.enrImpl.get s.seq.g ∧ Returned 1 q)

/-- An operation with a read-back reports what the register holds at the read-back, and changes nothing more: false
exactly when the bit is not at the requested value (R112, R120, R181, R182). -/
def Obligations.MismatchIsReportedAsFalse : Prop :=
  ∀ (s : State) (rest : List Turn), s.wf → s.seq.busy = true → s.seq.upc = 2 →
    s.sched = .seq :: .seq :: rest →
    (s.seq.op = .enclk → ∃ q, step s = .next { s with seq := q, sched := rest } ∧
      Returned (if gate s.seq.g s.seq.p.toNat s then 1 else 0) q) ∧
    (s.seq.op = .disclk → ∃ q, step s = .next { s with seq := q, sched := rest } ∧
      Returned (if gate s.seq.g s.seq.p.toNat s then 0 else 1) q) ∧
    (s.seq.op = .setbyp → ∃ q, step s = .next { s with seq := q, sched := rest } ∧
      Returned (if s.mem.byp = s.seq.flag then 1 else 0) q)

/-! ClockSourceController, the oscillator operations. -/

/-- SETBYP, SETCLK and GETCLK, primitive by primitive, whatever other agents do between any two of them (R120, R121,
R122): encoding, acceptance with the operands latched, the transactions, the poll, the return. A write of CR has the
effects of the transaction WR.CR and is refused where that is (log 23). The split into transactions is the spec's
decision D23; the numbering and merging of the primitives is the model's, log 5 and 6. -/
def Obligations.OscillatorOperationsFollowTheirPseudocode : Prop :=
  (∀ (L : Layout) (k : Int), L.ok = true → k = 1 ∨ k = 0 →
    encode L (.setbyp k) = .cmd (0x20000000 + BitVec.ofInt 32 k) ∧
    ∀ y ∈ L.sources, ∀ n : Nat, n = L.enPos.get y →
      encode L (.setclk n k) = .cmd (0x21000000 + ((BitVec.ofNat 32 n) <<< 8) + BitVec.ofInt 32 k) ∧
      encode L (.getclk n) = .cmd (0x22000000 + ((BitVec.ofNat 32 n) <<< 8))) ∧
  (∀ (k : Int) (b : Bool) (y : Source) (s : State) (x : Turn) (rest : List Turn),
    (k = 1 ∧ b = true) ∨ (k = 0 ∧ b = false) →
    s.params.layout.ok = true → y ∈ s.params.layout.sources → s.seq.busy = false → s.sched = x :: rest → x ≠ .seq →
    (∃ q, exec (.setbyp k) s = .next { s with seq := q } ∧ q.busy = true ∧ q.op = .setbyp ∧ q.upc = 0 ∧ q.flag = b ∧
      q.res = s.seq.res) ∧
    (∃ q, exec (.setclk (clockOperand s y) k) s = .next { s with seq := q } ∧ q.busy = true ∧ q.op = .setclk ∧
      q.upc = 0 ∧
      q.flag = b ∧ q.src = y ∧ q.res = s.seq.res) ∧
    (∃ q, exec (.getclk (clockOperand s y)) s = .next { s with seq := q } ∧ q.busy = true ∧ q.op = .getclk ∧ q.upc = 0 ∧
      q.src = y ∧ q.res = s.seq.res)) ∧
  (∀ (s : State) (x : Turn) (rest : List Turn),
    (AtPrimitive .setbyp 0 x rest s ∨ AtPrimitive .setclk 0 x rest s →
      step s = .next { s with seq := { s.seq with t := readReg .cr s, upc := 1 }, sched := x :: rest }) ∧
    (∀ k : Nat, (AtPrimitive .setbyp 1 x rest s ∧ k = s.params.layout.bypPos) ∨
        (AtPrimitive .setclk 1 x rest s ∧ k = s.params.layout.enPos.get s.seq.src) →
      ∀ d : Word, d = (if s.seq.flag = true then s.seq.t ||| ((1 : Word) <<< k) else s.seq.t &&& ~~~((1 : Word) <<< k)) →
        (∀ m, exec (.wrCr d) s = .next m →
          step s = .next { m with seq := { s.seq with upc := 2 }, sched := x :: rest }) ∧
        (∀ e, exec (.wrCr d) s = .refused e → step s = .refused e)) ∧
    (AtPrimitive .setbyp 2 x rest s →
      step s = .next { s with seq := { s.seq with u := readReg .cr s, upc := 3 }, sched := x :: rest }) ∧
    (AtPrimitive .setbyp 3 x rest s → ∃ q, step s = .next { s with seq := q, sched := x :: rest } ∧
      Returned (if s.seq.u.getLsbD s.params.layout.bypPos = s.seq.flag then 1 else 0) q) ∧
    (AtPrimitive .setclk 2 x rest s → s.seq.flag = true →
      step s = .next { s with
        seq := { s.seq with
          u := readReg .cr s
          upc := if (readReg .cr s).getLsbD (s.params.layout.enPos.get s.seq.src + 1) = true then 3 else 2 }
        sched := x :: rest }) ∧
    ((AtPrimitive .setclk 2 x rest s ∧ s.seq.flag = false) ∨ AtPrimitive .setclk 3 x rest s →
      ∃ q, step s = .next { s with seq := q, sched := x :: rest } ∧ Returned 1 q) ∧
    (AtPrimitive .getclk 0 x rest s →
      step s = .next { s with seq := { s.seq with u := readReg .cr s, upc := 1 }, sched := x :: rest }) ∧
    (AtPrimitive .getclk 1 x rest s → ∃ q, step s = .next { s with seq := q, sched := x :: rest } ∧
      Returned (if s.seq.u.getLsbD (s.params.layout.enPos.get s.seq.src + 1) = true then 1 else 0) q))

/-- `SETBYP` (R120) without interference: the bypass bit takes the requested value unless `BYP_LOCK` holds it while HSE
is enabled, the result says whether it did, and nothing else changes. -/
def Obligations.SetBypassConfirmsItsBit : Prop :=
  ∀ (k : Int) (b : Bool) (s : State), (k = 1 ∧ b = true) ∨ (k = 0 ∧ b = false) → MachineInv s → s.seq.busy = false →
    Undisturbed 4 s →
    ∃ y q, exec (.setbyp k) s = .next { s with mem := { s.mem with byp := y }, seq := q, sched := s.sched.drop 4 } ∧
      y = (if s.params.bypLock = true ∧ s.mem.en.get .hse = true then s.mem.byp else b) ∧
      Returned (if y = b then 1 else 0) q

/-- `SETCLK s, OFF` (R121, R161): the enable bit is cleared, the ready bit with it when clearing is immediate, the
result is true, and nothing else changes; refused only under the policy `refuse` for a source in use (R91). -/
def Obligations.SetClockOffDisables : Prop :=
  ∀ (x : Source) (s : State), MachineInv s → x ∈ s.params.layout.sources → s.seq.busy = false →
    Undisturbed 3 s →
    (s.params.disableSelected = .allow ∨ s.mem.en.get x = false ∨
      (s.params.selDep.get s.mem.sw ≠ x ∧ s.params.selDep.get s.mem.sws ≠ x)) →
    ∃ q, exec (.setclk (clockOperand s x) 0) s = .next { s with
        mem := { s.mem with
          en := s.mem.en.set x false
          rdy := if s.params.readyClear = .immediate then s.mem.rdy.set x false else s.mem.rdy }
        seq := q, sched := s.sched.drop 3 } ∧
      Returned 1 q

/-- `SETCLK s, OFF` under the policy `refuse` for an enabled source that the selector or the status field names
(R91, R210). -/
def Obligations.SetClockOffOfSelectedSourceRefused : Prop :=
  ∀ (x : Source) (s : State), MachineInv s → x ∈ s.params.layout.sources → s.seq.busy = false →
    Undisturbed 2 s → s.params.disableSelected = .refuse →
    s.mem.en.get x = true → (s.params.selDep.get s.mem.sw = x ∨ s.params.selDep.get s.mem.sws = x) →
    exec (.setclk (clockOperand s x) 0) s = .refused .disableOfSelectedSource

/-- `SETCLK s, ON` of a source that reports ready (R121, corner case 1): the enable bit is set, the first poll read
sees the ready bit, the result is true, and nothing else changes. -/
def Obligations.SetClockOnOfReadySourceReturns : Prop :=
  ∀ (x : Source) (s : State), MachineInv s → x ∈ s.params.layout.sources → s.seq.busy = false →
    Undisturbed 4 s → s.mem.rdy.get x = true →
    ∃ q, exec (.setclk (clockOperand s x) 1) s = .next { s with
        mem := { s.mem with en := s.mem.en.set x true }, seq := q, sched := s.sched.drop 4 } ∧
      Returned 1 q

/-- `SETCLK s, ON` of a source that does not report ready waits (R121, R123): the enable bit is set and SEQ is in the
poll loop, RES not written. -/
def Obligations.SetClockOnOfUnreadySourcePolls : Prop :=
  ∀ (x : Source) (s : State), MachineInv s → x ∈ s.params.layout.sources → s.seq.busy = false →
    Undisturbed 3 s → s.mem.rdy.get x = false →
    ∃ t, exec (.setclk (clockOperand s x) 1) s = .next t ∧ Polling x t ∧
      t = { s with mem := { s.mem with en := s.mem.en.set x true }, seq := t.seq, sched := s.sched.drop 3 } ∧
      t.seq.res = s.seq.res ∧ t.seq.resDefined = s.seq.resDefined

/-- One iteration of the poll loop reads CR: with the ready bit clear it goes round, with it set the operation returns
true; either way the register memory is as it was (R121, R123). -/
def Obligations.PollIterationReadsTheReadyBit : Prop :=
  ∀ (x : Source) (s : State) (rest : List Turn), s.wf → x ∈ s.params.layout.sources → Polling x s →
    (s.mem.rdy.get x = false → s.sched = .seq :: rest →
      ∃ t, step s = .next t ∧ Polling x t ∧ t = { s with seq := t.seq, sched := rest } ∧ t.seq.res = s.seq.res) ∧
    (s.mem.rdy.get x = true → s.sched = .seq :: .seq :: rest →
      ∃ q, step s = .next { s with seq := q, sched := rest } ∧ Returned 1 q)

/-- A source that never stabilises hangs `SETCLK s, ON` for ever: whatever hardware and EXT contexts do, short of
RESET, every run stays in the poll loop with RES unwritten; and with no more turns listed the run never ends
(R123, R184). -/
def Obligations.UnstableSourceHangsThePoll : Prop :=
  ∀ (x : Source) (s : State), MachineInv s → Polling x s → s.mem.rdy.get x = false → s.params.stabilizes.get x = false →
    Turn.reset ∉ s.sched →
    (∀ (n : Nat) (t : State), Sys2Proof.core.run n s = .next t → Polling x t ∧ t.seq.res = s.seq.res) ∧
    (s.sched = [] → ∀ n : Nat, ∃ t, Sys2Proof.core.run n s = .next t)

/-- A source that stabilises ends the poll: with no interference listed, the operation returns true within two steps
more than there are sources, one of each oscillator and of MUX at most and one of SEQ (R123, R164). The bound counts
steps of the model's default order: log 3. -/
def Obligations.StabilizingSourceEndsThePoll : Prop :=
  ∀ (x : Source) (s : State), MachineInv s → Polling x s → s.mem.en.get x = true → s.params.stabilizes.get x = true →
    s.sched = [] →
    ∃ n t, n ≤ s.params.layout.sources.length + 2 ∧ Sys2Proof.core.run n s = .next t ∧ Returned 1 t.seq ∧
      t.mem.rdy.get x = true

/-- A step in which a polling `SETCLK s, ON` returns is one in which the source reports ready (R126). -/
def Obligations.SetClockOnReturnsOnlyWhenReady : Prop :=
  ∀ (x : Source) (s t : State), MachineInv s → Polling x s → s.sched.head? ≠ some .reset → step s = .next t →
    t.seq.busy = false → s.mem.rdy.get x = true ∧ t.mem = s.mem ∧ t.seq.res = 1

/-- `GETCLK` (R122): the result is the ready bit, and nothing of the register memory changes. -/
def Obligations.GetClockReportsTheReadyBit : Prop :=
  ∀ (x : Source) (s : State), s.wf → x ∈ s.params.layout.sources → s.seq.busy = false → Undisturbed 2 s →
    ∃ q, exec (.getclk (clockOperand s x)) s = .next { s with seq := q, sched := s.sched.drop 2 } ∧
      Returned (if s.mem.rdy.get x then 1 else 0) q

/-- The frame of SETBYP, SETCLK and GETCLK, however far they run before another agent's turn (R124): no enable
register and nothing of CFGR changes, the unassigned bits of CR keep their values, and no byte outside CR changes;
SETBYP keeps every source, SETCLK the bypass bit and every other source, GETCLK all of the register memory. -/
def Obligations.OscillatorOperationsKeepTheOtherFields : Prop :=
  ∀ (i : Instr) (s t : State), MachineInv s → exec i s = .next t →
    ((∃ k, i = .setbyp k) →
      t = { s with mem := { s.mem with byp := t.mem.byp }, seq := t.seq, sched := t.sched }) ∧
    (∀ x ∈ s.params.layout.sources, ∀ b, i = .setclk (clockOperand s x) b →
      t = { s with mem := { s.mem with en := t.mem.en, rdy := t.mem.rdy }, seq := t.seq, sched := t.sched } ∧
      ∀ y, y ≠ x → t.mem.en.get y = s.mem.en.get y ∧ t.mem.rdy.get y = s.mem.rdy.get y) ∧
    ((∃ k, i = .getclk k) → t = { s with seq := t.seq, sched := t.sched }) ∧
    ((∃ k, i = .setbyp k) ∨ (∃ k b, i = .setclk k b) ∨ (∃ k, i = .getclk k) →
      ∀ a, ¬ InReg s.params.layout .cr a → byteAt a t = byteAt a s)

/-- Disabling the source the multiplexer is using takes effect under the policy `allow`: the operation returns true,
the selector and the status field keep their values, and the system clock is no longer alive (R210). -/
def Obligations.DisablingTheSourceInUseStopsTheClock : Prop :=
  ∀ s : State, MachineInv s → s.seq.busy = false → Undisturbed 3 s → s.params.disableSelected = .allow →
    s.params.readyClear = .immediate →
    ∃ t, exec (.setclk (clockOperand s (s.params.selDep.get s.mem.sws)) 0) s = .next t ∧ Returned 1 t.seq ∧
      t.mem.sw = s.mem.sw ∧ t.mem.sws = s.mem.sws ∧ sysclkAlive t = false

/-! ClockSourceController, system clock selection. -/

/-- SETSYS and GETSYS, primitive by primitive, whatever other agents do between any two of them (R140, R141): encoding,
acceptance with the operand latched, validation, the two read-modify-writes, the read-back, the return. A write of CFGR
has the effects of the transaction WR.CFGR. The split into transactions is the spec's decision D23, the readback of the
selector its decision D25; the numbering and merging of the primitives is the model's, log 5 and 6. -/
def Obligations.SelectionOperationsFollowTheirPseudocode : Prop :=
  (∀ L : Layout, (∀ v : BitVec 2, encode L (.setsys v.toNat) = .cmd (0x23000000 + v.setWidth 32)) ∧
    encode L .getsys = .cmd 0x24000000) ∧
  (∀ (v : BitVec 2) (s : State) (x : Turn) (rest : List Turn), s.seq.busy = false → s.sched = x :: rest → x ≠ .seq →
    (∃ q, exec (.setsys v.toNat) s = .next { s with seq := q } ∧ q.busy = true ∧ q.op = .setsys ∧ q.upc = 0 ∧
      q.target = v ∧
      q.res = s.seq.res) ∧
    (∃ q, exec .getsys s = .next { s with seq := q } ∧ q.busy = true ∧ q.op = .getsys ∧ q.upc = 0 ∧
      q.res = s.seq.res)) ∧
  (∀ (s : State) (x : Turn) (rest : List Turn),
    (AtPrimitive .setsys 0 x rest s →
      step s = .next { s with seq := { s.seq with u := readReg .cr s, upc := 1 }, sched := x :: rest }) ∧
    (AtPrimitive .setsys 1 x rest s →
      (s.seq.u.getLsbD (s.params.layout.enPos.get (s.params.selDep.get s.seq.target) + 1) = false →
        ∃ q, step s = .next { s with seq := q, sched := x :: rest } ∧ Returned 0xFFFFFFFF q) ∧
      (s.seq.u.getLsbD (s.params.layout.enPos.get (s.params.selDep.get s.seq.target) + 1) = true →
        step s = .next { s with seq := { s.seq with t := readReg .cfgr s, upc := 2 }, sched := x :: rest })) ∧
    (AtPrimitive .setsys 2 x rest s → ∃ m, exec (.wrCfgr (s.seq.t &&& ~~~((3 : Word) <<< s.params.layout.swPos))) s =
      .next m ∧
      step s = .next { m with seq := { s.seq with upc := 3 }, sched := x :: rest }) ∧
    (AtPrimitive .setsys 3 x rest s →
      step s = .next { s with seq := { s.seq with t := readReg .cfgr s, upc := 4 }, sched := x :: rest }) ∧
    (AtPrimitive .setsys 4 x rest s → ∃ m,
      exec (.wrCfgr (s.seq.t ||| (s.seq.target.setWidth 32 <<< s.params.layout.swPos))) s = .next m ∧
      step s = .next { m with seq := { s.seq with upc := 5 }, sched := x :: rest }) ∧
    (AtPrimitive .setsys 5 x rest s →
      step s = .next { s with seq := { s.seq with u := readReg .cfgr s, upc := 6 }, sched := x :: rest }) ∧
    (AtPrimitive .setsys 6 x rest s → ∃ q, step s = .next { s with seq := q, sched := x :: rest } ∧
      Returned ((s.seq.u.extractLsb' s.params.layout.swPos 2).setWidth 32) q) ∧
    (AtPrimitive .getsys 0 x rest s →
      step s = .next { s with seq := { s.seq with u := readReg .cfgr s, upc := 1 }, sched := x :: rest }) ∧
    (AtPrimitive .getsys 1 x rest s → ∃ q, step s = .next { s with seq := q, sched := x :: rest } ∧
      Returned ((s.seq.u.extractLsb' s.params.layout.swPos 2).setWidth 32) q))

/-- `SETSYS` on a source that does not report ready (R143): the sentinel -1 after one read of CR, and nothing of the
register memory changes. -/
def Obligations.SelectionOfUnreadySourceFails : Prop :=
  ∀ (v : BitVec 2) (s : State), s.wf → s.seq.busy = false → Undisturbed 2 s →
    s.mem.rdy.get (s.params.selDep.get v) = false →
    ∃ q, exec (.setsys v.toNat) s = .next { s with seq := q, sched := s.sched.drop 2 } ∧ Returned 0xFFFFFFFF q ∧
      q.res.toInt = -1

/-- `SETSYS` on a ready source without interference (R140): the selector takes the target, the result is the target,
the status field follows at once only with `SWS_FOLLOW = immediate`, and nothing else changes. -/
def Obligations.SelectionOfReadySourceSucceeds : Prop :=
  ∀ (v : BitVec 2) (s : State), s.wf → s.seq.busy = false → Undisturbed 7 s →
    s.mem.rdy.get (s.params.selDep.get v) = true →
    ∃ q, exec (.setsys v.toNat) s = .next { s with
        mem := { s.mem with sw := v, sws := if s.params.swsFollow = .immediate then v else s.mem.sws }
        seq := q, sched := s.sched.drop 7 } ∧
      Returned (v.setWidth 32) q

/-- Between the two writes of `SETSYS` the selector is 0 (R144): when another agent's turn comes there, SEQ is busy at
the second read of CFGR, a read of CFGR sees 0 in the selector, and MUX's step takes the status field to 0 exactly if
the source of 0 is ready. -/
def Obligations.SelectorPassesThroughZero : Prop :=
  ∀ (v : BitVec 2) (s : State) (rest : List Turn), s.wf → s.seq.busy = false →
    s.mem.rdy.get (s.params.selDep.get v) = true → s.params.swsFollow = .agent →
    s.sched = .seq :: .seq :: .seq :: .mux :: rest →
    ∃ t u, exec (.setsys v.toNat) s = .next t ∧ step t = .next u ∧
      t = { s with mem := { s.mem with sw := 0 }, seq := t.seq, sched := .mux :: rest } ∧
      t.seq.busy = true ∧ t.seq.op = .setsys ∧ t.seq.upc = 3 ∧ t.seq.res = s.seq.res ∧
      (readReg .cfgr t).extractLsb' s.params.layout.swPos 2 = 0 ∧
      u = { t with
        mem := { t.mem with sws := if s.mem.rdy.get (s.params.selDep.get 0) then 0 else s.mem.sws }, sched := rest }

/-- The result of `SETSYS` is what its read-back finds in the register, whatever an interfering write has put there,
and is never the sentinel (R145). -/
def Obligations.SelectionResultIsReadBack : Prop :=
  ∀ (s : State) (rest : List Turn), s.wf → s.seq.busy = true → s.seq.op = .setsys →
    s.seq.upc = 5 → s.sched = .seq :: .seq :: rest →
    ∃ q, step s = .next { s with seq := q, sched := rest } ∧ Returned (s.mem.sw.setWidth 32) q ∧ q.res.toNat ≤ 3 ∧
      q.res ≠ Config.selError

/-- `GETSYS` (R141): the result is the selector field, never the status field, and nothing of the register memory
changes. -/
def Obligations.GetSystemClockReportsTheSelector : Prop :=
  ∀ s : State, s.wf → s.seq.busy = false → Undisturbed 2 s →
    ∃ q, exec .getsys s = .next { s with seq := q, sched := s.sched.drop 2 } ∧ Returned (s.mem.sw.setWidth 32) q

/-- Selection and readback (R146): on an unready source the selection fails and the registers are unchanged; on a ready
one a readback after it returns exactly the target. -/
def Obligations.SelectionRoundTrip : Prop :=
  ∀ (v : BitVec 2) (s : State), s.wf → s.seq.busy = false → Undisturbed 9 s →
    (s.mem.rdy.get (s.params.selDep.get v) = false →
      ∃ t, exec (.setsys v.toNat) s = .next t ∧ Returned Config.selError t.seq ∧ t.mem = s.mem) ∧
    (s.mem.rdy.get (s.params.selDep.get v) = true →
      ∃ t u, exec (.setsys v.toNat) s = .next t ∧ exec .getsys t = .next u ∧ t.mem.sw = v ∧ u.mem = t.mem ∧
        Returned (v.setWidth 32) u.seq)

/-- The frame of SETSYS and GETSYS, however far they run before another agent's turn (R124): no enable register and
nothing of CR changes, the unassigned bits of CFGR keep their values, and no byte outside CFGR changes; GETSYS keeps
all of the register memory. -/
def Obligations.SelectionKeepsTheOtherFields : Prop :=
  ∀ (i : Instr) (s t : State), s.wf → exec i s = .next t →
    ((∃ v, i = .setsys v) →
      t = { s with mem := { s.mem with sw := t.mem.sw, sws := t.mem.sws }, seq := t.seq, sched := t.sched } ∧
      ∀ a, ¬ InReg s.params.layout .cfgr a → byteAt a t = byteAt a s) ∧
    (i = .getsys → t = { s with seq := t.seq, sched := t.sched } ∧ ∀ a, byteAt a t = byteAt a s)

/-! The hardware agents. -/

/-- `OSC[x].Stabilize` (R160): with its guard the ready bit is set and, with `SWS_FOLLOW = agent`, nothing else
changes; it never happens for a source that does not stabilise. -/
def Obligations.StabilizeSetsTheReadyBit : Prop :=
  ∀ (x : Source) (s : State) (rest : List Turn), s.sched = .osc x :: rest → s.mem.en.get x = true →
    s.mem.rdy.get x = false →
    (s.params.stabilizes.get x = true → s.params.swsFollow = .agent →
      step s = .next { s with mem := { s.mem with rdy := s.mem.rdy.set x true }, sched := rest }) ∧
    (s.params.stabilizes.get x = true → s.params.swsFollow = .immediate →
      step s = .next { s with
        mem := { s.mem with
          rdy := s.mem.rdy.set x true
          sws := if (s.mem.rdy.set x true).get (s.params.selDep.get s.mem.sw) then s.mem.sw else s.mem.sws }
        sched := rest }) ∧
    (s.params.stabilizes.get x = false → step s = .next { s with sched := rest })

/-- `OSC[x].Decay` (R162): only with `READY_CLEAR_MODE = eventual`, of a disabled source whose ready bit is still set. -/
def Obligations.DecayClearsTheReadyBit : Prop :=
  ∀ (x : Source) (s : State) (rest : List Turn), s.sched = .osc x :: rest → s.mem.en.get x = false →
    s.mem.rdy.get x = true →
    (s.params.readyClear = .eventual →
      step s = .next { s with mem := { s.mem with rdy := s.mem.rdy.set x false }, sched := rest }) ∧
    (s.params.readyClear = .immediate → step s = .next { s with sched := rest })

/-- `MUX.Follow` (R163): the status field takes the selector's value if the source that depends on is ready, and
nothing else changes; otherwise nothing changes. With `SWS_FOLLOW = immediate`, where R163 folds the step away, a turn
of MUX still acts so in the model: DESIGN CHOICE, log 24; in no state with the machine's invariant is there then
anything left for it to do. -/
def Obligations.FollowCopiesTheSelector : Prop :=
  ∀ (s : State) (rest : List Turn), s.sched = .mux :: rest →
    step s = .next { s with
      mem := { s.mem with sws := if s.mem.rdy.get (s.params.selDep.get s.mem.sw) then s.mem.sw else s.mem.sws }
      sched := rest }

/-- No agent other than a bus write changes an enable register, an enable bit, the bypass bit, the selector or the
unassigned bits (R166; the RESET event, R200, apart): a step of OSC or MUX changes nothing but ready bits and the status
field, a store of SEQ is the bus write of the register and word its pseudocode gives, every other primitive of SEQ leaves
the register memory as it is, and a turn of OSC or MUX, a bus read by whatever context and a read of RES change none of
them. Which primitive is a store goes by the model's numbering, log 6. -/
def Obligations.HardwareChangesOnlyReadyAndStatus : Prop :=
  (∀ (h : Hardware) (s : State), hardwareStep h s = { s with
    mem := { s.mem with rdy := (hardwareStep h s).mem.rdy, sws := (hardwareStep h s).mem.sws } }) ∧
  (∀ s t : State, seqStep s = .next t →
    (∀ r d, nextStore s = some (r, d) → ∃ m, exec (writeOf d r) s = .next m ∧ t.mem = m.mem) ∧
    (nextStore s = none → t.mem = s.mem)) ∧
  (∀ (r : Reg) (s t : State), exec (readOf r) s = .next t → t.mem = s.mem) ∧
  (∀ (s t : State) (y : Turn) (rest : List Turn), step s = .next t → s.sched = y :: rest →
    (∃ x, y = .osc x) ∨ y = .mux →
    t = { s with mem := { s.mem with rdy := t.mem.rdy, sws := t.mem.sws }, sched := rest }) ∧
  (∀ (s t : State) (y : Turn) (rest : List Turn), step s = .next t → s.sched = y :: rest →
    (∃ c desc d, y = .ext c desc d ∧ desc.getLsbD 15 = false) ∨ (∃ c a, y = .access c a ∧ a.write = false) ∨
      y = .result →
    t.mem = s.mem)

/-- A ready bit rises in no step but one of its own oscillator, listed or by the model's default order (log 3), enabled
and stabilising; RESET apart (R16, R160). -/
def Obligations.ReadyRisesOnlyByStabilizing : Prop :=
  ∀ (x : Source) (s t : State), step s = .next t → s.sched.head? ≠ some .reset → s.mem.rdy.get x = false →
    t.mem.rdy.get x = true →
    (s.sched.head? = some (.osc x) ∨ (s.sched = [] ∧ firstEnabled s = some (.osc x))) ∧
    s.mem.en.get x = true ∧ s.params.stabilizes.get x = true ∧ t.seq = s.seq ∧ t.mem.en = s.mem.en ∧
      t.mem.enr = s.mem.enr

/-- In every step but RESET the status field keeps its value or takes one whose source is ready (R24, R163). -/
def Obligations.StatusOnlyMovesToReadySources : Prop :=
  ∀ s t : State, step s = .next t → s.sched.head? ≠ some .reset →
    t.mem.sws = s.mem.sws ∨ t.mem.rdy.get (t.params.selDep.get t.mem.sws) = true

/-- The state machine of a clock source with immediate clearing (R23): in every step but RESET a source stays, or goes
from OFF to STABILIZING, from STABILIZING to READY, or from STABILIZING or READY to OFF; STOPPING is not reached. -/
def Obligations.SourceStateMachine : Prop :=
  ∀ (x : Source) (s t : State), MachineInv s → s.params.readyClear = .immediate → step s = .next t →
    s.sched.head? ≠ some .reset →
    (sourceState x s.mem, sourceState x t.mem) ∈
      [(SourceState.off, SourceState.off), (.off, .stabilizing), (.stabilizing, .stabilizing), (.stabilizing, .ready),
       (.stabilizing, .off), (.ready, .ready), (.ready, .off)]

/-! The machine as a whole. -/

/-- The invariant is kept by every step, of every agent. -/
def Obligations.EveryStepKeepsTheInvariant : Prop := ∀ s t : State, MachineInv s → step s = .next t → MachineInv t

/-- The invariant holds after reset. -/
def Obligations.InvariantHoldsAtReset : Prop := MachineInv State.reset

/-- No step changes the implementation's parameters (R5). -/
def Obligations.ParametersNeverChange : Prop := ∀ s t : State, step s = .next t → t.params = s.params

/-- RES is written only by a `return`: a step that changes it is one in SEQ's turn, listed or by the model's default
order (log 3), and leaves SEQ idle and RES readable (R28). -/
def Obligations.ResultIsWrittenOnlyByReturn : Prop :=
  ∀ s t : State, step s = .next t → t.seq.res ≠ s.seq.res →
    (s.sched.head? = some .seq ∨ (s.sched = [] ∧ firstEnabled s = none)) ∧ t.seq.busy = false ∧ t.seq.upc = 0 ∧
      t.seq.resDefined = true

/-- The command port accepts an operation only when SEQ is idle (R189): presented to a busy SEQ a well-formed operation
has no meaning, and no step of the machine ever presents one then. -/
def Obligations.OperationsAreAcceptedOnlyWhenIdle : Prop :=
  (∀ (i : Instr) (s : State) (w : Word), Instr.wellFormed s.params.layout i = true →
    encode s.params.layout i = .cmd w → s.seq.busy = true →
    exec i s = .refused .commandWhileBusy) ∧
  ∀ s : State, step s ≠ .refused .commandWhileBusy

/-- A step runs the instruction it presents (R8, R61): the caller's next packet in a turn of an idle SEQ, listed or by
default, and an EXT context's transaction in its turn, by descriptor or by address. The step takes the turn and the packet
away, notes whose turn it is (log 30), and adds nothing else. -/
def Obligations.StepRunsThePresentedInstruction : Prop :=
  (∀ (s : State) (pk : Packet) (i : Instr) (ps : List Packet) (rest : List Turn), decode s.params.layout pk = .ok i →
    s.seq.busy = false → s.program = pk :: ps → s.sched = .seq :: rest →
    step s = exec i { s with sched := rest, program := ps, issuer := .caller }) ∧
  (∀ (s : State) (pk : Packet) (i : Instr) (ps : List Packet), decode s.params.layout pk = .ok i → s.seq.busy = false →
    s.program = pk :: ps → s.sched = [] → firstEnabled s = none →
    step s = exec i { s with program := ps, issuer := .caller }) ∧
  (∀ (s : State) (c : Nat) (desc : BitVec 16) (d : Word) (i : Instr) (rest : List Turn),
    decode s.params.layout (.bus desc d) = .ok i → s.sched = .ext c desc d :: rest →
    step s = exec i { s with sched := rest, issuer := .ext c }) ∧
  (∀ (s : State) (c : Nat) (a : Access) (rest : List Turn), s.sched = .access c a :: rest →
    step s = busAccess a { s with sched := rest, issuer := .ext c })

/-- The instruction `withFetchWord` places is the one the very next step runs, under whatever layout the state has; and
`decodeTableWord` is that decoding under the default layout (log 29). -/
def Obligations.PlacedInstructionRunsNext : Prop :=
  (∀ (s : State) (nbits w : Nat) (i : Instr), decode s.params.layout (packetOf nbits w) = .ok i →
    step (s.withFetchWord nbits w) =
      exec i (if nbits = 32 then { s with seq := { s.seq with busy := false, upc := 0 }, issuer := .caller }
        else { s with issuer := .ext 0 })) ∧
  (∀ (nbits w : Nat) (i : Instr), decodeTableWord nbits w = some i ↔ decode Config.layout (packetOf nbits w) = .ok i)

/-- The RESET event (R200): at one instant the register memory takes its reset values, the operation in progress is
abandoned without writing RES, SEQ is idle, and nothing else is discarded; RES may then not be read (R35). That an extra
source is OFF then is log 16. -/
def Obligations.ResetEventRestoresTheRegisters : Prop :=
  ∀ (s : State) (rest : List Turn), s.sched = .reset :: rest →
    ∃ t, step s = .next t ∧ t = { s with mem := t.mem, seq := t.seq, sched := rest } ∧
      t.mem.enr = s.params.enrReset ∧ t.mem.en.get .hsi = true ∧ t.mem.rdy.get .hsi = true ∧
      (∀ x ∈ s.params.layout.sources, x ≠ .hsi → t.mem.en.get x = false ∧ t.mem.rdy.get x = false) ∧
      t.mem.byp = false ∧ t.mem.crOther = s.params.crOtherReset ∧ t.mem.sw = 0 ∧ t.mem.sws = 0 ∧
      t.mem.cfgrOther = s.params.cfgrOtherReset ∧
      t.seq = { s.seq with busy := false, upc := 0, resDefined := false } ∧
      readResult t = .refused .resultNotWritten

/-- The registers after reset with the default parameters (R201, whose values are the spec's decision D17 but for the
ready internal oscillator). -/
def Obligations.RegistersAfterReset : Prop :=
  (∀ g, readReg (.enr g) State.reset = 0) ∧ readReg .cr State.reset = 0x00000003 ∧ readReg .cfgr State.reset = 0 ∧
    State.reset.seq.busy = false ∧ sourceState .hsi State.reset.mem = .ready ∧ sysclkAlive State.reset = true

/-- A run that is over stays as it is, and the reset state, with nothing presented, is over (R8, R202). -/
def Obligations.FinishedRunsStayAsTheyAre : Prop :=
  Over State.reset ∧ ∀ s : State, Over s → s.sched = [] → ∀ n : Nat, Sys2Proof.core.run n s = .next s

/-- Reading RES: its value once an operation has returned, refused before (R28, R35, R192). That it may be read while SEQ
is busy too is the model's choice, log 31; that the word goes to the caller's latch, log 12. -/
def Obligations.ResultReadOnlyAfterReturn : Prop :=
  ∀ (s : State) (rest : List Turn), s.sched = .result :: rest →
    (s.seq.resDefined = true → step s = .next { s with latches := s.latches.set .caller s.seq.res, sched := rest }) ∧
    (s.seq.resDefined = false → step s = .refused .resultNotWritten)
end

