-- ==== Sys2Proof/Laws/State.lean ====
section
/-! SUPPORT. The small lemmas of the plain-data types: one per field per update, true by rfl. -/

namespace Sys2Proof

section Tables
variable {α : Type}

@[simp] theorem PerGroup.get_set_same (v : PerGroup α) (g : BusGroup) (x : α) : (v.set g x).get g = x := by
  cases g <;> rfl

theorem PerGroup.get_set_other (v : PerGroup α) {g h : BusGroup} (x : α) (hne : h ≠ g) :
    (v.set g x).get h = v.get h := by
  cases g <;> cases h <;> first | rfl | exact absurd rfl hne

theorem PerGroup.get_set (v : PerGroup α) (g h : BusGroup) (x : α) :
    (v.set g x).get h = if h = g then x else v.get h := by
  cases g <;> cases h <;> rfl

@[simp] theorem PerGroup.set_get (v : PerGroup α) (g : BusGroup) : v.set g (v.get g) = v := by
  cases g <;> rfl

@[simp] theorem PerGroup.set_set (v : PerGroup α) (g : BusGroup) (x y : α) : (v.set g x).set g y = v.set g y := by
  cases g <;> rfl

@[simp] theorem PerGroup.get_const (x : α) (g : BusGroup) : (PerGroup.const x).get g = x := by cases g <;> rfl

theorem PerGroup.ext_get {v w : PerGroup α} (h : ∀ g, v.get g = w.get g) : v = w := by
  cases v; cases w
  have h1 := h .hs1; have h2 := h .hs2; have h3 := h .hs3; have h4 := h .p1; have h5 := h .p2
  simp only [PerGroup.get] at h1 h2 h3 h4 h5
  simp only [h1, h2, h3, h4, h5]

/-! Values per source. The lemmas that need `x` to be a source of the implementation say so. -/

theorem Layout.mem_sources {L : Layout} {x : Source} :
    x ∈ L.sources ↔ ∀ n, x = .extra n → n < L.enPos.extra.length := by
  unfold Layout.sources
  cases x <;> simp

@[simp] theorem Layout.hsi_mem (L : Layout) : Source.hsi ∈ L.sources := by simp [Layout.sources]
@[simp] theorem Layout.hse_mem (L : Layout) : Source.hse ∈ L.sources := by simp [Layout.sources]
@[simp] theorem Layout.pll_mem (L : Layout) : Source.pll ∈ L.sources := by simp [Layout.sources]

variable [Inhabited α]

theorem PerSource.get_tabulate {L : Layout} {x : Source} (hx : x ∈ L.sources) (f : Source → α) :
    (PerSource.tabulate L.enPos.extra.length f).get x = f x := by
  cases x with
  | extra n =>
    have hn := Layout.mem_sources.mp hx n rfl
    simp [PerSource.tabulate, PerSource.get, hn]
  | hsi | hse | pll => rfl

omit [Inhabited α] in
@[simp] theorem PerSource.tabulate_length (k : Nat) (f : Source → α) : (PerSource.tabulate k f).extra.length = k := by
  simp [PerSource.tabulate]

omit [Inhabited α] in
@[simp] theorem PerSource.set_length (v : PerSource α) (x : Source) (a : α) :
    (v.set x a).extra.length = v.extra.length := by cases x <;> simp [PerSource.set]

theorem PerSource.get_set_same {L : Layout} {v : PerSource α} {x : Source} (hx : x ∈ L.sources)
    (hv : v.extra.length = L.enPos.extra.length) (a : α) : (v.set x a).get x = a := by
  cases x with
  | extra n =>
    have hn := Layout.mem_sources.mp hx n rfl
    simp [PerSource.set, PerSource.get, hv, hn]
  | hsi | hse | pll => rfl

theorem PerSource.get_set_other (v : PerSource α) {x y : Source} (a : α) (h : y ≠ x) :
    (v.set x a).get y = v.get y := by
  cases x <;> cases y <;> first
    | rfl
    | exact absurd rfl h
    | (rename_i n m
       have hne : n ≠ m := fun e => h (by rw [e])
       simp [PerSource.set, PerSource.get, List.getElem?_set_ne hne])

theorem PerSource.get_set {L : Layout} {v : PerSource α} {x : Source} (hx : x ∈ L.sources)
    (hv : v.extra.length = L.enPos.extra.length) (y : Source) (a : α) :
    (v.set x a).get y = if y = x then a else v.get y := by
  by_cases h : y = x
  · subst h; rw [if_pos rfl, get_set_same hx hv]
  · rw [if_neg h, get_set_other v a h]

@[simp] theorem PerSource.set_get (v : PerSource α) (x : Source) : v.set x (v.get x) = v := by
  cases x with
  | extra n =>
    obtain ⟨a, b, c, l⟩ := v
    simp only [PerSource.set, PerSource.get, PerSource.mk.injEq, true_and]
    apply List.ext_getElem?
    intro i
    by_cases h : n = i
    · subst h
      by_cases hn : n < l.length <;> simp [hn]
    · rw [List.getElem?_set_ne h]
  | hsi | hse | pll => rfl

/-- A value outside the extra sources held reads as the default. -/
theorem PerSource.get_outside {L : Layout} {v : PerSource α} {x : Source} (hx : x ∉ L.sources)
    (hv : v.extra.length = L.enPos.extra.length) : v.get x = default := by
  rw [Layout.mem_sources] at hx
  push Not at hx
  obtain ⟨n, rfl, hn⟩ := hx
  simp [PerSource.get, hv, hn]

/-- Values that agree at every source of the implementation are equal. -/
theorem PerSource.ext_mem {L : Layout} {v w : PerSource α} (hv : v.extra.length = L.enPos.extra.length)
    (hw : w.extra.length = L.enPos.extra.length) (h : ∀ x ∈ L.sources, v.get x = w.get x) : v = w := by
  obtain ⟨v1, v2, v3, l⟩ := v
  obtain ⟨w1, w2, w3, l'⟩ := w
  have h1 := h .hsi (by simp)
  have h2 := h .hse (by simp)
  have h3 := h .pll (by simp)
  simp only [PerSource.get] at h1 h2 h3
  simp only [h1, h2, h3, PerSource.mk.injEq, true_and]
  refine List.ext_getElem (hv.trans hw.symm) fun n hn hn' => ?_
  have hx := h (.extra n) (Layout.mem_sources.mpr fun m hm => by cases hm; exact hv ▸ hn)
  simpa [PerSource.get, hn, hn'] using hx

end Tables

namespace Machine

@[simp] theorem passTurn_mem (s : State) : (passTurn s).mem = s.mem := rfl
@[simp] theorem passTurn_seq (s : State) : (passTurn s).seq = s.seq := rfl
@[simp] theorem passTurn_params (s : State) : (passTurn s).params = s.params := rfl
@[simp] theorem passTurn_latches (s : State) : (passTurn s).latches = s.latches := rfl
@[simp] theorem passTurn_issuer (s : State) : (passTurn s).issuer = s.issuer := rfl
@[simp] theorem passTurn_program (s : State) : (passTurn s).program = s.program := rfl
@[simp] theorem passTurn_sched (s : State) : (passTurn s).sched = s.sched.tail := rfl

@[simp] theorem hardwareStep_mem (h : Hardware) (s : State) : (hardwareStep h s).mem = h.act s.params s.mem := rfl
@[simp] theorem hardwareStep_seq (h : Hardware) (s : State) : (hardwareStep h s).seq = s.seq := rfl
@[simp] theorem hardwareStep_params (h : Hardware) (s : State) : (hardwareStep h s).params = s.params := rfl
@[simp] theorem hardwareStep_latches (h : Hardware) (s : State) : (hardwareStep h s).latches = s.latches := rfl
@[simp] theorem hardwareStep_issuer (h : Hardware) (s : State) : (hardwareStep h s).issuer = s.issuer := rfl
@[simp] theorem hardwareStep_program (h : Hardware) (s : State) : (hardwareStep h s).program = s.program := rfl
@[simp] theorem hardwareStep_sched (h : Hardware) (s : State) : (hardwareStep h s).sched = s.sched := rfl

@[simp] theorem resetEvent_mem (s : State) : (resetEvent s).mem = Memory.reset s.params := rfl
@[simp] theorem resetEvent_params (s : State) : (resetEvent s).params = s.params := rfl
@[simp] theorem resetEvent_latches (s : State) : (resetEvent s).latches = s.latches := rfl
@[simp] theorem resetEvent_issuer (s : State) : (resetEvent s).issuer = s.issuer := rfl
@[simp] theorem resetEvent_program (s : State) : (resetEvent s).program = s.program := rfl
@[simp] theorem resetEvent_sched (s : State) : (resetEvent s).sched = s.sched := rfl
@[simp] theorem resetEvent_busy (s : State) : (resetEvent s).seq.busy = false := rfl
@[simp] theorem resetEvent_upc (s : State) : (resetEvent s).seq.upc = 0 := rfl
@[simp] theorem resetEvent_res (s : State) : (resetEvent s).seq.res = s.seq.res := rfl

@[simp] theorem andThen_next (s : State) (k : State → Result) : andThen (.next s) k = k s := rfl
@[simp] theorem andThen_refused (e : Refusal) (k : State → Result) : andThen (.refused e) k = .refused e := rfl

theorem andThen_eq_next {r : Result} {k : State → Result} {t : State} (h : andThen r k = .next t) :
    ∃ s, r = .next s ∧ k s = .next t := by
  cases r with
  | next s => exact ⟨s, rfl, h⟩
  | fault f => exact nomatch f
  | refused e => cases h

theorem andThen_eq_refused {r : Result} {k : State → Result} {e : Refusal} (h : andThen r k = .refused e) :
    r = .refused e ∨ ∃ s, r = .next s ∧ k s = .refused e := by
  cases r with
  | next s => exact .inr ⟨s, rfl, h⟩
  | fault f => exact nomatch f
  | refused e' => exact .inl h

/-! The contexts' latches (R191). -/

theorem wordOf_putWord_other {m n : Nat} (w : Word) (h : m ≠ n) (l : List (Nat × Word)) :
    wordOf m (putWord n w l) = wordOf m l := by
  induction l with
  | nil => unfold putWord; split <;> simp [wordOf, h.symm]
  | cons p l ih =>
    obtain ⟨k, v⟩ := p
    unfold putWord
    split
    · simp [wordOf, ih]
    · split
      · rename_i e; subst e
        split <;> simp [wordOf, h.symm]
      · split <;> simp [wordOf, h.symm]

theorem wordOf_eq_zero {n : Nat} {l : List (Nat × Word)} (h : ∀ a ∈ l, a.1 ≠ n) : wordOf n l = 0 := by
  induction l with
  | nil => rfl
  | cons p l ih =>
    obtain ⟨k, v⟩ := p
    have hk : k ≠ n := h (k, v) (by simp)
    simp only [wordOf, if_neg hk]
    exact ih fun a ha => h a (by simp [ha])

theorem wordOf_putWord_same {n : Nat} (w : Word) {l : List (Nat × Word)} (hl : l.Pairwise fun a b => a.1 < b.1) :
    wordOf n (putWord n w l) = w := by
  induction l with
  | nil => unfold putWord; split <;> simp_all [wordOf]
  | cons p l ih =>
    obtain ⟨k, v⟩ := p
    rw [List.pairwise_cons] at hl
    unfold putWord
    split
    · rename_i hk
      simp only [wordOf, if_neg (Nat.ne_of_lt hk)]
      exact ih hl.2
    · split
      · rename_i hk e; subst e
        split
        · rename_i e; subst e
          exact wordOf_eq_zero fun a ha => Nat.ne_of_gt (hl.1 a ha)
        · simp [wordOf]
      · rename_i hlt hne
        split
        · rename_i e; subst e
          simp only [wordOf, if_neg hne]
          refine wordOf_eq_zero fun a ha => ?_
          have := hl.1 a ha
          simp only at this
          omega
        · simp [wordOf]

theorem putWord_wf {n : Nat} {w : Word} {l : List (Nat × Word)} (h : l.Pairwise fun a b => a.1 < b.1)
    (h0 : ∀ a ∈ l, a.2 ≠ 0) :
    ((putWord n w l).Pairwise fun a b => a.1 < b.1) ∧ (∀ a ∈ putWord n w l, a.2 ≠ 0) ∧
      ∀ a ∈ putWord n w l, a.1 = n ∨ a ∈ l := by
  induction l with
  | nil => unfold putWord; split <;> simp_all
  | cons p l ih =>
    obtain ⟨k, v⟩ := p
    rw [List.pairwise_cons] at h
    obtain ⟨i1, i2, i3⟩ := ih h.2 fun a ha => h0 a (by simp [ha])
    have hv : v ≠ 0 := h0 (k, v) (by simp)
    unfold putWord
    split
    · rename_i hk
      refine ⟨List.pairwise_cons.mpr ⟨fun a ha => ?_, i1⟩, fun a ha => ?_, fun a ha => ?_⟩
      · rcases i3 a ha with e | ha'
        · rw [e]; exact hk
        · exact h.1 a ha'
      · rcases List.mem_cons.mp ha with rfl | ha'
        · exact hv
        · exact i2 a ha'
      · rcases List.mem_cons.mp ha with rfl | ha'
        · exact .inr (by simp)
        · rcases i3 a ha' with e | ha''
          · exact .inl e
          · exact .inr (by simp [ha''])
    · split
      · rename_i hk e; subst e
        split
        · exact ⟨h.2, fun a ha => h0 a (by simp [ha]), fun a ha => .inr (by simp [ha])⟩
        · refine ⟨List.pairwise_cons.mpr ⟨h.1, h.2⟩, fun a ha => ?_, fun a ha => ?_⟩
          · rcases List.mem_cons.mp ha with rfl | ha'
            · assumption
            · exact h0 a (by simp [ha'])
          · rcases List.mem_cons.mp ha with rfl | ha'
            · exact .inl rfl
            · exact .inr (by simp [ha'])
      · rename_i hlt hne
        split
        · exact ⟨List.pairwise_cons.mpr h, h0, fun a ha => .inr ha⟩
        · refine ⟨List.pairwise_cons.mpr ⟨fun a ha => ?_, List.pairwise_cons.mpr h⟩, fun a ha => ?_, fun a ha => ?_⟩
          · rcases List.mem_cons.mp ha with rfl | ha'
            · simp only; omega
            · have := h.1 a ha'
              simp only at this ⊢
              omega
          · rcases List.mem_cons.mp ha with rfl | ha'
            · assumption
            · exact h0 a ha'
          · rcases List.mem_cons.mp ha with rfl | ha'
            · exact .inl rfl
            · exact .inr ha'

theorem Latches.wf_iff (l : Latches) :
    l.wf = true ↔ (l.ext.Pairwise fun a b => a.1 < b.1) ∧ ∀ a ∈ l.ext, a.2 ≠ 0 := by
  unfold Latches.wf
  rw [Bool.and_eq_true, decide_eq_true_eq, decide_eq_true_eq]

/-- Replacing a context's latch keeps the canonical form. -/
theorem Latches.set_wf {l : Latches} (h : l.wf = true) (c : Context) (w : Word) : (l.set c w).wf = true := by
  rw [Latches.wf_iff] at h ⊢
  cases c with
  | caller => exact h
  | ext n =>
    obtain ⟨h1, h2, _⟩ := putWord_wf (n := n) (w := w) h.1 h.2
    exact ⟨h1, h2⟩

/-- A context's latch after its own read (R191). -/
theorem Latches.get_set_same {l : Latches} (h : l.wf = true) (c : Context) (w : Word) : (l.set c w).get c = w := by
  cases c with
  | caller => rfl
  | ext n => exact wordOf_putWord_same w ((Latches.wf_iff l).mp h).1

/-- Every other context's latch is as it was (R191). -/
theorem Latches.get_set_other (l : Latches) {c d : Context} (w : Word) (h : d ≠ c) : (l.set c w).get d = l.get d := by
  cases c <;> cases d <;> first
    | rfl
    | exact absurd rfl h
    | (rename_i n m
       exact wordOf_putWord_other w (fun e => h (by rw [e])) l.ext)

end Machine

end Sys2Proof
end

