-- ==== Sys2Proof/Laws/Bits.lean ====
section
/-! SUPPORT. What each operand form does to each bit, and what the words of CR and CFGR hold at each position. -/

namespace Sys2Proof.Machine

theorem getLsbD_bitMask (k i : Nat) : (bitMask k).getLsbD i = decide (i < 32 ∧ i = k) := by
  unfold bitMask
  rw [BitVec.getLsbD_shiftLeft]
  by_cases h : i < 32 <;> by_cases hk : i < k <;> simp [h, hk] <;> omega

@[simp] theorem getLsbD_setBit (t : Word) (k i : Nat) :
    (setBit t k).getLsbD i = (t.getLsbD i || decide (i < 32 ∧ i = k)) := by
  simp [setBit, getLsbD_bitMask]

@[simp] theorem getLsbD_clearBit (t : Word) (k i : Nat) :
    (clearBit t k).getLsbD i = (t.getLsbD i && !decide (i = k)) := by
  rw [clearBit, BitVec.getLsbD_and, BitVec.getLsbD_not, getLsbD_bitMask]
  by_cases h : i < 32
  · simp [h]
  · simp [h, BitVec.getLsbD_of_ge t i (by omega)]

@[simp] theorem getLsbD_placeBit (b : Bool) (k i : Nat) :
    (placeBit b k).getLsbD i = (b && decide (i < 32 ∧ i = k)) := by
  cases b <;> simp [placeBit, getLsbD_bitMask]

theorem word_ext {v w : Word} (h : ∀ i < 32, v.getLsbD i = w.getLsbD i) : v = w :=
  BitVec.eq_of_getLsbD_eq h

/-! Operands in range (R63 to R65, R72). -/

theorem peripheralOk_iff (p : Int) : peripheralOk p = true ↔ 0 ≤ p ∧ p ≤ 31 := by
  unfold peripheralOk
  rw [Bool.and_eq_true, decide_eq_true_eq, decide_eq_true_eq]
  exact Iff.rfl

theorem selectorOk_iff (v : Int) : selectorOk v = true ↔ 0 ≤ v ∧ v ≤ 3 := by
  unfold selectorOk
  rw [Bool.and_eq_true, decide_eq_true_eq, decide_eq_true_eq]

@[simp] theorem selectorOk_toNat : ∀ v : BitVec 2, selectorOk (v.toNat : Int) = true := by decide

@[simp] theorem selectorBits_toNat : ∀ v : BitVec 2, selectorBits (v.toNat : Int) = v := by decide

/-! Layouts: what `Layout.ok` says (N1, D4 to D6). -/

theorem getLsbD_positionsMask (l : List Nat) (i : Nat) :
    (positionsMask l).getLsbD i = decide (i < 32 ∧ i ∈ l) := by
  induction l with
  | nil => simp [positionsMask]
  | cons k l ih =>
    have e : positionsMask (k :: l) = bitMask k ||| positionsMask l := rfl
    rw [e, BitVec.getLsbD_or, getLsbD_bitMask, ih]
    by_cases h : i < 32 <;> by_cases hk : i = k
    · subst hk; simp [h]
    · simp [h, hk]
    · subst hk; simp [h]
    · simp [h, hk]

theorem mem_allRegs (r : Reg) : r ∈ allRegs := by
  rcases r with _ | _ | g
  · decide
  · decide
  · cases g <;> decide

/-- The clauses of `Layout.ok`. -/
theorem Layout.ok_iff (L : Layout) : L.ok = true ↔
    L.base.toNat % 4 = 0 ∧ (∀ r, (L.offset r).toNat % 4 = 0) ∧ (allRegs.map L.offset).Nodup ∧
      (∀ k ∈ L.crPositions, k < 32) ∧ L.crPositions.Nodup ∧ (∀ k ∈ L.cfgrPositions, k < 32) ∧ L.cfgrPositions.Nodup := by
  simp only [Layout.ok, Bool.and_eq_true, decide_eq_true_eq, and_assoc]
  exact and_congr_right fun _ => and_congr_left fun _ => ⟨fun h r => h r (mem_allRegs r), fun h r _ => h r⟩

theorem Layout.offset_inj {L : Layout} (h : L.ok = true) {r r' : Reg} (e : L.offset r = L.offset r') : r = r' :=
  List.inj_on_of_nodup_map ((Layout.ok_iff L).mp h).2.2.1 (mem_allRegs r) (mem_allRegs r') e

section Positions
variable {L : Layout}

theorem bypPos_mem : L.bypPos ∈ L.crPositions := by simp [Layout.crPositions]

theorem enPos_mem {x : Source} (hx : x ∈ L.sources) : L.enPos.get x ∈ L.crPositions := by
  simp only [Layout.crPositions, List.mem_cons, List.mem_flatMap]
  exact .inr ⟨x, hx, by simp⟩

theorem rdyPos_mem {x : Source} (hx : x ∈ L.sources) : L.rdyPos x ∈ L.crPositions := by
  simp only [Layout.crPositions, List.mem_cons, List.mem_flatMap]
  exact .inr ⟨x, hx, by simp⟩

theorem crPos_lt (h : L.ok = true) {k : Nat} (hk : k ∈ L.crPositions) : k < 32 :=
  ((Layout.ok_iff L).mp h).2.2.2.1 k hk

theorem enPos_lt (h : L.ok = true) {x : Source} (hx : x ∈ L.sources) : L.enPos.get x < 32 := crPos_lt h (enPos_mem hx)

theorem rdyPos_lt (h : L.ok = true) {x : Source} (hx : x ∈ L.sources) : L.rdyPos x < 32 := crPos_lt h (rdyPos_mem hx)

theorem bypPos_lt (h : L.ok = true) : L.bypPos < 32 := crPos_lt h bypPos_mem

/-- The bypass position is no source's, and two sources share no position. -/
theorem crPositions_apart (h : L.ok = true) :
    (∀ x ∈ L.sources, L.bypPos ≠ L.enPos.get x ∧ L.bypPos ≠ L.rdyPos x) ∧
    ∀ x ∈ L.sources, ∀ y ∈ L.sources, x ≠ y →
      L.enPos.get x ≠ L.enPos.get y ∧ L.enPos.get x ≠ L.rdyPos y ∧ L.rdyPos x ≠ L.rdyPos y := by
  have hn := ((Layout.ok_iff L).mp h).2.2.2.2.1
  unfold Layout.crPositions at hn
  rw [List.nodup_cons, List.nodup_flatMap] at hn
  obtain ⟨hb, _, hp⟩ := hn
  refine ⟨fun x hx => ⟨fun e => hb ?_, fun e => hb ?_⟩, fun x hx y hy hne => ?_⟩
  · exact List.mem_flatMap.mpr ⟨x, hx, by simp [e]⟩
  · exact List.mem_flatMap.mpr ⟨x, hx, by simp [e]⟩
  · have hs : Std.Symm (Function.onFun List.Disjoint fun x => [L.enPos.get x, L.rdyPos x]) :=
      ⟨fun _ _ hab => List.Disjoint.symm hab⟩
    have hd := hp.forall hx hy hne
    simp only [Function.onFun, List.disjoint_cons_left, List.mem_cons, List.not_mem_nil, or_false, not_or] at hd
    exact ⟨hd.1.1, hd.1.2, hd.2.1.2⟩

theorem enPos_inj (h : L.ok = true) {x y : Source} (hx : x ∈ L.sources) (hy : y ∈ L.sources) :
    L.enPos.get x = L.enPos.get y ↔ x = y :=
  ⟨fun e => Decidable.byContradiction fun hne => ((crPositions_apart h).2 x hx y hy hne).1 e, fun e => by rw [e]⟩

theorem rdyPos_inj (h : L.ok = true) {x y : Source} (hx : x ∈ L.sources) (hy : y ∈ L.sources) :
    L.rdyPos x = L.rdyPos y ↔ x = y :=
  ⟨fun e => Decidable.byContradiction fun hne => ((crPositions_apart h).2 x hx y hy hne).2.2 e, fun e => by rw [e]⟩

theorem enPos_ne_rdyPos (h : L.ok = true) {x y : Source} (hx : x ∈ L.sources) (hy : y ∈ L.sources) :
    L.enPos.get x ≠ L.rdyPos y := by
  by_cases e : x = y
  · subst e; unfold Layout.rdyPos Config.rdyOffset; omega
  · exact ((crPositions_apart h).2 x hx y hy e).2.1

theorem bypPos_ne_enPos (h : L.ok = true) {x : Source} (hx : x ∈ L.sources) : L.bypPos ≠ L.enPos.get x :=
  ((crPositions_apart h).1 x hx).1

theorem bypPos_ne_rdyPos (h : L.ok = true) {x : Source} (hx : x ∈ L.sources) : L.bypPos ≠ L.rdyPos x :=
  ((crPositions_apart h).1 x hx).2

/-- The two fields of CFGR lie in the word and do not overlap. -/
theorem cfgrPos (h : L.ok = true) : L.swPos + 1 < 32 ∧ L.swsPos + 1 < 32 ∧ L.swPos ≠ L.swsPos ∧
    L.swPos ≠ L.swsPos + 1 ∧ L.swsPos ≠ L.swPos + 1 := by
  obtain ⟨_, _, _, _, _, h1, h2⟩ := (Layout.ok_iff L).mp h
  have h3 := h1 (L.swPos + 1) (by simp [Layout.cfgrPositions])
  have h4 := h1 (L.swsPos + 1) (by simp [Layout.cfgrPositions])
  simp only [Layout.cfgrPositions, List.nodup_cons, List.mem_cons, List.not_mem_nil, or_false, not_or] at h2
  omega

/-- The source a position names, and no other (R64). -/
theorem sourceAt_enPos (h : L.ok = true) {x : Source} (hx : x ∈ L.sources) :
    sourceAt L ((L.enPos.get x : Nat) : Int) = some x := by
  unfold sourceAt
  cases hf : L.sources.find? fun y => ((L.enPos.get y : Nat) : Int) == ((L.enPos.get x : Nat) : Int) with
  | none =>
    rw [List.find?_eq_none] at hf
    exact absurd (by simp) (hf x hx)
  | some y =>
    have he : L.enPos.get y = L.enPos.get x := by simpa using List.find?_some hf
    rw [(enPos_inj h (List.mem_of_find?_eq_some hf) hx).mp he]

theorem sourceAt_some {k : Int} {x : Source} (h : sourceAt L k = some x) :
    x ∈ L.sources ∧ ((L.enPos.get x : Nat) : Int) = k :=
  ⟨List.mem_of_find?_eq_some h, by simpa using List.find?_some h⟩

theorem sourceAt_eq_none {k : Int} : sourceAt L k = none ↔ ∀ x ∈ L.sources, ((L.enPos.get x : Nat) : Int) ≠ k := by
  unfold sourceAt
  rw [List.find?_eq_none]
  simp

/-! The canonical form, read bit by bit. -/

theorem crOther_bit {w : Word} (h : w &&& L.crAssigned = 0) {i : Nat} (hi : i ∈ L.crPositions) :
    w.getLsbD i = false := by
  by_cases hl : i < 32
  · have hb := congrArg (fun v : Word => v.getLsbD i) h
    simp only [Layout.crAssigned, BitVec.getLsbD_and, getLsbD_positionsMask, hi, hl] at hb
    simpa using hb
  · exact BitVec.getLsbD_of_ge w i (by omega)

theorem cfgrOther_bit {w : Word} (h : w &&& L.cfgrAssigned = 0) {i : Nat} (hi : i ∈ L.cfgrPositions) :
    w.getLsbD i = false := by
  by_cases hl : i < 32
  · have hb := congrArg (fun v : Word => v.getLsbD i) h
    simp only [Layout.cfgrAssigned, BitVec.getLsbD_and, getLsbD_positionsMask, hi, hl] at hb
    simpa using hb
  · exact BitVec.getLsbD_of_ge w i (by omega)

theorem crOtherMask_bit {i : Nat} (hi : i < 32) : L.crOtherMask.getLsbD i = !decide (i ∈ L.crPositions) := by
  unfold Layout.crOtherMask Layout.crAssigned
  rw [BitVec.getLsbD_not, getLsbD_positionsMask]
  simp [hi]

theorem cfgrOtherMask_bit {i : Nat} (hi : i < 32) : L.cfgrOtherMask.getLsbD i = !decide (i ∈ L.cfgrPositions) := by
  unfold Layout.cfgrOtherMask Layout.cfgrAssigned
  rw [BitVec.getLsbD_not, getLsbD_positionsMask]
  simp [hi]

theorem masked_complement (d a : Word) : (d &&& ~~~a) &&& a = 0 := by
  rw [BitVec.and_assoc, BitVec.and_comm (~~~a) a, BitVec.and_not_self]
  exact BitVec.and_zero

theorem masked_crAssigned (d : Word) : (d &&& L.crOtherMask) &&& L.crAssigned = 0 := masked_complement d _

theorem masked_cfgrAssigned (d : Word) : (d &&& L.cfgrOtherMask) &&& L.cfgrAssigned = 0 := masked_complement d _

end Positions

/-- The canonical form's clauses. -/
theorem Memory.wf_iff (P : Params) (m : Memory) : m.wf P = true ↔
    (∀ g, m.enr.get g &&& ~~~(P.enrImpl.get g) = 0) ∧ m.crOther &&& P.layout.crAssigned = 0 ∧
      m.cfgrOther &&& P.layout.cfgrAssigned = 0 ∧ m.en.extra.length = P.layout.enPos.extra.length ∧
      m.rdy.extra.length = P.layout.enPos.extra.length := by
  have hall : ∀ g, g ∈ [BusGroup.hs1, .hs2, .hs3, .p1, .p2] := by intro g; cases g <;> decide
  simp only [Memory.wf, Bool.and_eq_true, decide_eq_true_eq, and_assoc]
  exact and_congr_left fun _ => ⟨fun h g => h g (hall g), fun h g _ => h g⟩

theorem paramsWf_iff (P : Params) : paramsWf P = true ↔ P.layout.ok = true ∧
    (∀ g, P.enrReset.get g &&& ~~~(P.enrImpl.get g) = 0) ∧ P.crOtherReset &&& P.layout.crAssigned = 0 ∧
      P.cfgrOtherReset &&& P.layout.cfgrAssigned = 0 ∧ ∀ v, P.selDep.get v ∈ [Source.hsi, .hse, .pll] := by
  have hall : ∀ g, g ∈ [BusGroup.hs1, .hs2, .hs3, .p1, .p2] := by intro g; cases g <;> decide
  have hsel : (∀ x ∈ [P.selDep.v0, P.selDep.v1, P.selDep.v2, P.selDep.v3], x ∈ [Source.hsi, .hse, .pll]) ↔
      ∀ v, P.selDep.get v ∈ [Source.hsi, .hse, .pll] := by
    constructor
    · intro h v
      refine h _ ?_
      unfold PerSelector.get
      split
      · simp
      · split
        · simp
        · split <;> simp
    · intro h x hx
      simp only [List.mem_cons, List.not_mem_nil, or_false] at hx
      rcases hx with rfl | rfl | rfl | rfl
      · exact h 0
      · exact h 1
      · exact h 2
      · exact h 3
  simp only [paramsWf, Bool.and_eq_true, decide_eq_true_eq, and_assoc, hsel]
  exact and_congr_right fun _ => and_congr_left fun _ => ⟨fun h g => h g (hall g), fun h g _ => h g⟩

/-- The source a selector value depends on is one of the implementation's (R20, D4). -/
theorem selDep_mem {P : Params} (h : paramsWf P = true) (v : BitVec 2) : P.selDep.get v ∈ P.layout.sources := by
  have := ((paramsWf_iff P).mp h).2.2.2.2 v
  simp only [List.mem_cons, List.not_mem_nil, or_false] at this
  rcases this with e | e | e <;> rw [e] <;> simp

/-- An enable register in canonical form reads as it stands. -/
theorem masked_of_canonical {v i : Word} (h : v &&& ~~~i = 0) : v &&& i = v := by
  apply word_ext
  intro k hk
  have hb := congrArg (fun w : Word => w.getLsbD k) h
  simp [hk] at hb
  cases hv : v.getLsbD k <;> simp_all

/-! The word of CR, position by position (R14, R90). -/

section Words
variable {L : Layout}

theorem crWord_bit (m : Memory) {i : Nat} (hi : i < 32) : (crWord L m).getLsbD i =
    (L.sources.any (fun x => m.en.get x && decide (i = L.enPos.get x) || m.rdy.get x && decide (i = L.rdyPos x)) ||
      (m.byp && decide (i = L.bypPos) || m.crOther.getLsbD i)) := by
  unfold crWord
  induction L.sources with
  | nil => simp [-BitVec.getLsbD_eq_getElem, hi]
  | cons x l ih =>
    simp only [List.foldr_cons, BitVec.getLsbD_or, getLsbD_placeBit, ih, List.any_cons, hi, true_and, Bool.or_assoc]

theorem crWord_en (h : L.ok = true) {m : Memory} (hw : m.crOther &&& L.crAssigned = 0) {x : Source}
    (hx : x ∈ L.sources) : (crWord L m).getLsbD (L.enPos.get x) = m.en.get x := by
  rw [crWord_bit m (enPos_lt h hx), crOther_bit hw (enPos_mem hx), decide_eq_false (bypPos_ne_enPos h hx).symm]
  rw [Bool.and_false, Bool.or_false, Bool.or_false, Bool.eq_iff_iff, List.any_eq_true]
  constructor
  · rintro ⟨y, hy, hb⟩
    rw [decide_eq_false (enPos_ne_rdyPos h hx hy), Bool.and_false, Bool.or_false, Bool.and_eq_true,
      decide_eq_true_eq, enPos_inj h hx hy] at hb
    rw [hb.2]; exact hb.1
  · exact fun he => ⟨x, hx, by simp [he]⟩

theorem crWord_rdy (h : L.ok = true) {m : Memory} (hw : m.crOther &&& L.crAssigned = 0) {x : Source}
    (hx : x ∈ L.sources) : (crWord L m).getLsbD (L.rdyPos x) = m.rdy.get x := by
  rw [crWord_bit m (rdyPos_lt h hx), crOther_bit hw (rdyPos_mem hx), decide_eq_false (bypPos_ne_rdyPos h hx).symm]
  rw [Bool.and_false, Bool.or_false, Bool.or_false, Bool.eq_iff_iff, List.any_eq_true]
  constructor
  · rintro ⟨y, hy, hb⟩
    rw [decide_eq_false (enPos_ne_rdyPos h hy hx).symm, Bool.and_false, Bool.false_or, Bool.and_eq_true,
      decide_eq_true_eq, rdyPos_inj h hx hy] at hb
    rw [hb.2]; exact hb.1
  · exact fun he => ⟨x, hx, by simp [he]⟩

theorem crWord_byp (h : L.ok = true) {m : Memory} (hw : m.crOther &&& L.crAssigned = 0) :
    (crWord L m).getLsbD L.bypPos = m.byp := by
  rw [crWord_bit m (bypPos_lt h), crOther_bit hw bypPos_mem, decide_eq_true rfl, Bool.and_true, Bool.or_false]
  have hno : L.sources.any (fun x => m.en.get x && decide (L.bypPos = L.enPos.get x) ||
      m.rdy.get x && decide (L.bypPos = L.rdyPos x)) = false := by
    rw [List.any_eq_false]
    intro x hx
    simp [bypPos_ne_enPos h hx, bypPos_ne_rdyPos h hx]
  rw [hno, Bool.false_or]

theorem crWord_other_bit (m : Memory) {i : Nat} (hl : i < 32) (hi : i ∉ L.crPositions) :
    (crWord L m).getLsbD i = m.crOther.getLsbD i := by
  rw [crWord_bit m hl]
  have hb : i ≠ L.bypPos := fun e => hi (e ▸ bypPos_mem)
  have hno : L.sources.any (fun x => m.en.get x && decide (i = L.enPos.get x) ||
      m.rdy.get x && decide (i = L.rdyPos x)) = false := by
    rw [List.any_eq_false]
    intro x hx
    have h1 : i ≠ L.enPos.get x := fun e => hi (e ▸ enPos_mem hx)
    have h2 : i ≠ L.rdyPos x := fun e => hi (e ▸ rdyPos_mem hx)
    simp [h1, h2]
  rw [hno, decide_eq_false hb, Bool.and_false, Bool.false_or, Bool.false_or]

/-- The unassigned bits of a read of CR. -/
theorem crWord_other {m : Memory} (hw : m.crOther &&& L.crAssigned = 0) : crWord L m &&& L.crOtherMask = m.crOther := by
  apply word_ext
  intro i hi
  rw [BitVec.getLsbD_and, crOtherMask_bit hi]
  by_cases hp : i ∈ L.crPositions
  · simp [hp, crOther_bit hw hp]
  · simp [hp, crWord_other_bit m hi hp]

/-- Written back with any assigned positions changed, the unassigned bits of CR are as they were (R124). -/
theorem crOther_of_agree {m : Memory} (h : m.crOther &&& L.crAssigned = 0) {d : Word}
    (hd : ∀ i < 32, i ∉ L.crPositions → d.getLsbD i = (crWord L m).getLsbD i) : d &&& L.crOtherMask = m.crOther := by
  apply word_ext
  intro i hi
  rw [BitVec.getLsbD_and, crOtherMask_bit hi]
  by_cases hp : i ∈ L.crPositions
  · simp [hp, crOther_bit h hp]
  · simp [hp, hd i hi hp, crWord_other_bit m hi hp]

/-! The word of CFGR (R19, R92). -/

theorem getLsbD_placeField (v : BitVec 2) (k i : Nat) :
    (placeField v k).getLsbD i = (decide (i < 32) && !decide (i < k) && v.getLsbD (i - k)) := by
  unfold placeField
  rw [BitVec.getLsbD_shiftLeft, BitVec.getLsbD_setWidth]
  by_cases h : i < 32 <;> by_cases hk : i < k <;> simp [h, hk]
  intro hv
  have : ¬ (i - k ≥ 2) := fun hge => by simp [BitVec.getLsbD_of_ge v (i - k) hge] at hv
  omega

/-- Outside its two positions a placed field is 0. -/
theorem getLsbD_placeField_outside (v : BitVec 2) {k i : Nat} (h0 : i ≠ k) (h1 : i ≠ k + 1) :
    (placeField v k).getLsbD i = false := by
  rw [getLsbD_placeField]
  by_cases hk : i < k
  · simp [hk]
  · simp [BitVec.getLsbD_of_ge v (i - k) (by omega)]

/-- Inside them it is the value. -/
theorem getLsbD_placeField_inside (v : BitVec 2) {k j : Nat} (h : k + j < 32) :
    (placeField v k).getLsbD (k + j) = v.getLsbD j := by
  rw [getLsbD_placeField]
  simp [h]

theorem getLsbD_field2 (w : Word) (k i : Nat) : (field2 w k).getLsbD i = (decide (i < 2) && w.getLsbD (k + i)) := by
  simp [field2, BitVec.getLsbD_extractLsb']

theorem field_ext {v w : BitVec 2} (h0 : v.getLsbD 0 = w.getLsbD 0) (h1 : v.getLsbD 1 = w.getLsbD 1) : v = w := by
  apply BitVec.eq_of_getLsbD_eq
  intro i hi
  match i, hi with
  | 0, _ => exact h0
  | 1, _ => exact h1

/-- A field of a word, from its two bits. -/
theorem field2_eq {w : Word} {k : Nat} {v : BitVec 2} (h : ∀ j < 2, w.getLsbD (k + j) = v.getLsbD j) :
    field2 w k = v := by
  apply field_ext <;> rw [getLsbD_field2]
  · simpa using h 0 (by decide)
  · simpa using h 1 (by decide)

theorem swPos_mem {j : Nat} (h : j < 2) : L.swPos + j ∈ L.cfgrPositions := by
  have : j = 0 ∨ j = 1 := by omega
  rcases this with rfl | rfl <;> simp [Layout.cfgrPositions]

theorem swsPos_mem {j : Nat} (h : j < 2) : L.swsPos + j ∈ L.cfgrPositions := by
  have : j = 0 ∨ j = 1 := by omega
  rcases this with rfl | rfl <;> simp [Layout.cfgrPositions]

theorem cfgrWord_sw (h : L.ok = true) {m : Memory} (hw : m.cfgrOther &&& L.cfgrAssigned = 0) :
    field2 (cfgrWord L m) L.swPos = m.sw := by
  have hp := cfgrPos h
  refine field2_eq fun j hj => ?_
  unfold cfgrWord
  rw [BitVec.getLsbD_or, BitVec.getLsbD_or, cfgrOther_bit hw (swPos_mem hj),
    getLsbD_placeField_outside _ (by omega) (by omega), getLsbD_placeField_inside _ (by omega)]
  simp

theorem cfgrWord_sws (h : L.ok = true) {m : Memory} (hw : m.cfgrOther &&& L.cfgrAssigned = 0) :
    field2 (cfgrWord L m) L.swsPos = m.sws := by
  have hp := cfgrPos h
  refine field2_eq fun j hj => ?_
  unfold cfgrWord
  rw [BitVec.getLsbD_or, BitVec.getLsbD_or, cfgrOther_bit hw (swsPos_mem hj),
    getLsbD_placeField_inside _ (by omega), getLsbD_placeField_outside _ (by omega) (by omega)]
  simp

theorem cfgrWord_other_bit (m : Memory) {i : Nat} (hi : i ∉ L.cfgrPositions) :
    (cfgrWord L m).getLsbD i = m.cfgrOther.getLsbD i := by
  simp only [Layout.cfgrPositions, List.mem_cons, List.not_mem_nil, or_false, not_or] at hi
  unfold cfgrWord
  rw [BitVec.getLsbD_or, BitVec.getLsbD_or, getLsbD_placeField_outside _ hi.2.2.1 hi.2.2.2,
    getLsbD_placeField_outside _ hi.1 hi.2.1]
  simp

/-- The unassigned bits of a read of CFGR. -/
theorem cfgrWord_other {m : Memory} (hw : m.cfgrOther &&& L.cfgrAssigned = 0) :
    cfgrWord L m &&& L.cfgrOtherMask = m.cfgrOther := by
  apply word_ext
  intro i hi
  rw [BitVec.getLsbD_and, cfgrOtherMask_bit hi]
  by_cases hp : i ∈ L.cfgrPositions
  · simp [hp, cfgrOther_bit hw hp]
  · simp [hp, cfgrWord_other_bit m hp]

/-- Written back with only assigned positions changed, the unassigned bits of CFGR are as they were (R124). -/
theorem cfgrOther_of_agree {m : Memory} (h : m.cfgrOther &&& L.cfgrAssigned = 0) {d : Word}
    (hd : ∀ i < 32, i ∉ L.cfgrPositions → d.getLsbD i = (cfgrWord L m).getLsbD i) :
    d &&& L.cfgrOtherMask = m.cfgrOther := by
  apply word_ext
  intro i hi
  rw [BitVec.getLsbD_and, cfgrOtherMask_bit hi]
  by_cases hp : i ∈ L.cfgrPositions
  · simp [hp, cfgrOther_bit h hp]
  · simp [hp, hd i hi hp, cfgrWord_other_bit m hp]

/-- Clearing a field clears its two bits and no other (R65). -/
theorem getLsbD_clearField (t : Word) (k i : Nat) :
    (clearField t k).getLsbD i = (t.getLsbD i && !decide (i = k ∨ i = k + 1)) := by
  have h3 : ∀ j < 2, (3 : BitVec 2).getLsbD j = true := by decide
  rw [clearField, BitVec.getLsbD_and, BitVec.getLsbD_not]
  by_cases h : i < 32
  · by_cases hk : i = k ∨ i = k + 1
    · have : ∃ j < 2, i = k + j := by
        rcases hk with rfl | rfl
        · exact ⟨0, by decide, rfl⟩
        · exact ⟨1, by decide, rfl⟩
      obtain ⟨j, hj, rfl⟩ := this
      rw [getLsbD_placeField_inside _ h, h3 j hj, decide_eq_true hk]
      simp
    · rw [getLsbD_placeField_outside _ (fun e => hk (.inl e)) (fun e => hk (.inr e))]
      simp [h, hk]
  · simp [BitVec.getLsbD_of_ge t i (by omega)]

/-- Putting a value into a field (R65). -/
theorem getLsbD_orField (t : Word) (v : BitVec 2) (k i : Nat) :
    (orField t v k).getLsbD i = (t.getLsbD i || (placeField v k).getLsbD i) := by simp [orField]

end Words

end Sys2Proof.Machine
end

