-- ==== Sys2Proof/Laws/Ops.lean ====
section
/-! SUPPORT. What each operation over the register memory does, once: writes, hardware steps, access by address. -/

namespace Sys2Proof.Machine

/-! Reads after writes of enable registers. -/

theorem readReg_enr (g : BusGroup) (s : State) : readReg (.enr g) s = s.mem.enr.get g &&& s.params.enrImpl.get g := rfl

@[simp] theorem writeEnr_get_same (P : Params) (g : BusGroup) (d : Word) (m : Memory) :
    (m.writeEnr P g d).enr.get g = d &&& P.enrImpl.get g := by simp [Memory.writeEnr]

theorem writeEnr_get_other (P : Params) {g h : BusGroup} (d : Word) (m : Memory) (hne : h ≠ g) :
    (m.writeEnr P g d).enr.get h = m.enr.get h := by simp [Memory.writeEnr, PerGroup.get_set_other _ _ hne]

/-! The write of CR, field by field (R91). -/

theorem writeCr_en (P : Params) (d : Word) (m : Memory) {x : Source} (hx : x ∈ P.layout.sources) :
    (m.writeCr P d).en.get x = d.getLsbD (P.layout.enPos.get x) := PerSource.get_tabulate hx _

theorem writeCr_rdy (P : Params) (d : Word) (m : Memory) {x : Source} (hx : x ∈ P.layout.sources) :
    (m.writeCr P d).rdy.get x =
      (m.rdy.get x && (d.getLsbD (P.layout.enPos.get x) || P.readyClear != .immediate)) := PerSource.get_tabulate hx _

@[simp] theorem writeCr_en_length (P : Params) (d : Word) (m : Memory) :
    (m.writeCr P d).en.extra.length = P.layout.enPos.extra.length := PerSource.tabulate_length _ _

@[simp] theorem writeCr_rdy_length (P : Params) (d : Word) (m : Memory) :
    (m.writeCr P d).rdy.extra.length = P.layout.enPos.extra.length := PerSource.tabulate_length _ _

/-- The write of CR leaves a memory whose fields are known at every source. -/
theorem writeCr_eq {P : Params} {m n : Memory} {d : Word} (hn : n.wf P = true) (h1 : n.enr = m.enr)
    (h2 : ∀ x ∈ P.layout.sources, n.en.get x = d.getLsbD (P.layout.enPos.get x))
    (h3 : ∀ x ∈ P.layout.sources,
      n.rdy.get x = (m.rdy.get x && (d.getLsbD (P.layout.enPos.get x) || P.readyClear != .immediate)))
    (h4 : n.byp = if P.bypLock && m.en.get .hse then m.byp else d.getLsbD P.layout.bypPos)
    (h5 : n.crOther = d &&& P.layout.crOtherMask) (h6 : n.sw = m.sw) (h7 : n.sws = m.sws)
    (h8 : n.cfgrOther = m.cfgrOther) : m.writeCr P d = n := by
  obtain ⟨_, _, _, he, hr⟩ := (Memory.wf_iff P n).mp hn
  have e2 : (m.writeCr P d).en = n.en :=
    PerSource.ext_mem (writeCr_en_length P d m) he fun x hx => by rw [writeCr_en P d m hx, h2 x hx]
  have e3 : (m.writeCr P d).rdy = n.rdy :=
    PerSource.ext_mem (writeCr_rdy_length P d m) hr fun x hx => by rw [writeCr_rdy P d m hx, h3 x hx]
  cases n
  simp only [Memory.writeCr] at *
  simp_all

/-- With immediate clearing and ready sources enabled, a write-back of the enable bits as they are clears no ready bit. -/
theorem rdy_kept {P : Params} {m : Memory}
    (hr : P.readyClear = .immediate → ∀ x, m.rdy.get x = true → m.en.get x = true) (x : Source) :
    (m.rdy.get x && (m.en.get x || P.readyClear != .immediate)) = m.rdy.get x := by
  cases hx : m.rdy.get x
  · simp
  · cases hc : P.readyClear
    · simp [hr hc x hx]
    · simp

/-- Changing bits of a source keeps the canonical form. -/
theorem Memory.wf_set {P : Params} {m : Memory} (hw : m.wf P = true) (x : Source) (a b : Bool) :
    Memory.wf P { m with en := m.en.set x a } = true ∧ Memory.wf P { m with rdy := m.rdy.set x b } = true ∧
      Memory.wf P { m with en := m.en.set x a, rdy := m.rdy.set x b } = true := by
  obtain ⟨h1, h2, h3, h4, h5⟩ := (Memory.wf_iff P m).mp hw
  refine ⟨?_, ?_, ?_⟩ <;> rw [Memory.wf_iff] <;> exact ⟨h1, h2, h3, by simp [h4], by simp [h5]⟩

section WriteBack
variable {P : Params} {m : Memory}

/-- Write back CR as it reads but for the enable bit of `x` (R121, R124): set. -/
theorem writeCr_setEn (hL : P.layout.ok = true) (hw : m.wf P = true)
    (hr : P.readyClear = .immediate → ∀ x, m.rdy.get x = true → m.en.get x = true) {x : Source}
    (hx : x ∈ P.layout.sources) :
    m.writeCr P (setBit (crWord P.layout m) (P.layout.enPos.get x)) = { m with en := m.en.set x true } := by
  obtain ⟨_, hc, _, he, _⟩ := (Memory.wf_iff P m).mp hw
  have hen : ∀ y ∈ P.layout.sources, (m.en.set x true).get y =
      (setBit (crWord P.layout m) (P.layout.enPos.get x)).getLsbD (P.layout.enPos.get y) := by
    intro y hy
    rw [getLsbD_setBit, crWord_en hL hc hy, PerSource.get_set hx he]
    by_cases h : y = x
    · subst h; simp [enPos_lt hL hy]
    · simp [h, enPos_inj hL hy hx]
  refine writeCr_eq (Memory.wf_set hw x true true).1 rfl hen (fun y hy => ?_) ?_ ?_ rfl rfl rfl
  · rw [← hen y hy, PerSource.get_set hx he]
    by_cases h : y = x
    · simp [h]
    · rw [if_neg h]; exact (rdy_kept hr y).symm
  · rw [getLsbD_setBit, crWord_byp hL hc]
    simp [bypPos_ne_enPos hL hx]
  · refine (crOther_of_agree hc fun i hi hp => ?_).symm
    have h : i ≠ P.layout.enPos.get x := fun h => hp (h ▸ enPos_mem hx)
    simp [getLsbD_setBit, h]

/-- The same, cleared: the ready bit falls with it when clearing is immediate (R121, R161). -/
theorem writeCr_clearEn (hL : P.layout.ok = true) (hw : m.wf P = true)
    (hr : P.readyClear = .immediate → ∀ x, m.rdy.get x = true → m.en.get x = true) {x : Source}
    (hx : x ∈ P.layout.sources) :
    m.writeCr P (clearBit (crWord P.layout m) (P.layout.enPos.get x)) =
      { m with
        en := m.en.set x false
        rdy := if P.readyClear = .immediate then m.rdy.set x false else m.rdy } := by
  obtain ⟨_, hc, _, he, hl⟩ := (Memory.wf_iff P m).mp hw
  have hen : ∀ y ∈ P.layout.sources, (m.en.set x false).get y =
      (clearBit (crWord P.layout m) (P.layout.enPos.get x)).getLsbD (P.layout.enPos.get y) := by
    intro y hy
    rw [getLsbD_clearBit, crWord_en hL hc hy, PerSource.get_set hx he]
    by_cases h : y = x
    · subst h; simp
    · simp [h, enPos_inj hL hy hx]
  refine writeCr_eq ?_ rfl hen (fun y hy => ?_) ?_ ?_ rfl rfl rfl
  · split
    · exact (Memory.wf_set hw x false false).2.2
    · exact (Memory.wf_set hw x false false).1
  · rw [← hen y hy, PerSource.get_set hx he]
    by_cases h : y = x
    · subst h
      cases hm : P.readyClear <;> simp [PerSource.get_set_same hx hl]
    · rw [if_neg h, rdy_kept hr y]
      cases hm : P.readyClear <;> simp [PerSource.get_set_other m.rdy _ h]
  · rw [getLsbD_clearBit, crWord_byp hL hc, decide_eq_false (bypPos_ne_enPos hL hx)]
    simp
  · refine (crOther_of_agree hc fun i hi hp => ?_).symm
    have h : i ≠ P.layout.enPos.get x := fun h => hp (h ▸ enPos_mem hx)
    simp [getLsbD_clearBit, h]

/-- Write back CR as it reads but for the bypass bit (R17, R120, R124). -/
theorem writeCr_byp (hL : P.layout.ok = true) (hw : m.wf P = true)
    (hr : P.readyClear = .immediate → ∀ x, m.rdy.get x = true → m.en.get x = true) (b : Bool) :
    m.writeCr P (if b then setBit (crWord P.layout m) P.layout.bypPos else clearBit (crWord P.layout m) P.layout.bypPos) =
      { m with byp := if P.bypLock && m.en.get .hse then m.byp else b } := by
  obtain ⟨h1, hc, h3, h4, h5⟩ := (Memory.wf_iff P m).mp hw
  have hbit : ∀ i < 32, (if b then setBit (crWord P.layout m) P.layout.bypPos
      else clearBit (crWord P.layout m) P.layout.bypPos).getLsbD i =
      if i = P.layout.bypPos then b else (crWord P.layout m).getLsbD i := by
    intro i hi
    by_cases h : i = P.layout.bypPos
    · rw [if_pos h]
      cases b
      · simp only [Bool.false_eq_true, if_false, getLsbD_clearBit, h]; simp
      · simp [getLsbD_setBit, h, bypPos_lt hL]
    · rw [if_neg h]
      cases b
      · simp only [Bool.false_eq_true, if_false, getLsbD_clearBit, h]; simp
      · simp only [if_true, getLsbD_setBit, h]; simp
  have hen : ∀ y ∈ P.layout.sources, m.en.get y = (if b then setBit (crWord P.layout m) P.layout.bypPos
      else clearBit (crWord P.layout m) P.layout.bypPos).getLsbD (P.layout.enPos.get y) := by
    intro y hy
    rw [hbit _ (enPos_lt hL hy), if_neg (bypPos_ne_enPos hL hy).symm, crWord_en hL hc hy]
  refine writeCr_eq ?_ rfl hen (fun y hy => ?_) ?_ ?_ rfl rfl rfl
  · rw [Memory.wf_iff]; exact ⟨h1, hc, h3, h4, h5⟩
  · rw [← hen y hy]; exact (rdy_kept hr y).symm
  · rw [hbit _ (bypPos_lt hL), if_pos rfl]
  · refine (crOther_of_agree hc fun i hi hp => ?_).symm
    have h : i ≠ P.layout.bypPos := fun h => hp (h ▸ bypPos_mem)
    rw [hbit i hi, if_neg h]

end WriteBack

/-- Writing back the enable bits that are set disables nothing, so it is not refused (R91). -/
theorem disablesSelected_of_kept {P : Params} {m : Memory} {d : Word}
    (h : ∀ x ∈ P.layout.sources, m.en.get x = true → d.getLsbD (P.layout.enPos.get x) = true) :
    disablesSelected P d m = false := by
  unfold disablesSelected
  rw [List.any_eq_false]
  intro x hx
  cases he : m.en.get x
  · simp
  · simp [-BitVec.getLsbD_eq_getElem, h x hx he]

theorem writeReg_cr_of_kept {s : State} {d : Word}
    (h : ∀ x ∈ s.params.layout.sources, s.mem.en.get x = true → d.getLsbD (s.params.layout.enPos.get x) = true) :
    writeReg .cr d s = .next { s with mem := s.mem.writeCr s.params d } := by
  unfold writeReg
  rw [disablesSelected_of_kept h]
  cases s.params.disableSelected <;> rfl

/-! What a write can do, once (R47): it changes the register memory alone, and only in its own register's fields. -/

/-- What a write of any register leaves: `n` is reached from `m`. -/
inductive Wrote (P : Params) (m : Memory) : Reg → Memory → Prop where
  | enr (g : BusGroup) (d : Word) : Wrote P m (.enr g) (m.writeEnr P g d)
  | cr (d : Word) : Wrote P m .cr (m.writeCr P d)
  | cfgr (d : Word) : Wrote P m .cfgr (m.writeCfgr P d)

theorem writeReg_next {r : Reg} {d : Word} {s t : State} (h : writeReg r d s = .next t) :
    ∃ n, Wrote s.params s.mem r n ∧ t = { s with mem := n } := by
  cases r with
  | enr g => cases h; exact ⟨_, .enr g d, rfl⟩
  | cfgr => cases h; exact ⟨_, .cfgr d, rfl⟩
  | cr =>
    unfold writeReg at h
    cases hp : s.params.disableSelected <;> simp only [hp] at h
    · cases h; exact ⟨_, .cr d, rfl⟩
    · split at h
      · cases h
      · cases h; exact ⟨_, .cr d, rfl⟩

theorem writeReg_refused {r : Reg} {d : Word} {s : State} {e : Refusal} (h : writeReg r d s = .refused e) :
    e = .disableOfSelectedSource := by
  cases r with
  | enr g => cases h
  | cfgr => cases h
  | cr =>
    unfold writeReg at h
    cases hp : s.params.disableSelected <;> simp only [hp] at h
    · cases h
    · split at h <;> cases h
      rfl

/-! Following (R163). -/

theorem follow_cases (P : Params) (m : Memory) :
    (muxEnabled P m = true ∧ m.follow P = { m with sws := m.sw }) ∨ (muxEnabled P m = false ∧ m.follow P = m) := by
  unfold Memory.follow
  cases muxEnabled P m <;> simp

theorem followNow_cases (P : Params) (m : Memory) :
    m.followNow P = m ∨ (P.swsFollow = .immediate ∧ muxEnabled P m = true ∧ m.followNow P = { m with sws := m.sw }) := by
  unfold Memory.followNow
  cases h : P.swsFollow
  · exact .inl rfl
  · rcases follow_cases P m with ⟨h1, h2⟩ | ⟨_, h2⟩
    · exact .inr ⟨rfl, h1, h2⟩
    · exact .inl h2

@[simp] theorem followNow_enr (P : Params) (m : Memory) : (m.followNow P).enr = m.enr := by
  rcases followNow_cases P m with h | ⟨_, _, h⟩ <;> rw [h]
@[simp] theorem followNow_en (P : Params) (m : Memory) : (m.followNow P).en = m.en := by
  rcases followNow_cases P m with h | ⟨_, _, h⟩ <;> rw [h]
@[simp] theorem followNow_rdy (P : Params) (m : Memory) : (m.followNow P).rdy = m.rdy := by
  rcases followNow_cases P m with h | ⟨_, _, h⟩ <;> rw [h]
@[simp] theorem followNow_byp (P : Params) (m : Memory) : (m.followNow P).byp = m.byp := by
  rcases followNow_cases P m with h | ⟨_, _, h⟩ <;> rw [h]
@[simp] theorem followNow_crOther (P : Params) (m : Memory) : (m.followNow P).crOther = m.crOther := by
  rcases followNow_cases P m with h | ⟨_, _, h⟩ <;> rw [h]
@[simp] theorem followNow_sw (P : Params) (m : Memory) : (m.followNow P).sw = m.sw := by
  rcases followNow_cases P m with h | ⟨_, _, h⟩ <;> rw [h]
@[simp] theorem followNow_cfgrOther (P : Params) (m : Memory) : (m.followNow P).cfgrOther = m.cfgrOther := by
  rcases followNow_cases P m with h | ⟨_, _, h⟩ <;> rw [h]

/-- The status field after an immediate follow (R163). -/
theorem followNow_sws (P : Params) (m : Memory) : (m.followNow P).sws =
    if P.swsFollow = .immediate ∧ m.rdy.get (P.selDep.get m.sw) = true then m.sw else m.sws := by
  unfold Memory.followNow
  cases P.swsFollow
  · simp
  · rcases follow_cases P m with ⟨h1, h2⟩ | ⟨h1, h2⟩ <;> simp only [h2] <;>
      simp only [muxEnabled, selDep, Bool.and_eq_true, Bool.and_eq_false_iff, bne_iff_ne, bne_eq_false_iff_eq] at h1
    · simp [h1.2]
    · rcases h1 with h1 | h1 <;> simp [h1]

/-- After an immediate follow MUX has nothing left to do (R163). -/
theorem muxEnabled_followNow {P : Params} (h : P.swsFollow = .immediate) (m : Memory) :
    muxEnabled P (m.followNow P) = false := by
  unfold Memory.followNow
  simp only [h]
  rcases follow_cases P m with ⟨_, h2⟩ | ⟨h1, h2⟩ <;> rw [h2]
  · simp [muxEnabled]
  · exact h1

/-! What a hardware agent can do, once (R160 to R163, R166). -/

/-- Every way a hardware step changes the register memory. -/
theorem hardware_act_cases (P : Params) (m : Memory) (h : Hardware) :
    h.act P m = m ∨
    (∃ x, h = .osc x ∧ stabilizeEnabled P x m = true ∧ h.act P m = Memory.followNow P { m with rdy := m.rdy.set x true }) ∨
    (∃ x, h = .osc x ∧ decayEnabled P x m = true ∧ h.act P m = { m with rdy := m.rdy.set x false }) ∨
    (h = .mux ∧ muxEnabled P m = true ∧ h.act P m = { m with sws := m.sw }) := by
  cases h with
  | osc x =>
    have hact : (Hardware.osc x).act P m = m.osc P x := rfl
    rw [hact]
    unfold Memory.osc
    by_cases h1 : stabilizeEnabled P x m = true
    · exact .inr (.inl ⟨x, rfl, h1, by rw [if_pos h1]⟩)
    · by_cases h2 : decayEnabled P x m = true
      · exact .inr (.inr (.inl ⟨x, rfl, h2, by rw [if_neg h1, if_pos h2]⟩))
      · exact .inl (by rw [if_neg h1, if_neg h2])
  | mux =>
    rcases follow_cases P m with ⟨h1, h2⟩ | ⟨_, h2⟩
    · exact .inr (.inr (.inr ⟨rfl, h1, h2⟩))
    · exact .inl h2

/-! The canonical form of the register memory is kept by every operation over it (R10, R12). -/

theorem Wrote.wf {P : Params} {m n : Memory} {r : Reg} (h : Wrote P m r n) (hw : m.wf P = true) : n.wf P = true := by
  rw [Memory.wf_iff] at hw ⊢
  obtain ⟨he, hc, hf, hl⟩ := hw
  cases h with
  | enr g d =>
    refine ⟨fun h => ?_, hc, hf, hl⟩
    by_cases e : h = g
    · subst e; rw [writeEnr_get_same, BitVec.and_assoc]; simp
    · rw [writeEnr_get_other _ _ _ e]; exact he h
  | cr d => exact ⟨he, masked_crAssigned d, hf, by simp, by simp⟩
  | cfgr d =>
    unfold Memory.writeCfgr
    exact ⟨by simpa using he, by simpa using hc, by simpa using masked_cfgrAssigned d, by simpa using hl⟩

theorem Hardware.act_wf {P : Params} {m : Memory} (h : Hardware) (hw : m.wf P = true) : (h.act P m).wf P = true := by
  rw [Memory.wf_iff] at hw ⊢
  rcases hardware_act_cases P m h with h | ⟨x, _, _, h⟩ | ⟨x, _, _, h⟩ | ⟨_, _, h⟩ <;> rw [h]
  · exact hw
  · simpa using hw
  · simpa using hw
  · exact hw

theorem Memory.reset_wf {P : Params} (h : paramsWf P = true) : (Memory.reset P).wf P = true := by
  obtain ⟨_, h1, h2, h3, _⟩ := (paramsWf_iff P).mp h
  exact (Memory.wf_iff _ _).mpr ⟨h1, h2, h3, by simp [Memory.reset], by simp [Memory.reset]⟩

theorem State.reset_mem_wf : State.reset.mem.wf State.reset.params = true := by decide

/-! The two writes of SETSYS (R140, R65): the selector field cleared, then put in. -/

section Selection
variable {P : Params} {m : Memory}

theorem writeCfgr_cleared (hf : m.cfgrOther &&& P.layout.cfgrAssigned = 0) :
    m.writeCfgr P (clearField (cfgrWord P.layout m) P.layout.swPos) = Memory.followNow P { m with sw := 0 } := by
  unfold Memory.writeCfgr
  congr 2
  · refine field2_eq fun j hj => ?_
    have : P.layout.swPos + j = P.layout.swPos ∨ P.layout.swPos + j = P.layout.swPos + 1 := by omega
    rw [getLsbD_clearField, decide_eq_true this]
    simp
  · refine cfgrOther_of_agree hf fun i hi hp => ?_
    rw [getLsbD_clearField, decide_eq_false]
    · simp
    · rintro (rfl | rfl)
      · exact hp (swPos_mem (j := 0) (by decide))
      · exact hp (swPos_mem (j := 1) (by decide))

theorem writeCfgr_put (hL : P.layout.ok = true) (hf : m.cfgrOther &&& P.layout.cfgrAssigned = 0) (hs : m.sw = 0)
    (v : BitVec 2) :
    m.writeCfgr P (orField (cfgrWord P.layout m) v P.layout.swPos) = Memory.followNow P { m with sw := v } := by
  have hp := cfgrPos hL
  unfold Memory.writeCfgr
  congr 2
  · refine field2_eq fun j hj => ?_
    have h0 : (cfgrWord P.layout m).getLsbD (P.layout.swPos + j) = false := by
      have := congrArg (fun w : BitVec 2 => w.getLsbD j) ((cfgrWord_sw hL hf).trans hs)
      simp only [getLsbD_field2, hj, decide_true, Bool.true_and] at this
      simpa using this
    rw [getLsbD_orField, h0, getLsbD_placeField_inside _ (by omega), Bool.false_or]
  · refine cfgrOther_of_agree hf fun i hi h4 => ?_
    simp only [Layout.cfgrPositions, List.mem_cons, List.not_mem_nil, or_false, not_or] at h4
    rw [getLsbD_orField, getLsbD_placeField_outside _ h4.1 h4.2.1, Bool.or_false]

end Selection

/-! Access by address (R40 to R44). -/

section Addresses
variable {L : Layout}

theorem regAt_offset (h : L.ok = true) (r : Reg) : regAt L (L.offset r) = some r := by
  unfold regAt
  cases hf : allRegs.find? fun r' => L.offset r' == L.offset r with
  | none =>
    rw [List.find?_eq_none] at hf
    exact absurd (by simp) (hf r (mem_allRegs r))
  | some r' =>
    have he : L.offset r' = L.offset r := by simpa using List.find?_some hf
    rw [Layout.offset_inj h he]

theorem offset_of_regAt {off : BitVec 8} {r : Reg} (h : regAt L off = some r) : L.offset r = off := by
  have := List.find?_some h
  simpa using this

theorem sub_base_regAddr (L : Layout) (r : Reg) : regAddr L r - L.base = (L.offset r).setWidth 32 := by
  unfold regAddr
  rw [BitVec.add_comm, BitVec.add_sub_cancel]

theorem regAddr_aligned (h : L.ok = true) (r : Reg) : (regAddr L r).toNat % 4 = 0 := by
  obtain ⟨hb, ho, _⟩ := (Layout.ok_iff L).mp h
  have := ho r
  have hlt := (L.offset r).isLt
  unfold regAddr
  rw [BitVec.toNat_add, BitVec.toNat_setWidth, Nat.mod_eq_of_lt (show (L.offset r).toNat < 2 ^ 32 by omega)]
  omega

theorem low_bits_zero_iff (a : Word) : a.extractLsb' 0 2 = 0 ↔ a.toNat % 4 = 0 := by
  rw [← BitVec.toNat_inj, BitVec.extractLsb'_toNat]
  simp

theorem locate_regAddr (h : L.ok = true) (r : Reg) : locate L (regAddr L r) 4 = .ok r := by
  have hlt := (L.offset r).isLt
  unfold locate
  rw [if_neg (by decide), if_neg (not_not.mpr ((low_bits_zero_iff _).mpr (regAddr_aligned h r))), sub_base_regAddr,
    if_neg, show ((L.offset r).setWidth 32).setWidth 8 = L.offset r by simp, regAt_offset h]
  rw [BitVec.toNat_setWidth, Nat.mod_eq_of_lt (by omega)]
  omega

/-- An access reaches a register exactly when it is 4 bytes wide at that register's address (R40, R41, R42, R44). -/
theorem locate_ok_iff (h : L.ok = true) (addr : Word) (width : Nat) (r : Reg) :
    locate L addr width = .ok r ↔ width = 4 ∧ addr = regAddr L r := by
  constructor
  · intro h
    unfold locate at h
    split at h
    · cases h
    rename_i hw
    split at h
    · cases h
    split at h
    · cases h
    rename_i _ hlt
    cases hr : regAt L ((addr - L.base).setWidth 8) with
    | none => rw [hr] at h; cases h
    | some r' =>
      rw [hr] at h
      cases h
      refine ⟨Decidable.not_not.mp hw, ?_⟩
      have ho := offset_of_regAt hr
      have hlt' : (addr - L.base).toNat < 2 ^ 8 := by omega
      have : (L.offset r).setWidth 32 = addr - L.base := by
        rw [ho]
        apply BitVec.eq_of_toNat_eq
        simp only [BitVec.toNat_setWidth]
        rw [Nat.mod_eq_of_lt hlt', Nat.mod_eq_of_lt (addr - L.base).isLt]
      unfold regAddr
      rw [this, BitVec.add_comm, BitVec.sub_add_cancel]
  · rintro ⟨rfl, rfl⟩
    exact locate_regAddr h r

end Addresses

/-- A byte outside register `r` reads as before when every other register does (R43). -/
theorem byteAt_congr {s t : State} {r : Reg} (hL : s.params.layout.ok = true) (hp : t.params = s.params)
    (h : ∀ r', r' ≠ r → readReg r' t = readReg r' s) {a : Word}
    (ha : ¬ InReg s.params.layout r a) : byteAt a t = byteAt a s := by
  unfold byteAt
  rw [hp]
  cases hl : locate s.params.layout (a &&& ~~~3) 4 with
  | error e => rfl
  | ok r' =>
    have hne : r' ≠ r := by
      rintro rfl
      obtain ⟨-, hb⟩ := (locate_ok_iff hL _ _ _).mp hl
      refine ha ⟨a.extractLsb' 0 2, ?_⟩
      rw [← hb]
      have hdis : (a &&& ~~~3) &&& (a.extractLsb' 0 2).setWidth 32 = 0 := by
        apply word_ext
        intro i hi
        have h3 : ∀ i < 32, (3 : Word).getLsbD i = decide (i < 2) := by decide
        rw [BitVec.getLsbD_and, BitVec.getLsbD_and, BitVec.getLsbD_not, h3 i hi, BitVec.getLsbD_setWidth,
          BitVec.getLsbD_extractLsb']
        by_cases h2 : i < 2 <;> simp [h2]
      rw [BitVec.add_eq_or_of_and_eq_zero _ _ hdis]
      apply word_ext
      intro i hi
      have h3 : ∀ i < 32, (3 : Word).getLsbD i = decide (i < 2) := by decide
      rw [BitVec.getLsbD_or, BitVec.getLsbD_and, BitVec.getLsbD_not, h3 i hi, BitVec.getLsbD_setWidth,
        BitVec.getLsbD_extractLsb']
      by_cases h2 : i < 2 <;> simp [h2, hi]
    simp only [h r' hne]

/-- Where every register reads as before, every byte does. -/
theorem byteAt_congr_all {s t : State} (hp : t.params = s.params) (h : ∀ r, readReg r t = readReg r s) (a : Word) :
    byteAt a t = byteAt a s := by
  unfold byteAt
  rw [hp]
  cases locate s.params.layout (a &&& ~~~3) 4 <;> simp [h]

end Sys2Proof.Machine
end

