-- ==== Sys2Proof/Laws/PerInstr.lean ====
section
/-! SUPPORT. Per instruction: the words of a well-formed instruction match its own row of the opcode table (R68). -/

namespace Sys2Proof.Laws.OpcodeRow

/-- Under every layout the encoding of `i` matches the row of the table of R68 that bears its mnemonic. -/
def Statement (i : Instr) : Prop :=
  ∀ L : Layout, Instr.wellFormed L i = true →
    match encode L i with
    | .cmd w => ∃ r ∈ cmdRows, r.mnemonic = i.mnemonic ∧ w &&& r.mask = r.mtch
    | .bus desc _ => (i.mnemonic, desc) ∈ busRowsOf L
    | .text _ => False

theorem descriptor_eq (L : Layout) (b : Bool) (r : Reg) :
    descriptor L b r = (if b then (0x80 : BitVec 8) else 0x00) ++ L.offset r := by cases b <;> rfl

theorem read_row {L : Layout} {m : String} {r : Reg} (h : (m, (0x00 : BitVec 8) ++ L.offset r) ∈ busRowsOf L) :
    (m, descriptor L false r) ∈ busRowsOf L := by rw [descriptor_eq]; exact h

theorem write_row {L : Layout} {m : String} {r : Reg} (h : (m, (0x80 : BitVec 8) ++ L.offset r) ∈ busRowsOf L) :
    (m, descriptor L true r) ∈ busRowsOf L := by rw [descriptor_eq]; exact h

theorem rdCr : Statement .rdCr := fun L _ => read_row (L := L) (r := .cr) (by simp [busRowsOf, Layout.offset, Instr.mnemonic])
theorem wrCr (d : Word) : Statement (.wrCr d) := fun L _ =>
  write_row (L := L) (r := .cr) (by simp [busRowsOf, Layout.offset, Instr.mnemonic])
theorem rdCfgr : Statement .rdCfgr := fun L _ => read_row (L := L) (r := .cfgr) (by simp [busRowsOf, Layout.offset, Instr.mnemonic])
theorem wrCfgr (d : Word) : Statement (.wrCfgr d) := fun L _ =>
  write_row (L := L) (r := .cfgr) (by simp [busRowsOf, Layout.offset, Instr.mnemonic])
theorem rdEnrHs1 : Statement .rdEnrHs1 := fun L _ => read_row (L := L) (r := (.enr .hs1)) (by simp [busRowsOf, Layout.offset, PerGroup.get, Instr.mnemonic])
theorem wrEnrHs1 (d : Word) : Statement (.wrEnrHs1 d) := fun L _ =>
  write_row (L := L) (r := (.enr .hs1)) (by simp [busRowsOf, Layout.offset, PerGroup.get, Instr.mnemonic])
theorem rdEnrHs2 : Statement .rdEnrHs2 := fun L _ => read_row (L := L) (r := (.enr .hs2)) (by simp [busRowsOf, Layout.offset, PerGroup.get, Instr.mnemonic])
theorem wrEnrHs2 (d : Word) : Statement (.wrEnrHs2 d) := fun L _ =>
  write_row (L := L) (r := (.enr .hs2)) (by simp [busRowsOf, Layout.offset, PerGroup.get, Instr.mnemonic])
theorem rdEnrHs3 : Statement .rdEnrHs3 := fun L _ => read_row (L := L) (r := (.enr .hs3)) (by simp [busRowsOf, Layout.offset, PerGroup.get, Instr.mnemonic])
theorem wrEnrHs3 (d : Word) : Statement (.wrEnrHs3 d) := fun L _ =>
  write_row (L := L) (r := (.enr .hs3)) (by simp [busRowsOf, Layout.offset, PerGroup.get, Instr.mnemonic])
theorem rdEnrP1 : Statement .rdEnrP1 := fun L _ => read_row (L := L) (r := (.enr .p1)) (by simp [busRowsOf, Layout.offset, PerGroup.get, Instr.mnemonic])
theorem wrEnrP1 (d : Word) : Statement (.wrEnrP1 d) := fun L _ =>
  write_row (L := L) (r := (.enr .p1)) (by simp [busRowsOf, Layout.offset, PerGroup.get, Instr.mnemonic])
theorem rdEnrP2 : Statement .rdEnrP2 := fun L _ => read_row (L := L) (r := (.enr .p2)) (by simp [busRowsOf, Layout.offset, PerGroup.get, Instr.mnemonic])
theorem wrEnrP2 (d : Word) : Statement (.wrEnrP2 d) := fun L _ =>
  write_row (L := L) (r := (.enr .p2)) (by simp [busRowsOf, Layout.offset, PerGroup.get, Instr.mnemonic])

theorem gate_row {o : Opc} {r : Row} (h : ∀ a : BitVec 5,
    (o.code ++ (0 : BitVec 11) ++ BitVec.ofInt 5 0 ++ (0 : BitVec 3) ++ a : Word) &&& r.mask = r.mtch) (p : Int) :
    commandWord o 0 p &&& r.mask = r.mtch := h _

theorem enclkHs1 (p : Int) : Statement (.enclkHs1 p) := fun _ _ =>
  ⟨⟨"ENCLK.HS1", 0x10000000, 0xFFFFFFE0⟩, by decide, rfl, gate_row (o := .enclk .hs1) (by decide) p⟩
theorem enclkHs2 (p : Int) : Statement (.enclkHs2 p) := fun _ _ =>
  ⟨⟨"ENCLK.HS2", 0x11000000, 0xFFFFFFE0⟩, by decide, rfl, gate_row (o := .enclk .hs2) (by decide) p⟩
theorem enclkHs3 (p : Int) : Statement (.enclkHs3 p) := fun _ _ =>
  ⟨⟨"ENCLK.HS3", 0x12000000, 0xFFFFFFE0⟩, by decide, rfl, gate_row (o := .enclk .hs3) (by decide) p⟩
theorem enclkP1 (p : Int) : Statement (.enclkP1 p) := fun _ _ =>
  ⟨⟨"ENCLK.P1", 0x13000000, 0xFFFFFFE0⟩, by decide, rfl, gate_row (o := .enclk .p1) (by decide) p⟩
theorem enclkP2 (p : Int) : Statement (.enclkP2 p) := fun _ _ =>
  ⟨⟨"ENCLK.P2", 0x14000000, 0xFFFFFFE0⟩, by decide, rfl, gate_row (o := .enclk .p2) (by decide) p⟩
theorem disclkHs1 (p : Int) : Statement (.disclkHs1 p) := fun _ _ =>
  ⟨⟨"DISCLK.HS1", 0x18000000, 0xFFFFFFE0⟩, by decide, rfl, gate_row (o := .disclk .hs1) (by decide) p⟩
theorem disclkHs2 (p : Int) : Statement (.disclkHs2 p) := fun _ _ =>
  ⟨⟨"DISCLK.HS2", 0x19000000, 0xFFFFFFE0⟩, by decide, rfl, gate_row (o := .disclk .hs2) (by decide) p⟩
theorem disclkHs3 (p : Int) : Statement (.disclkHs3 p) := fun _ _ =>
  ⟨⟨"DISCLK.HS3", 0x1A000000, 0xFFFFFFE0⟩, by decide, rfl, gate_row (o := .disclk .hs3) (by decide) p⟩
theorem disclkP1 (p : Int) : Statement (.disclkP1 p) := fun _ _ =>
  ⟨⟨"DISCLK.P1", 0x1B000000, 0xFFFFFFE0⟩, by decide, rfl, gate_row (o := .disclk .p1) (by decide) p⟩
theorem disclkP2 (p : Int) : Statement (.disclkP2 p) := fun _ _ =>
  ⟨⟨"DISCLK.P2", 0x1C000000, 0xFFFFFFE0⟩, by decide, rfl, gate_row (o := .disclk .p2) (by decide) p⟩

theorem setbyp (enabled : Int) : Statement (.setbyp enabled) := fun _ h => by
  have hb : enabled = 1 ∨ enabled = 0 := by
    simp only [Instr.wellFormed, Machine.boolAt] at h
    split at h
    · exact .inl ‹_›
    · split at h
      · exact .inr ‹_›
      · cases h
  refine ⟨⟨"SETBYP", 0x20000000, 0xFFFFFFFE⟩, by decide, rfl, ?_⟩
  rcases hb with rfl | rfl <;> decide

/-- A word made of a code, a source field and an argument matches a row that leaves the source field free. -/
theorem source_row {c : BitVec 8} {b : BitVec 5} {r : Row}
    (h : ∀ a : BitVec 5, (c ++ (0 : BitVec 11) ++ a ++ (0 : BitVec 3) ++ b : Word) &&& r.mask = r.mtch) (k : Int) :
    (c ++ (0 : BitVec 11) ++ BitVec.ofInt 5 k ++ (0 : BitVec 3) ++ b : Word) &&& r.mask = r.mtch := h _

theorem setclk (source status : Int) : Statement (.setclk source status) := fun _ h => by
  simp only [Instr.wellFormed, Bool.and_eq_true] at h
  have hb : status = 1 ∨ status = 0 := by
    have h2 := h.2
    simp only [Machine.boolAt] at h2
    split at h2
    · exact .inl ‹_›
    · split at h2
      · exact .inr ‹_›
      · cases h2
  refine ⟨⟨"SETCLK", 0x21000000, 0xFFFFE0FE⟩, by decide, rfl, ?_⟩
  rcases hb with rfl | rfl
  · exact source_row (c := 0x21) (b := 1) (by decide) source
  · exact source_row (c := 0x21) (b := 0) (by decide) source

theorem getclk (source : Int) : Statement (.getclk source) := fun _ _ => by
  refine ⟨⟨"GETCLK", 0x22000000, 0xFFFFE0FF⟩, by decide, rfl, ?_⟩
  exact source_row (c := 0x22) (b := 0) (by decide) source

theorem setsys (target : Int) : Statement (.setsys target) := fun _ h => by
  have hv : target = 0 ∨ target = 1 ∨ target = 2 ∨ target = 3 := by
    simp only [Instr.wellFormed, Machine.selectorOk, Bool.and_eq_true, decide_eq_true_eq] at h
    omega
  refine ⟨⟨"SETSYS", 0x23000000, 0xFFFFFFFC⟩, by decide, rfl, ?_⟩
  rcases hv with rfl | rfl | rfl | rfl <;> decide

theorem getsys : Statement .getsys := fun _ _ => ⟨⟨"GETSYS", 0x24000000, 0xFFFFFFFF⟩, by decide, rfl, by decide⟩

end Sys2Proof.Laws.OpcodeRow
end

