-- ==== Sys2Proof/Laws/Decode.lean ====
section
/-! SUPPORT. What the decoder reads from a descriptor and from the fields of a command word, and what an accepted word
looks like (R61, R62, R68, R69). -/

namespace Sys2Proof

open Machine

/-! Descriptors. -/

theorem descriptor_fields (L : Layout) (b : Bool) (r : Reg) : (descriptor L b r).extractLsb' 0 8 = L.offset r ∧
    (descriptor L b r).extractLsb' 8 7 = 0 ∧ (descriptor L b r).getLsbD 15 = b := by
  unfold descriptor
  refine ⟨?_, ?_, ?_⟩
  · apply BitVec.eq_of_getLsbD_eq
    intro i hi
    simp only [BitVec.getLsbD_extractLsb', BitVec.getLsbD_append, Nat.zero_add, hi, if_true, decide_true, Bool.true_and]
  · apply BitVec.eq_of_getLsbD_eq
    intro i hi
    simp only [BitVec.getLsbD_extractLsb', BitVec.getLsbD_append]
    interval_cases i <;> simp
  · simp only [BitVec.getLsbD_append, BitVec.getLsbD_ofBool]
    simp

theorem decodeBus_descriptor {L : Layout} (hL : L.ok = true) (b : Bool) (r : Reg) (d : Word) :
    decodeBus L (descriptor L b r) d = .ok (if b then writeOf d r else readOf r) := by
  obtain ⟨h1, h2, h3⟩ := descriptor_fields L b r
  simp only [decodeBus, h1, h2, h3, regAt_offset hL]
  rfl

/-- An accepted descriptor is that of a register's read or write. -/
theorem decodeBus_ok {L : Layout} {desc : BitVec 16} {d : Word} {i : Instr} (h : decodeBus L desc d = .ok i) :
    ∃ b r, desc = descriptor L b r ∧ i = if b then writeOf d r else readOf r := by
  unfold decodeBus at h
  dsimp only at h
  split at h
  · cases h
  · rename_i hz
    push Not at hz
    cases hr : regAt L (desc.extractLsb' 0 8) with
    | none => rw [hr] at h; cases h
    | some r =>
      rw [hr] at h
      cases h
      refine ⟨desc.getLsbD 15, r, ?_, rfl⟩
      unfold descriptor
      rw [offset_of_regAt hr, ← hz]
      apply BitVec.eq_of_getLsbD_eq
      intro i hi
      simp only [BitVec.getLsbD_append, BitVec.getLsbD_extractLsb', BitVec.getLsbD_ofBool]
      interval_cases i <;> simp

/-! Command words. -/

/-- The fields of a command word made of its fields (R62). -/
theorem command_fields (c : BitVec 8) (a b : BitVec 5) (w : Word)
    (hw : w = c ++ (0 : BitVec 11) ++ a ++ (0 : BitVec 3) ++ b) :
    w.extractLsb' 24 8 = c ∧ w.extractLsb' 13 11 = 0 ∧ w.extractLsb' 8 5 = a ∧ w.extractLsb' 5 3 = 0 ∧
      w.extractLsb' 0 5 = b := by
  subst hw
  refine ⟨?_, ?_, ?_, ?_, ?_⟩ <;>
  · apply BitVec.eq_of_getLsbD_eq
    intro i hi
    simp only [BitVec.getLsbD_extractLsb', BitVec.getLsbD_append]
    interval_cases i <;> simp

/-- A word is the concatenation of its five fields (R62). -/
theorem word_of_fields (w : Word) : w =
    (w.extractLsb' 24 8 ++ w.extractLsb' 13 11 ++ w.extractLsb' 8 5 ++ w.extractLsb' 5 3 ++ w.extractLsb' 0 5 : Word) := by
  apply BitVec.eq_of_getLsbD_eq
  intro i hi
  simp only [BitVec.getLsbD_extractLsb', BitVec.getLsbD_append]
  interval_cases i <;> simp

theorem opcAt_code (o : Opc) : opcAt o.code = some o := by
  cases o <;> (try (rename_i g; cases g)) <;> decide

theorem code_of_opcAt {b : BitVec 8} {o : Opc} (h : opcAt b = some o) : o.code = b := by
  have := List.find?_some h
  simpa using this

/-- What the decoder reads from the fields of a command word. -/
theorem decodeCmd_command {L : Layout} (o : Opc) (a b : BitVec 5) (h1 : b >>> o.argBits = 0) (h2 : o.hasSource = false → a = 0)
    (h3 : o.hasSource = true → sourceAt L a.toNat ≠ none) :
    decodeCmd L (o.code ++ (0 : BitVec 11) ++ a ++ (0 : BitVec 3) ++ b) = .ok (o.instr a.toNat b.toNat) := by
  obtain ⟨f1, f2, f3, f4, f5⟩ := command_fields o.code a b _ rfl
  unfold decodeCmd
  simp only [f1, f2, f3, f4, f5, opcAt_code]
  rw [if_neg, if_neg]
  · rintro ⟨ha, hb⟩; exact h3 ha hb
  · rintro (h | h | h | ⟨h, h'⟩)
    · exact h rfl
    · exact h rfl
    · exact h h1
    · exact h' (h2 h)

/-- What an accepted command word looks like. -/
theorem decodeCmd_ok {L : Layout} {w : Word} {i : Instr} (h : decodeCmd L w = .ok i) :
    ∃ o : Opc, w = o.code ++ (0 : BitVec 11) ++ w.extractLsb' 8 5 ++ (0 : BitVec 3) ++ w.extractLsb' 0 5 ∧
      w.extractLsb' 0 5 >>> o.argBits = 0 ∧ (o.hasSource = false → w.extractLsb' 8 5 = 0) ∧
      (o.hasSource = true → sourceAt L (w.extractLsb' 8 5).toNat ≠ none) ∧
      i = o.instr (w.extractLsb' 8 5).toNat (w.extractLsb' 0 5).toNat := by
  unfold decodeCmd at h
  dsimp only at h
  cases ho : opcAt (w.extractLsb' 24 8) with
  | none => rw [ho] at h; cases h
  | some o =>
    rw [ho] at h
    dsimp only at h
    split at h
    · cases h
    · rename_i hz
      push Not at hz
      split at h
      · cases h
      · rename_i hs
        push Not at hs
        cases h
        refine ⟨o, ?_, hz.2.2.1, hz.2.2.2, fun hh => hs hh, rfl⟩
        have hw := word_of_fields w
        rw [hz.1, hz.2.1, ← code_of_opcAt ho] at hw
        exact hw

/-- The peripheral identifiers in range are the ones five bits hold (R63). -/
theorem toNat_ofInt5 {p : Int} (h : 0 ≤ p) (h' : p ≤ 31) : ((BitVec.ofInt 5 p).toNat : Int) = p := by
  rw [BitVec.toNat_ofInt]; omega

theorem ofInt5_toNat : ∀ c : BitVec 5, BitVec.ofInt 5 (c.toNat : Int) = c := by decide

end Sys2Proof
end

