-- ==== Sys2Proof/Laws/Sequencer.lean ====
section
/-! SUPPORT. What a primitive of SEQ can do, once; how SEQ's turns follow each other; runs without interference. -/

namespace Sys2Proof.Machine

/-- The register an operation writes, if it writes one. -/
def writtenReg (q : SeqState) : Option Reg :=
  match q.op with
  | .enclk | .disclk => some (.enr q.g)
  | .setbyp | .setclk => some .cr
  | .setsys => some .cfgr
  | .getclk | .getsys => none

/-- Everything one primitive can do: it reads into the latches and moves on or stays, writes the operation's register
and moves on, or returns. -/
theorem seqStep_cases {s t : State} (h : seqStep s = .next t) :
    (∃ t' u' k, s.seq.upc ≤ k ∧ k ≤ s.seq.upc + 1 ∧ s.seq.upc < lastUpc s.seq.op ∧
      t = { s with seq := { s.seq with t := t', u := u', upc := k } }) ∨
    (∃ r n, writtenReg s.seq = some r ∧ Wrote s.params s.mem r n ∧ s.seq.upc < lastUpc s.seq.op ∧
      t = { s with mem := n, seq := { s.seq with upc := s.seq.upc + 1 } }) ∨
    (∃ v, 0 < s.seq.upc ∧
      t = { s with seq := { s.seq with busy := false, upc := 0, res := v, resDefined := true } }) := by
  obtain ⟨mem, ⟨busy, op, upc, tt, uu, g, p, src, flag, target, res, rd⟩, params, latches, issuer, sched, program⟩ := s
  have hstore : ∀ {r d} {s t : State}, store r d s = .next t → ∃ n, Wrote s.params s.mem r n ∧
      t = { s with mem := n, seq := { s.seq with upc := s.seq.upc + 1 } } := by
    intro r d s t hs
    obtain ⟨s1, h1, h2⟩ := andThen_eq_next hs
    obtain ⟨n, hn, rfl⟩ := writeReg_next h1
    cases h2
    exact ⟨n, hn, rfl⟩
  cases op <;> simp only [seqStep, stepEnclk, stepDisclk, stepSetbyp, stepSetclk, stepGetclk, stepSetsys, stepGetsys] at h <;>
    (repeat' split at h) <;>
    first
      | (cases h; exact .inl ⟨_, _, _, Nat.le_succ _, Nat.le_refl _, by simp_all [lastUpc], rfl⟩)
      | (obtain ⟨n, hn, rfl⟩ := hstore h
         exact .inr (.inl ⟨_, n, rfl, hn, by simp_all [lastUpc], rfl⟩))
      | (cases h; exact .inr (.inr ⟨_, by simp_all; try omega, rfl⟩))
      | (cases h
         refine .inl ⟨_, _, _, ?_, ?_, by simp [lastUpc], rfl⟩ <;> (dsimp only; split <;> omega))

/-- A primitive is refused only by a write of CR under the policy `refuse` (R91). -/
theorem seqStep_refused {s : State} {e : Refusal} (h : seqStep s = .refused e) : e = .disableOfSelectedSource := by
  have hstore : ∀ {r d} {s : State}, store r d s = .refused e → e = .disableOfSelectedSource := by
    intro r d s hs
    rcases andThen_eq_refused hs with h1 | ⟨_, _, h2⟩
    · exact writeReg_refused h1
    · cases h2
  unfold seqStep at h
  cases hop : s.seq.op <;> simp only [hop, stepEnclk, stepDisclk, stepSetbyp, stepSetclk, stepGetclk, stepSetsys,
    stepGetsys] at h <;> (repeat' split at h) <;> first | cases h | exact hstore h

/-! SEQ's turns. -/

/-- `t` differs from `s` only in the sequencer, the schedule and, for a writing operation, its register. -/
structure Ran (s t : State) : Prop where
  params : t.params = s.params
  latches : t.latches = s.latches
  issuer : t.issuer = s.issuer
  program : t.program = s.program
  sched : ∃ k, t.sched = s.sched.drop k

/-- A property of the state that passing a turn and every primitive of a busy SEQ keep holds after its turns. -/
theorem runSeq_induct {P : State → Prop}
    (hP : ∀ s t, s.seq.busy = true → P s → seqStep (passTurn s) = .next t → P t) :
    ∀ n {s t : State}, runSeq n s = .next t → P s → P t := by
  intro n
  induction n with
  | zero => intro s t h hs; cases h; exact hs
  | succ n ih =>
    intro s t h hs
    unfold runSeq at h
    split at h
    · rename_i hb
      rw [Bool.and_eq_true] at hb
      obtain ⟨s', h1, h2⟩ := andThen_eq_next h
      have hs' := hP s s' hb.1 hs h1
      split at h2
      · cases h2; exact hs'
      · exact ih h2 hs'
    · cases h; exact hs

theorem runSeq_refused : ∀ n {s : State} {e : Refusal}, runSeq n s = .refused e → e = .disableOfSelectedSource := by
  intro n
  induction n with
  | zero => intro s e h; cases h
  | succ n ih =>
    intro s e h
    unfold runSeq at h
    split at h
    · rcases andThen_eq_refused h with h1 | ⟨s', _, h2⟩
      · exact seqStep_refused h1
      · split at h2
        · cases h2
        · exact ih h2
    · cases h

/-- SEQ's turns leave the parameters, the contexts' latches and the caller's program, and use up turns in order. -/
theorem runSeq_ran (n : Nat) {s t : State} (h : runSeq n s = .next t) : Ran s t := by
  refine runSeq_induct (P := Ran s) ?_ n h ⟨rfl, rfl, rfl, rfl, 0, rfl⟩
  intro a b _ hr hab
  obtain ⟨k, hk⟩ := hr.sched
  have hsched : ∃ k, (passTurn a).sched = s.sched.drop k := ⟨k + 1, by simp [hk]⟩
  rcases seqStep_cases hab with ⟨_, _, _, _, _, _, rfl⟩ | ⟨_, _, _, _, _, rfl⟩ | ⟨_, _, rfl⟩ <;>
    exact ⟨hr.params, hr.latches, hr.issuer, hr.program, hsched⟩

/-! Runs without interference (R53, R165). -/

theorem Undisturbed.mono {m n : Nat} {s : State} (h : Undisturbed n s) (hmn : m ≤ n) : Undisturbed m s :=
  fun x hx => h x (List.take_subset_take_left _ hmn hx)

theorem Undisturbed.next {n : Nat} {s : State} (h : Undisturbed (n + 1) s) : seqIsNext s = true := by
  unfold seqIsNext
  rcases hs : s.sched with _ | ⟨a, l⟩
  · rfl
  · have ha : a = .seq := h a (by simp [hs])
    subst ha; rfl

theorem Undisturbed.tail {n : Nat} {s t : State} (h : Undisturbed (n + 1) s) (ht : t.sched = s.sched.tail) :
    Undisturbed n t := by
  intro x hx
  rw [ht] at hx
  refine h x ?_
  rcases hs : s.sched with _ | ⟨a, l⟩
  · simp [hs] at hx
  · rw [hs] at hx
    simp only [List.tail_cons] at hx
    simp [hx]

/-- One primitive of an undisturbed SEQ that moves `upc`. -/
theorem runSeq_step {n : Nat} {s s' : State} (hb : s.seq.busy = true) (hn : seqIsNext s = true)
    (hs : seqStep (passTurn s) = .next s') (hu : s'.seq.upc ≠ s.seq.upc) : runSeq (n + 1) s = runSeq n s' := by
  rw [runSeq, hb, hn, hs]
  simp [hu]

/-- One iteration of the poll that does not see the ready bit ends SEQ's turns for now. -/
theorem runSeq_wait {n : Nat} {s s' : State} (hb : s.seq.busy = true) (hn : seqIsNext s = true)
    (hs : seqStep (passTurn s) = .next s') (hu : s'.seq.upc = s.seq.upc) : runSeq (n + 1) s = .next s' := by
  rw [runSeq, hb, hn, hs]
  simp [hu]

theorem runSeq_idle (n : Nat) {s : State} (hb : s.seq.busy = false) : runSeq n s = .next s := by
  cases n with
  | zero => rfl
  | succ n => rw [runSeq, hb]; rfl

theorem runSeq_other (n : Nat) {s : State} (hn : seqIsNext s = false) : runSeq n s = .next s := by
  cases n with
  | zero => rfl
  | succ n => rw [runSeq, hn, Bool.and_false]; rfl

/-- One primitive of an undisturbed SEQ, and what is left of the run (R48, R165). -/
theorem runSeq_undisturbed {n m : Nat} {s s' : State} {r : Result} (hb : s.seq.busy = true) (hu : Undisturbed (m + 1) s)
    (hs : seqStep (passTurn s) = .next s') (hne : s'.seq.upc ≠ s.seq.upc) (hsched : s'.sched = s.sched.tail)
    (h : Undisturbed m s' → runSeq n s' = r) : runSeq (n + 1) s = r :=
  (runSeq_step hb hu.next hs hne).trans (h (hu.tail hsched))

theorem Undisturbed.congr {n : Nat} {s t : State} (h : Undisturbed n s) (ht : t.sched = s.sched) : Undisturbed n t := by
  unfold Undisturbed
  rw [ht]
  exact h

/-- A refused primitive refuses the run. -/
theorem runSeq_stop {n : Nat} {s : State} {e : Refusal} (hb : s.seq.busy = true) (hn : seqIsNext s = true)
    (hs : seqStep (passTurn s) = .refused e) : runSeq (n + 1) s = .refused e := by
  rw [runSeq, hb, hn, hs]
  rfl

theorem whenIdle_idle {s : State} {k : State → Result} (h : s.seq.busy = false) : whenIdle s k = k s := by
  unfold whenIdle
  rw [h]
  rfl

theorem whenIdle_busy {s : State} {k : State → Result} (h : s.seq.busy = true) :
    whenIdle s k = .refused .commandWhileBusy := by
  unfold whenIdle
  rw [h]
  rfl

/-! Primitives that write and that poll. -/

theorem store_next {r : Reg} {d : Word} {s s' : State} (e : writeReg r d s = .next s') :
    store r d s = .next { s' with seq := { s'.seq with upc := s'.seq.upc + 1 } } := by
  unfold store
  rw [e]
  rfl

/-- A write of CR that disables no source is not refused under any policy (R91). -/
theorem store_cr_kept {s : State} {d : Word} {n : Memory}
    (h : ∀ x ∈ s.params.layout.sources, s.mem.en.get x = true → d.getLsbD (s.params.layout.enPos.get x) = true)
    (e : s.mem.writeCr s.params d = n) :
    store .cr d s = .next { s with mem := n, seq := { s.seq with upc := s.seq.upc + 1 } } := by
  rw [store_next (writeReg_cr_of_kept h), e]

/-- The primitive of a polling SEQ (R121). -/
theorem seqStep_polling {x : Source} {s : State} (hp : Polling x s) :
    seqStep s = poll (s.params.layout.rdyPos x) s := by
  obtain ⟨_, ho, hf, hx, hu⟩ := hp
  simp only [seqStep, ho, stepSetclk, hu, hf, hx, if_true]

/-- The bit a poll iteration reads is the ready bit of its source (R64, R90). -/
theorem crWord_rdy_of_wf {s : State} (hw : s.wf) {x : Source} (hx : x ∈ s.params.layout.sources) :
    (crWord s.params.layout s.mem).getLsbD (s.params.layout.rdyPos x) = s.mem.rdy.get x :=
  crWord_rdy ((paramsWf_iff _).mp hw.1).1 ((Memory.wf_iff _ _).mp hw.2).2.1 hx

theorem seqStep_polling_wait {x : Source} {s : State} (hw : s.wf) (hx : x ∈ s.params.layout.sources) (hp : Polling x s)
    (hr : s.mem.rdy.get x = false) :
    seqStep s = .next { s with seq := { s.seq with u := crWord s.params.layout s.mem } } := by
  rw [seqStep_polling hp]
  unfold poll
  dsimp only [readReg]
  rw [crWord_rdy_of_wf hw hx, hr]
  rfl

theorem seqStep_polling_ready {x : Source} {s : State} (hw : s.wf) (hx : x ∈ s.params.layout.sources) (hp : Polling x s)
    (hr : s.mem.rdy.get x = true) :
    seqStep s = .next { s with seq := { s.seq with u := crWord s.params.layout s.mem, upc := s.seq.upc + 1 } } := by
  rw [seqStep_polling hp]
  unfold poll
  dsimp only [readReg]
  rw [crWord_rdy_of_wf hw hx, hr]
  rfl

end Sys2Proof.Machine
end

