-- ==== Sys2Proof/Laws/Turns.lean ====
section
/-! SUPPORT. Everything one step of the machine can do, once: a chain of atomic events (R48), each of one agent. A
property that every event keeps is kept by every step. -/

namespace Sys2Proof.Machine

/-- The latches as a turn leaves them: as they were, or one context's own latch replaced (R191). -/
def Delivered (s : State) (l : Latches) : Prop := l = s.latches ∨ ∃ c w, l = s.latches.set c w

theorem Delivered.wf {s : State} {l : Latches} (h : Delivered s l) (hw : s.latches.wf = true) : l.wf = true := by
  rcases h with rfl | ⟨c, w, rfl⟩
  · exact hw
  · exact Latches.set_wf hw c w

/-- One atomic event of the total order of R48, or a change of the model's inputs. -/
inductive Event : State → State → Prop where
  /-- A turn passes, the caller's next packet is taken, a context takes the bus port or a word it has read. -/
  | inputs {s : State} {latches : Latches} (hl : Delivered s latches) (issuer : Context) (sched : List Turn)
      (program : List Packet) :
      Event s { s with latches := latches, issuer := issuer, sched := sched, program := program }
  /-- A hardware agent's turn (R160 to R163). -/
  | hardware {s : State} (h : Hardware) : Event s (hardwareStep h s)
  /-- A raw write (R47). -/
  | write {s : State} {r : Reg} {n : Memory} (hn : Wrote s.params s.mem r n) : Event s { s with mem := n }
  /-- A primitive of the operation in progress (R27). -/
  | primitive {s t : State} (hb : s.seq.busy = true) (hs : seqStep s = .next t) : Event s t
  /-- The command port accepts an operation (R8). -/
  | accepted {s : State} (q : SeqState) (hidle : s.seq.busy = false) (hb : q.busy = true) (hu : q.upc = 0)
      (hx : s.seq.src ∈ s.params.layout.sources → q.src ∈ s.params.layout.sources)
      (hr : q.res = s.seq.res) (hd : q.resDefined = s.seq.resDefined) : Event s { s with seq := q }
  /-- A selection outside 0 to 3 returns the sentinel (R72). -/
  | sentinel {s : State} (hidle : s.seq.busy = false) :
      Event s { s with seq := { s.seq with busy := false, upc := 0, res := refusedSelection, resDefined := true } }
  /-- The RESET event (R200). -/
  | reset {s : State} : Event s (resetEvent s)

/-- A chain of events. -/
inductive Events : State → State → Prop where
  | refl (s : State) : Events s s
  | tail {s t u : State} (h : Events s t) (e : Event t u) : Events s u

theorem Events.single {s t : State} (e : Event s t) : Events s t := (Events.refl s).tail e

theorem Events.trans {s t u : State} (h : Events s t) (h' : Events t u) : Events s u := by
  induction h' with
  | refl => exact h
  | tail _ e ih => exact ih.tail e

/-- A property that every event keeps is kept along a chain. -/
theorem Events.keeps {P : State → Prop} (hP : ∀ a b, Event a b → P a → P b) {s t : State} (h : Events s t) (hs : P s) :
    P t := by
  induction h with
  | refl => exact hs
  | tail _ e ih => exact hP _ _ e ih

theorem passTurn_event (s : State) : Event s (passTurn s) := Event.inputs (.inl rfl) s.issuer s.sched.tail s.program

theorem runSeq_events (n : Nat) {s t : State} (h : runSeq n s = .next t) : Events s t := by
  refine runSeq_induct (P := Events s) ?_ n h (Events.refl s)
  intro a b hb ha hab
  exact (ha.tail (passTurn_event a)).tail (Event.primitive hb hab)

theorem whenIdle_next {s t : State} {k : State → Result} (h : whenIdle s k = .next t) :
    s.seq.busy = false ∧ k s = .next t := by
  unfold whenIdle at h
  split at h
  · cases h
  · rename_i hb; exact ⟨by simpa using hb, h⟩

/-! The raw transactions, once for all registers, and what a turn on the bus port can do. -/

theorem exec_writeOf (d : Word) (r : Reg) (s : State) : exec (writeOf d r) s = writeReg r d s := by
  rcases r with _ | _ | g
  · rfl
  · rfl
  · cases g <;> rfl

theorem exec_readOf (r : Reg) (s : State) : exec (readOf r) s = rawRead r s := by
  rcases r with _ | _ | g
  · rfl
  · rfl
  · cases g <;> rfl

/-- A descriptor that is executed delivers a word or writes a register, and does nothing else. -/
theorem present_bus_next {desc : BitVec 16} {d : Word} {s t : State} (h : present (.bus desc d) s = .next t) :
    (desc.getLsbD 15 = false ∧ ∃ r, t = { s with latches := s.latches.set s.issuer (readReg r s) }) ∨
      (desc.getLsbD 15 = true ∧ ∃ r n, Wrote s.params s.mem r n ∧ t = { s with mem := n }) := by
  unfold present at h
  split at h
  · cases h
  · rename_i i hi
    obtain ⟨b, r, rfl, rfl⟩ := decodeBus_ok hi
    rw [(descriptor_fields _ b r).2.2]
    cases b
    · rw [if_neg (by decide), exec_readOf] at h
      cases h
      exact .inl ⟨rfl, r, rfl⟩
    · rw [if_pos rfl, exec_writeOf] at h
      obtain ⟨n, hn, rfl⟩ := writeReg_next h
      exact .inr ⟨rfl, r, n, hn, rfl⟩

/-- So does an access by address. -/
theorem busAccess_next {a : Access} {s t : State} (h : busAccess a s = .next t) :
    (a.write = false ∧ ∃ r, t = { s with latches := s.latches.set s.issuer (readReg r s) }) ∨
      (a.write = true ∧ ∃ r n, Wrote s.params s.mem r n ∧ t = { s with mem := n }) := by
  unfold busAccess at h
  split at h
  · cases h
  · rename_i r _
    split at h
    · rename_i hw
      obtain ⟨n, hn, rfl⟩ := writeReg_next h
      exact .inr ⟨hw, r, n, hn, rfl⟩
    · rename_i hw
      cases h
      exact .inl ⟨by simpa using hw, r, rfl⟩

/-! Everything one step can be, once. -/

/-- The turn of a hardware agent. -/
def Hardware.turn : Hardware → Turn
  | .osc x => .osc x
  | .mux => .mux

/-- The state in which a turn on the bus port or the command port presents: the turn passed, the packet taken, and
the port given to its context. -/
abbrev presenting (s : State) (l : List Turn) (ps : List Packet) (c : Context) : State :=
  { s with sched := l, program := ps, issuer := c }

/-- What a step from `s` is: the turn that `sched` and `program` are left after, and what was done in it. -/
inductive StepKind (s : State) : State → Prop where
  /-- A turn passed, or a context took a word it had read. -/
  | inputs {l : List Turn} (hl : ∃ k, l = s.sched.drop k) {w : Latches} (hw : Delivered s w) (ps : List Packet)
      (c : Context) : StepKind s { presenting s l ps c with latches := w }
  /-- A hardware agent's own turn, listed or by default. -/
  | hardware {l : List Turn} (hl : ∃ k, l = s.sched.drop k) (h : Hardware)
      (ht : s.sched.head? = some h.turn ∨ (s.sched = [] ∧ firstEnabled s = some h)) :
      StepKind s (hardwareStep h { s with sched := l })
  | write {l : List Turn} (hl : ∃ k, l = s.sched.drop k) {r : Reg} {n : Memory} (hw : Wrote s.params s.mem r n)
      (ps : List Packet) (c : Context) : StepKind s { presenting s l ps c with mem := n }
  | sentinel {l : List Turn} (hl : ∃ k, l = s.sched.drop k) (hidle : s.seq.busy = false) (ps : List Packet)
      (c : Context) : StepKind s { presenting s l ps c with
        seq := { s.seq with busy := false, upc := 0, res := refusedSelection, resDefined := true } }
  | reset {l : List Turn} (hl : ∃ k, l = s.sched.drop k) (hs : s.sched.head? = some .reset) :
      StepKind s (resetEvent { s with sched := l })
  /-- SEQ went on with the operation in progress. -/
  | resumed {t : State} (hb : s.seq.busy = true) (h : resume s = .next t) : StepKind s t
  /-- SEQ accepted an operation and ran. -/
  | accepted {l : List Turn} (hl : ∃ k, l = s.sched.drop k) {ps : List Packet} {q : SeqState} {t : State}
      (hidle : s.seq.busy = false) (hb : q.busy = true) (hu : q.upc = 0)
      (hx : s.seq.src ∈ s.params.layout.sources → q.src ∈ s.params.layout.sources) (hr : q.res = s.seq.res)
      (hd : q.resDefined = s.seq.resDefined) {c : Context}
      (h : resume { presenting s l ps c with seq := q } = .next t) : StepKind s t

theorem gateOperation_kind {op : Op} {g : BusGroup} {p : Int} {s t : State} {l : List Turn} {ps : List Packet} {c : Context}
    (hl : ∃ k, l = s.sched.drop k) (h : gateOperation op g p (presenting s l ps c) = .next t) :
    StepKind s t := by
  unfold gateOperation at h
  split at h
  · obtain ⟨hidle, h⟩ := whenIdle_next h
    exact .accepted (q := { s.seq with g := g, p := peripheralBits p, busy := true, op := op, upc := 0 })
      hl hidle rfl rfl id rfl rfl h
  · cases h

/-- What an instruction that answers a next state did. -/
theorem exec_kind {i : Instr} {s t : State} {l : List Turn} {ps : List Packet} {c : Context}
    (hl : ∃ k, l = s.sched.drop k)
    (h : exec i (presenting s l ps c) = .next t) : StepKind s t := by
  have wr : ∀ {r d}, rawWrite r d (presenting s l ps c) = .next t → StepKind s t := by
    intro r d h
    obtain ⟨n, hn, rfl⟩ := writeReg_next h
    exact .write hl hn ps c
  cases i <;> first
    | (cases h; exact .inputs hl (.inr ⟨_, _, rfl⟩) _ _)
    | exact wr (r := .cr) h
    | exact wr (r := .cfgr) h
    | exact wr (r := .enr .hs1) h
    | exact wr (r := .enr .hs2) h
    | exact wr (r := .enr .hs3) h
    | exact wr (r := .enr .p1) h
    | exact wr (r := .enr .p2) h
    | exact gateOperation_kind hl h
    | skip
  case setbyp e =>
    replace h : execSetbyp e _ = .next t := h
    unfold execSetbyp at h
    split at h
    · rename_i b _
      obtain ⟨hidle, h⟩ := whenIdle_next h
      exact .accepted (q := { s.seq with flag := b, busy := true, op := .setbyp, upc := 0 }) hl hidle rfl rfl id rfl rfl h
    · cases h
  case setclk k st =>
    replace h : execSetclk k st _ = .next t := h
    unfold execSetclk at h
    split at h
    · rename_i x b hx _
      obtain ⟨hidle, h⟩ := whenIdle_next h
      exact .accepted (q := { s.seq with src := x, flag := b, busy := true, op := .setclk, upc := 0 })
        hl hidle rfl rfl (fun _ => (sourceAt_some hx).1) rfl rfl h
    · cases h
    · cases h
  case getclk k =>
    replace h : execGetclk k _ = .next t := h
    unfold execGetclk at h
    split at h
    · rename_i x hx
      obtain ⟨hidle, h⟩ := whenIdle_next h
      exact .accepted (q := { s.seq with src := x, busy := true, op := .getclk, upc := 0 }) hl hidle
        rfl rfl (fun _ => (sourceAt_some hx).1) rfl rfl h
    · cases h
  case setsys v =>
    replace h : execSetsys v _ = .next t := h
    unfold execSetsys at h
    obtain ⟨hidle, h⟩ := whenIdle_next h
    split at h
    · exact .accepted (q := { s.seq with target := selectorBits v, busy := true, op := .setsys, upc := 0 })
        hl hidle rfl rfl id rfl rfl h
    · cases h
      exact .sentinel hl hidle ps c
  case getsys =>
    replace h : execGetsys _ = .next t := h
    unfold execGetsys at h
    obtain ⟨hidle, h⟩ := whenIdle_next h
    exact .accepted (q := { s.seq with busy := true, op := .getsys, upc := 0 }) hl hidle rfl rfl id rfl rfl h

theorem present_kind {pk : Packet} {s t : State} {l : List Turn} {ps : List Packet} {c : Context}
    (hl : ∃ k, l = s.sched.drop k)
    (h : present pk (presenting s l ps c) = .next t) : StepKind s t := by
  unfold present at h
  split at h
  · cases h
  · exact exec_kind hl h

theorem seqTurn_kind {s t : State} (h : seqTurn s = .next t) : StepKind s t := by
  have hl : ∃ k, s.sched.tail = s.sched.drop k := ⟨1, List.drop_one.symm⟩
  unfold seqTurn at h
  split at h
  · rename_i hb
    exact .resumed hb h
  · split at h
    · cases h
      exact .inputs hl (.inl rfl) s.program s.issuer
    · exact present_kind (c := .caller) hl h

/-- Every step that answers a next state is of one of these kinds. -/
theorem step_kind {s t : State} (h : step s = .next t) : StepKind s t := by
  have hl : ∃ k, s.sched.tail = s.sched.drop k := ⟨1, List.drop_one.symm⟩
  unfold step takeTurn at h
  split at h
  · rename_i hs
    unfold defaultTurn at h
    split at h
    · rename_i hd
      cases h
      exact .hardware (l := s.sched) ⟨0, rfl⟩ _ (.inr ⟨hs, hd⟩)
    · exact seqTurn_kind h
  · exact seqTurn_kind h
  · rename_i hs
    cases h
    exact .hardware hl (.osc _) (.inl (by rw [hs]; rfl))
  · rename_i hs
    cases h
    exact .hardware hl .mux (.inl (by rw [hs]; rfl))
  · rename_i ctx _ _ _ _
    exact present_kind (ps := s.program) (c := .ext ctx) hl h
  · rename_i ctx _ _ _
    replace h : busAccess _ (presenting s s.sched.tail s.program (.ext ctx)) = .next t := h
    rcases busAccess_next h with ⟨_, r, rfl⟩ | ⟨_, r, n, hn, rfl⟩
    · exact .inputs hl (.inr ⟨_, _, rfl⟩) s.program (.ext ctx)
    · exact .write hl hn s.program (.ext ctx)
  · replace h : readResult (passTurn s) = .next t := h
    unfold readResult at h
    split at h
    · cases h
      exact .inputs hl (.inr ⟨_, _, rfl⟩) s.program s.issuer
    · cases h
  · rename_i hs
    cases h
    exact .reset hl (by rw [hs]; rfl)

/-- Every kind of step is a chain of events. -/
theorem StepKind.events {s t : State} (h : StepKind s t) : Events s t := by
  have pass : ∀ l ps c, Events s (presenting s l ps c) := fun l ps c => .single (Event.inputs (.inl rfl) c l ps)
  cases h with
  | inputs _ hw ps c => exact .single (Event.inputs hw c _ ps)
  | @hardware l _ h => exact (pass l s.program s.issuer).tail (Event.hardware h)
  | @write l _ r n hw ps c => exact (pass l ps c).tail (Event.write hw)
  | @sentinel l _ hidle ps c => exact (pass l ps c).tail (Event.sentinel hidle)
  | @reset l _ _ => exact (pass l s.program s.issuer).tail Event.reset
  | resumed hb h => exact runSeq_events _ h
  | @accepted l _ ps q _ hidle hb hu hx hr hd c h =>
    exact ((pass l ps c).tail (Event.accepted q hidle hb hu hx hr hd)).trans (runSeq_events _ h)

/-- Every step is a chain of events. -/
theorem step_events {s t : State} (h : step s = .next t) : Events s t := (step_kind h).events

/-- What an instruction does is a chain of events. -/
theorem exec_events {i : Instr} {s t : State} (h : exec i s = .next t) : Events s t :=
  (exec_kind (l := s.sched) (ps := s.program) (c := s.issuer) ⟨0, rfl⟩ h).events

/-- The turns left after a step are the last of those before it. -/
theorem step_sched {s t : State} (h : step s = .next t) : ∃ k, t.sched = s.sched.drop k := by
  cases step_kind h with
  | inputs hl => exact hl
  | hardware hl => exact hl
  | write hl => exact hl
  | sentinel hl => exact hl
  | reset hl => exact hl
  | resumed _ h => exact (runSeq_ran _ h).sched
  | accepted hl _ _ _ _ _ _ h =>
    obtain ⟨k, rfl⟩ := hl
    obtain ⟨j, hj⟩ := (runSeq_ran _ h).sched
    exact ⟨k + j, by rw [hj, List.drop_drop]⟩

/-! Steps by the schedule, and runs of several steps. -/

theorem step_of_empty {s : State} (hs : s.sched = []) : step s = defaultTurn s := by
  unfold step takeTurn
  rw [hs]

theorem step_of_seq {s : State} {rest : List Turn} (hs : s.sched = .seq :: rest) : step s = seqTurn s := by
  unfold step takeTurn
  rw [hs]

theorem seqTurn_of_busy {s : State} (hb : s.seq.busy = true) : seqTurn s = resume s := by
  unfold seqTurn
  rw [hb]
  rfl

theorem run_succ_next {n : Nat} {s s' : State} (h : step s = .next s') :
    Sys2Proof.core.run (n + 1) s = Sys2Proof.core.run n s' := by
  have hc : Sys2Proof.core.step s = .next s' := h
  simp only [Host.Core.run, hc]

theorem run_succ_refused {n : Nat} {s : State} {e : Refusal} (h : step s = .refused e) :
    Sys2Proof.core.run (n + 1) s = .refused e := by
  have hc : Sys2Proof.core.step s = .refused e := h
  simp only [Host.Core.run, hc]

end Sys2Proof.Machine
end

