-- ==== Sys2Proof/Tests/Slice0.lean ====
section
/-! SUPPORT. Tests: ill-formed terms, one word of every form written out bit by bit, the spec's own vectors
(95_test_vectors.md, each test naming its table), and for every statement with hypotheses a state and operands that
meet them all. -/

namespace Sys2Proof.Tests

open Sys2Proof.Machine

/-! Small states and what is read off a result. -/

/-- The default layout. -/
abbrev lay : Layout := Config.layout

/-- Another layout a model may take: another base, CR and CFGR at each other's offsets, an extra source at positions 26
and 27 of CR, the bypass bit at 31, and the selector and status fields at 6 and 4. -/
def otherLayout : Layout :=
  { Config.layout with
    base := 0x50000000
    offCr := 0x08
    offCfgr := 0x00
    enPos := ⟨0, 16, 24, [26]⟩
    bypPos := 31
    swPos := 6
    swsPos := 4 }

/-- The state after RESET under that layout. -/
def elsewhere : State :=
  let P := { Config.defaults with layout := otherLayout, stabilizes := ⟨true, true, true, [true]⟩ }
  { State.reset with params := P, mem := Memory.reset P }

/-- The reset state, but with the registers CR and CFGR reading `cr` and `cfgr`. -/
def regs (cr cfgr : Word) : State :=
  { State.reset with
    mem := { State.reset.mem with
      en := PerSource.tabulate 0 fun x => cr.getLsbD (lay.enPos.get x)
      rdy := PerSource.tabulate 0 fun x => cr.getLsbD (lay.rdyPos x)
      byp := cr.getLsbD lay.bypPos
      crOther := cr &&& lay.crOtherMask
      sw := field2 cfgr lay.swPos
      sws := field2 cfgr lay.swsPos
      cfgrOther := cfgr &&& lay.cfgrOtherMask } }

/-- The reset state, but with the enable register of group `g` holding `v`. -/
def gates (g : BusGroup) (v : Word) : State :=
  { State.reset with mem := { State.reset.mem with enr := State.reset.mem.enr.set g v } }

/-- The same state under other parameters. -/
def under (s : State) (f : Params → Params) : State := { s with params := f s.params }

/-- The same state with turns listed. -/
def turns (s : State) (l : List Turn) : State := { s with sched := l }

/-- The same state with SEQ at primitive `upc` of operation `op`. -/
def running (s : State) (op : Op) (upc : Nat) : State := { s with seq := { s.seq with busy := true, op := op, upc := upc } }

/-- SEQ in the poll loop of `SETCLK x, ON`. -/
def polling (s : State) (x : Source) : State :=
  { s with seq := { s.seq with busy := true, op := .setclk, upc := 2, src := x, flag := true } }

/-- CR, CFGR and RES after a result, SEQ being idle. -/
def after (r : Result) : Option (Word × Word × Word) :=
  match r with
  | .next s => if s.seq.busy then none else some (crWord s.params.layout s.mem, cfgrWord s.params.layout s.mem, s.seq.res)
  | .fault _ => none
  | .refused _ => none

/-- Enable register `g` and RES after a result, SEQ being idle. -/
def gateAfter (g : BusGroup) (r : Result) : Option (Word × Word) :=
  match r with
  | .next s => if s.seq.busy then none else some (readReg (.enr g) s, s.seq.res)
  | .fault _ => none
  | .refused _ => none

/-- CR and CFGR after a result. -/
def regsAfter (r : Result) : Option (Word × Word) :=
  match r with
  | .next s => some (crWord s.params.layout s.mem, cfgrWord s.params.layout s.mem)
  | .fault _ => none
  | .refused _ => none

/-- The word a result has delivered to the caller. -/
def delivered (r : Result) : Option Word :=
  match r with
  | .next s => some (s.latches.get .caller)
  | .fault _ => none
  | .refused _ => none

/-- Why a result is refused. -/
def refusal (r : Result) : Option Refusal :=
  match r with
  | .next _ => none
  | .fault _ => none
  | .refused e => some e

/-- The invariant, as a computation. -/
def invCheck (s : State) : Bool :=
  paramsWf s.params && s.mem.wf s.params &&
  decide (s.params.readyClear = .immediate → ∀ x ∈ s.params.layout.sources, s.mem.rdy.get x = true → s.mem.en.get x = true) &&
  decide (s.params.swsFollow = .immediate → muxEnabled s.params s.mem = false) &&
  decide (s.seq.upc ≤ if s.seq.busy then lastUpc s.seq.op else 0) &&
  decide (s.seq.src ∈ s.params.layout.sources) && s.latches.wf

theorem inv_of_check {s : State} (h : invCheck s = true) : MachineInv s := by
  simp only [invCheck, Bool.and_eq_true, decide_eq_true_eq] at h
  obtain ⟨⟨⟨⟨⟨⟨h1, h2⟩, h3⟩, h4⟩, h5⟩, h6⟩, h7⟩ := h
  refine ⟨h1, h2, fun hc x hx => ?_, h4, h5, h6, h7⟩
  by_cases hm : x ∈ s.params.layout.sources
  · exact h3 hc x hm hx
  · rw [PerSource.get_outside hm ((Memory.wf_iff _ _).mp h2).2.2.2.2] at hx
    cases hx

theorem undisturbed_of_nil {s : State} (n : Nat) (h : s.sched = []) : Undisturbed n s := by
  intro x hx
  rw [h] at hx
  simp at hx

/-! Well-formedness: one ill-formed term per check, and the boundary that is still well formed (R72). -/

theorem test_wellFormed_peripheral : Instr.wellFormed lay (.enclkHs1 32) = false ∧ Instr.wellFormed lay (.disclkP2 (-1)) = false ∧
    Instr.wellFormed lay (.enclkHs1 31) = true ∧ Instr.wellFormed lay (.disclkP2 0) = true := by decide

theorem test_wellFormed_boolean : Instr.wellFormed lay (.setbyp 2) = false ∧ Instr.wellFormed lay (.setclk 16 (-1)) = false ∧
    Instr.wellFormed lay (.setbyp 1) = true ∧ Instr.wellFormed lay (.setclk 16 0) = true := by decide

theorem test_wellFormed_source : Instr.wellFormed lay (.setclk 17 1) = false ∧ Instr.wellFormed lay (.getclk 1) = false ∧
    Instr.wellFormed lay (.getclk 24) = true := by decide

theorem test_wellFormed_selector : Instr.wellFormed lay (.setsys 4) = false ∧ Instr.wellFormed lay (.setsys (-1)) = false ∧
    Instr.wellFormed lay (.setsys 3) = true := by decide

/-! Decoding: a word of every form, written out from R61, R62 and R68. -/

theorem test_decode_reads :
    decode lay (.bus 0b0_0000000_00000000 0) = .ok .rdCr ∧ decode lay (.bus 0b0_0000000_00001000 0) = .ok .rdCfgr ∧
    decode lay (.bus 0b0_0000000_00110000 0) = .ok .rdEnrHs1 ∧ decode lay (.bus 0b0_0000000_00110100 0) = .ok .rdEnrHs2 ∧
    decode lay (.bus 0b0_0000000_00111000 0) = .ok .rdEnrHs3 ∧ decode lay (.bus 0b0_0000000_01000000 0) = .ok .rdEnrP1 ∧
    decode lay (.bus 0b0_0000000_01000100 0) = .ok .rdEnrP2 := by decide

theorem test_decode_writes :
    decode lay (.bus 0b1_0000000_00000000 5) = .ok (.wrCr 5) ∧ decode lay (.bus 0b1_0000000_00001000 5) = .ok (.wrCfgr 5) ∧
    decode lay (.bus 0b1_0000000_00110000 5) = .ok (.wrEnrHs1 5) ∧ decode lay (.bus 0b1_0000000_00110100 5) = .ok (.wrEnrHs2 5) ∧
    decode lay (.bus 0b1_0000000_00111000 5) = .ok (.wrEnrHs3 5) ∧ decode lay (.bus 0b1_0000000_01000000 5) = .ok (.wrEnrP1 5) ∧
    decode lay (.bus 0b1_0000000_01000100 5) = .ok (.wrEnrP2 5) := by decide

theorem test_decode_enclk :
    decode lay (.cmd 0b00010000_00000000000_00000_000_00000) = .ok (.enclkHs1 0) ∧
    decode lay (.cmd 0b00010001_00000000000_00000_000_11111) = .ok (.enclkHs2 31) ∧
    decode lay (.cmd 0b00010010_00000000000_00000_000_00010) = .ok (.enclkHs3 2) ∧
    decode lay (.cmd 0b00010011_00000000000_00000_000_10001) = .ok (.enclkP1 17) ∧
    decode lay (.cmd 0b00010100_00000000000_00000_000_01110) = .ok (.enclkP2 14) := by decide

theorem test_decode_disclk :
    decode lay (.cmd 0b00011000_00000000000_00000_000_00000) = .ok (.disclkHs1 0) ∧
    decode lay (.cmd 0b00011001_00000000000_00000_000_01001) = .ok (.disclkHs2 9) ∧
    decode lay (.cmd 0b00011010_00000000000_00000_000_11111) = .ok (.disclkHs3 31) ∧
    decode lay (.cmd 0b00011011_00000000000_00000_000_10001) = .ok (.disclkP1 17) ∧
    decode lay (.cmd 0b00011100_00000000000_00000_000_00100) = .ok (.disclkP2 4) := by decide

theorem test_decode_oscillator :
    decode lay (.cmd 0b00100000_00000000000_00000_000_00001) = .ok (.setbyp 1) ∧
    decode lay (.cmd 0b00100001_00000000000_10000_000_00001) = .ok (.setclk 16 1) ∧
    decode lay (.cmd 0b00100001_00000000000_00000_000_00000) = .ok (.setclk 0 0) ∧
    decode lay (.cmd 0b00100010_00000000000_11000_000_00000) = .ok (.getclk 24) := by decide

theorem test_decode_selection :
    decode lay (.cmd 0b00100011_00000000000_00000_000_00011) = .ok (.setsys 3) ∧
    decode lay (.cmd 0b00100100_00000000000_00000_000_00000) = .ok .getsys := by decide

/-- A write's data word stands above its descriptor; a row's bits beyond its table width are 0. -/
theorem test_decode_table_words :
    decodeTableWord 48 0x00004000_8044 = some (.wrEnrP2 0x4000) ∧ decodeTableWord 16 0x8044 = some (.wrEnrP2 0) ∧
    decodeTableWord 32 0x13000011 = some (.enclkP1 17) ∧ decodeTableWord 32 0x22000100 = none := by decide

/-- Reserved encodings, one per letter of R69 and per must-be-zero field (tables 2.1 and 2.3). -/
theorem test_decode_reserved :
    decode lay (.cmd 0x15000000) = .error .opcode ∧ decode lay (.cmd 0x00000000) = .error .opcode ∧
    decode lay (.cmd 0x10002000) = .error .mustBeZero ∧ decode lay (.cmd 0x10000020) = .error .mustBeZero ∧
    decode lay (.cmd 0x10000100) = .error .mustBeZero ∧ decode lay (.cmd 0x20000002) = .error .mustBeZero ∧
    decode lay (.cmd 0x23000004) = .error .mustBeZero ∧ decode lay (.cmd 0x24000001) = .error .mustBeZero ∧
    decode lay (.cmd 0x22001001) = .error .mustBeZero ∧ decode lay (.cmd 0x22000100) = .error .source ∧
    decode lay (.cmd 0x21001100) = .error .source ∧ decode lay (.bus 0x0100 0) = .error .descriptor ∧
    decode lay (.bus 0x0002 0) = .error .misalignedOffset ∧ decode lay (.bus 0x0004 0) = .error .unmappedOffset := by decide

/-! Layout parameters (R5, D5, D6): the masks of R14 and R19, and the rows of R68, as printed for the default layout; and
a layout with an extra source. -/

theorem test_layout_masks : lay.crAssigned = 0x03070003 ∧ lay.cfgrAssigned = 0x0000000F ∧ busRowsOf lay = busRows := by
  decide

theorem test_layout_other : paramsWf elsewhere.params = true ∧ decode otherLayout (.bus 0x0008 0) = .ok .rdCr ∧
    decode otherLayout (.cmd 0x21001A01) = .ok (.setclk 26 1) ∧
    regsAfter (exec (.setclk 26 1) elsewhere) = some (0x04000003, 0) ∧
    regsAfter (exec (.wrCfgr 0x00000043) elsewhere) = some (3, 0x00000043) ∧
    delivered (busAccess ⟨false, 0x50000008, 4, 0⟩ elsewhere) = some 3 := by decide

/-- Two positions that coincide, a position whose ready bit falls off the register, and an unaligned base. -/
theorem test_layout_rejected :
    { lay with bypPos := 17 }.ok = false ∧ { lay with enPos := ⟨0, 16, 24, [31]⟩ }.ok = false ∧
    { lay with base := 0x40023802 }.ok = false ∧ { lay with offCfgr := 0x00 }.ok = false := by decide

/-! Textual syntax (R70, R71). -/

theorem test_text_lines :
    Text.line lay "SETSYS PLL_R ; the fourth selector".toList = some (.setsys 3) ∧
    Text.line lay "SETSYS -1".toList = some (.setsys (-1)) ∧ Text.line lay "ENCLK.HS3 32".toList = some (.enclkHs3 32) ∧
    Text.line lay "SETCLK HSE ON".toList = none ∧ Text.line lay "ENCLK 3".toList = none ∧
    Text.line lay "WR.CR 0xFFFF_FFFF".toList = some (.wrCr 0xFFFFFFFF) := by decide

/-! Table 2.1: bus transactions. -/

theorem test_rdCr : delivered (exec .rdCr State.reset) = some 0x00000003 := by decide
theorem test_rdCfgr : delivered (exec .rdCfgr (regs 0x00030003 0x00000005)) = some 0x00000005 := by decide
theorem test_rdEnrHs1 : delivered (exec .rdEnrHs1 (gates .hs1 0x00000001)) = some 0x00000001 := by decide
theorem test_rdEnrHs2 : delivered (exec .rdEnrHs2 (gates .hs1 0x00000001)) = some 0x00000000 := by decide
theorem test_rdEnrHs3 : delivered (exec .rdEnrHs3 (gates .hs3 0x7FFFFFFF)) = some 0x7FFFFFFF := by decide
theorem test_rdEnrP1 : delivered (exec .rdEnrP1 (gates .p1 0x00020000)) = some 0x00020000 := by decide
theorem test_rdEnrP2 : delivered (exec .rdEnrP2 (gates .p2 0x00004010)) = some 0x00004010 := by decide

theorem test_wrCr_ones : regsAfter (exec (.wrCr 0xFFFFFFFF) State.reset) = some (0xFDFDFFFF, 0) := by decide
theorem test_wrCr_ready_positions :
    regsAfter (exec (.wrCr 0x00020002) State.reset) = some (0, 0) ∧
    regsAfter (exec (.wrCr 0x00010001) (regs 0x00030003 0)) = some (0x00030003, 0) ∧
    regsAfter (exec (.wrCr 0x00050003) (under (regs 0x00010003 0) fun P => { P with bypLock := true })) =
      some (0x00010003, 0) := by decide

theorem test_wrCfgr_ones : regsAfter (exec (.wrCfgr 0xFFFFFFFF) State.reset) = some (3, 0xFFFFFFF3) := by decide
theorem test_wrCfgr_status_positions :
    regsAfter (exec (.wrCfgr 0x00000009) (regs 3 0x00000005)) = some (3, 0x00000005) := by decide

theorem test_wrEnrHs1 : gateAfter .hs1 (exec (.wrEnrHs1 0x80000001) State.reset) = some (0x80000001, 0) := by decide
theorem test_wrEnrHs2 : gateAfter .hs2 (exec (.wrEnrHs2 0xFFFFFFFF) State.reset) = some (0xFFFFFFFF, 0) ∧
    gateAfter .hs3 (exec (.wrEnrHs2 0xFFFFFFFF) State.reset) = some (0, 0) := by decide
theorem test_wrEnrHs3_unimplemented : gateAfter .hs3 (exec (.wrEnrHs3 0xFFFFFFFF)
    (under State.reset fun P => { P with enrImpl := P.enrImpl.set .hs3 3 })) = some (3, 0) := by decide
theorem test_wrEnrP1 : gateAfter .p1 (exec (.wrEnrP1 0) (gates .p1 0x00060000)) = some (0, 0) := by decide
theorem test_wrEnrP2 : gateAfter .p2 (exec (.wrEnrP2 0x4000) State.reset) = some (0x4000, 0) := by decide

/-- Accesses by address (R40 to R44). -/
theorem test_access :
    delivered (busAccess ⟨false, 0x40023800, 4, 0⟩ State.reset) = some 3 ∧
    refusal (busAccess ⟨false, 0x40023800, 2, 0⟩ State.reset) = some .accessWidth ∧
    refusal (busAccess ⟨true, 0x40023802, 4, 0⟩ State.reset) = some .misalignedAddress ∧
    refusal (busAccess ⟨true, 0x4002383C, 4, 0⟩ State.reset) = some .unmappedOffset ∧
    refusal (busAccess ⟨true, 0x40023900, 4, 0⟩ State.reset) = some .outsideWindow := by decide

/-- Each context has its own latch (R191): EXT context 3 reads CR between two reads of the caller's. -/
theorem test_latches :
    let l : Latches := (((⟨0, []⟩ : Latches).set .caller 7).set (.ext 3) 3).set (.ext 1) 9;
    l.get .caller = 7 ∧ l.get (.ext 3) = 3 ∧ l.get (.ext 1) = 9 ∧ l.get (.ext 2) = 0 ∧ l.wf = true ∧
      delivered (step (turns (regs 3 0) [.ext 3 0x0000 0])) = some 0 := by decide

/-! Table 2.2: gate operations. -/

theorem test_enclkHs1 : gateAfter .hs1 (exec (.enclkHs1 0) (gates .hs1 1)) = some (1, 1) := by decide
theorem test_enclkHs1_unimplemented : gateAfter .hs1 (exec (.enclkHs1 0)
    (under State.reset fun P => { P with enrImpl := P.enrImpl.set .hs1 0xFFFFFFFE })) = some (0, 0) := by decide
theorem test_enclkHs2 : gateAfter .hs2 (exec (.enclkHs2 31) State.reset) = some (0x80000000, 1) := by decide
theorem test_enclkHs3 : gateAfter .hs3 (exec (.enclkHs3 31) (gates .hs3 0x7FFFFFFF)) = some (0xFFFFFFFF, 1) := by decide
theorem test_enclkP1 : gateAfter .p1 (exec (.enclkP1 17) State.reset) = some (0x00020000, 1) := by decide
theorem test_enclkP2 : gateAfter .p2 (exec (.enclkP2 14) (gates .p2 0x10)) = some (0x4010, 1) := by decide
theorem test_disclkHs1 : gateAfter .hs1 (exec (.disclkHs1 0) (gates .hs1 5)) = some (4, 1) := by decide
theorem test_disclkHs2 : gateAfter .hs2 (exec (.disclkHs2 9) State.reset) = some (0, 1) := by decide
theorem test_disclkHs3 : gateAfter .hs3 (exec (.disclkHs3 31) (gates .hs3 0xFFFFFFFF)) = some (0x7FFFFFFF, 1) := by decide
theorem test_disclkP1 : gateAfter .p1 (exec (.disclkP1 17) (gates .p1 0x00060000)) = some (0x00040000, 1) := by decide
theorem test_disclkP2 : gateAfter .p2 (exec (.disclkP2 4) (gates .p2 0x4010)) = some (0x4000, 1) := by decide

/-- EXT wrote 0 between SEQ's write and its read-back: false (R112 case b). -/
theorem test_enclkP1_mismatch : gateAfter .p1 (step (turns
    { running State.reset .enclk 2 with seq := { (running State.reset .enclk 2).seq with g := .p1, p := 17 } }
    [.seq, .seq])) = some (0, 0) := by decide

/-! Table 2.3: oscillator operations. -/

theorem test_setbyp : after (exec (.setbyp 1) State.reset) = some (0x00040003, 0, 1) ∧
    after (exec (.setbyp 0) (regs 0x00040003 0)) = some (3, 0, 1) := by decide
theorem test_setbyp_locked :
    after (exec (.setbyp 1) (under (regs 0x00030003 0) fun P => { P with bypLock := true })) = some (0x00030003, 0, 0) ∧
    after (exec (.setbyp 0) (under (regs 0x00070003 0) fun P => { P with bypLock := true })) =
      some (0x00070003, 0, 0) := by decide
theorem test_setclk_on :
    regsAfter (exec (.setclk 16 1) State.reset) = some (0x00010003, 0) ∧ after (exec (.setclk 16 1) State.reset) = none ∧
    after (exec (.setclk 0 1) State.reset) = some (3, 0, 1) ∧
    regsAfter (exec (.setclk 16 1) (regs 0xFCF8FFFF 0)) = some (0xFCF9FFFF, 0) := by decide
theorem test_setclk_off :
    after (exec (.setclk 16 0) (regs 0x00030003 0)) = some (3, 0, 1) ∧
    after (exec (.setclk 16 0) (regs 0x00010003 0)) = some (3, 0, 1) ∧
    after (exec (.setclk 16 0) (under (regs 0x00030003 0) fun P => { P with readyClear := .eventual })) =
      some (0x00020003, 0, 1) := by decide
theorem test_getclk :
    after (exec (.getclk 0) State.reset) = some (3, 0, 1) ∧ after (exec (.getclk 16) (regs 0x00010003 0)) = some (0x00010003, 0, 0) ∧
    after (exec (.getclk 24) (regs 0x03000003 0)) = some (0x03000003, 0, 1) := by decide

/-! Table 2.4: selection. -/

theorem test_setsys :
    after (exec (.setsys 0) State.reset) = some (3, 0, 0) ∧
    after (exec (.setsys 1) (regs 0x00030003 0xFFFFFFF0)) = some (0x00030003, 0xFFFFFFF1, 1) ∧
    after (exec (.setsys 3) (regs 0x03000000 0x0000000A)) = some (0x03000000, 0x0000000B, 3) := by decide
theorem test_setsys_refused :
    after (exec (.setsys 1) State.reset) = some (3, 0, 0xFFFFFFFF) ∧ after (exec (.setsys 3) State.reset) = some (3, 0, 0xFFFFFFFF) ∧
    after (exec (.setsys 1) (regs 0x00010003 0)) = some (0x00010003, 0, 0xFFFFFFFF) ∧
    after (exec (.setsys 4) State.reset) = some (3, 0, 0xFFFFFFFF) := by decide
theorem test_getsys :
    after (exec .getsys (regs 3 0x00000005)) = some (3, 5, 1) ∧ after (exec .getsys (regs 3 0x00000002)) = some (3, 2, 2) := by decide

/-! Table 2.5: hardware agents, and RESET (R200). -/

theorem test_agents :
    regsAfter (step (regs 0x00010003 0)) = some (0x00030003, 0) ∧
    regsAfter (step (under (regs 0x00010003 0) fun P => { P with stabilizes := ⟨true, false, true, []⟩ })) = some (0x00010003, 0) ∧
    regsAfter (step (under (regs 0x00020003 0) fun P => { P with readyClear := .eventual })) = some (3, 0) ∧
    regsAfter (step (regs 0x00030003 1)) = some (0x00030003, 5) ∧ regsAfter (step (regs 3 1)) = some (3, 1) := by decide
theorem test_reset_turn :
    after (step (turns (polling (regs 0x00010003 0xFFFFFFF5) .hse) [.reset])) = some (3, 0, 0) := by decide

/-- An instruction placed after reset runs in the next step. -/
theorem test_withFetchWord :
    gateAfter .p1 (step (State.reset.withFetchWord 32 0x13000011)) = some (0x00020000, 1) ∧
    gateAfter .p2 (step (State.reset.withFetchWord 48 0x000040008044)) = some (0x4000, 0) := by decide

/-! Witnesses: for every statement with hypotheses, a state and operands that meet them all. -/

/-- CR 0x0303_0003, CFGR 0: all three sources ready. -/
def allReady : State := regs 0x03030003 0

/-- SEQ's turns, then MUX's. -/
def seqTurns (n : Nat) : List Turn := List.replicate n .seq ++ [.mux]

theorem witness_DecodeOfEncodeIsTheInstruction :
    Instr.wellFormed lay (.disclkP2 31) = true ∧ Instr.wellFormed lay (.setclk 24 0) = true ∧ Instr.wellFormed lay (.setsys 3) = true ∧
    Instr.wellFormed lay (.wrEnrP2 0xFFFFFFFF) = true := by decide

theorem witness_EncodeOfDecodeIsTheWord :
    decodeCmd lay 0x1C00001F = .ok (.disclkP2 31) ∧ decodeBus lay 0x8044 0xFFFFFFFF = .ok (.wrEnrP2 0xFFFFFFFF) ∧
    decodeBus lay 0x0044 7 = .ok .rdEnrP2 := by decide

theorem witness_ReservedExactlyOutsideTheTable :
    decodeCmd lay 0x21001801 = .ok (.setclk 24 1) ∧ decodeBus lay 0x8000 1 = .ok (.wrCr 1) ∧ decode lay (.cmd 0x22000100) = .error .source ∧
    decode lay (.bus 0x0002 0) = .error .misalignedOffset := by decide

theorem witness_TextualOperandsOutOfRange :
    ((-1 : Int) < 0 ∨ 31 < (-1 : Int)) ∧ ((32 : Int) < 0 ∨ 31 < (32 : Int)) ∧
    (∀ x ∈ State.reset.params.layout.sources, (17 : Int) ≠ clockOperand State.reset x) ∧
    (∀ x ∈ elsewhere.params.layout.sources, (27 : Int) ≠ clockOperand elsewhere x) ∧ ((2 : Int) ≠ 0 ∧ (2 : Int) ≠ 1) ∧
    ((4 : Int) < 0 ∨ 3 < (4 : Int)) ∧ ((-1 : Int) < 0 ∨ 3 < (-1 : Int)) ∧ State.reset.seq.busy = false := by decide

theorem witness_ReadOfControlRegister : (regs 0xFFFFFFFF 0).wf ∧ elsewhere.wf ∧
    Source.extra 0 ∈ elsewhere.params.layout.sources := by decide

theorem witness_ReadOfConfigurationRegister : (regs 3 0xFFFFFFF6).wf := by decide

theorem witness_EnableRegisterWrite : lay.ok = true ∧ otherLayout.ok = true := by decide

/-- Both clauses: a disable of the selected source under the policy `refuse`, and a write under it that keeps the
selected source enabled. -/
theorem witness_ControlRegisterWrite :
    let s := under State.reset fun P => { P with disableSelected := .refuse };
    s.params.layout.ok = true ∧
    (s.params.disableSelected = .refuse ∧ ∃ x ∈ s.params.layout.sources, s.mem.en.get x = true ∧
      (0 : Word).getLsbD (s.params.layout.enPos.get x) = false ∧
      (s.params.selDep.get s.mem.sw = x ∨ s.params.selDep.get s.mem.sws = x)) ∧
    ¬ (s.params.disableSelected = .refuse ∧ ∃ x ∈ s.params.layout.sources, s.mem.en.get x = true ∧
      (1 : Word).getLsbD (s.params.layout.enPos.get x) = false ∧
      (s.params.selDep.get s.mem.sw = x ∨ s.params.selDep.get s.mem.sws = x)) := by decide

theorem witness_ConfigurationRegisterWrite : lay.ok = true ∧ otherLayout.ok = true := by decide

theorem witness_WritingBackChangesNothing : MachineInv (regs 0xFDFFFFFF 0xFFFFFFF5) := inv_of_check (by decide)

/-- The other clauses: an answered write of each register; the bypass bit held, and free to change; each status rule. -/
theorem witness_writes_answer :
    let s := under (regs 0x00010003 0) fun P => { P with bypLock := true, swsFollow := .immediate };
    s.wf ∧ s.params.bypLock = true ∧ s.mem.en.get .hse = true ∧
    (∃ t, exec (writeOf 0x80000001 (.enr .p2)) s = .next t) ∧ (∃ t, exec (.wrCr 0xFFFFFFFF) s = .next t) ∧
    (∃ t, exec (.wrCfgr 0xFFFFFFFF) s = .next t) ∧ (State.reset.params.bypLock = false ∧ State.reset.wf) := by
  refine ⟨by decide, by decide, by decide, ⟨_, rfl⟩, ⟨_, rfl⟩, ⟨_, rfl⟩, by decide, by decide⟩

/-- Each clause at a boundary of its range. -/
theorem witness_AccessReachesExactlyTheRegisters :
    (∃ a : Access, lay.ok = true ∧ a.addr = regAddr lay (.enr .p2) ∧ a.width = 4) ∧ (∃ a : Access, a.width ≠ 4) ∧
    (∃ a : Access, a.width = 4 ∧ a.addr.toNat % 4 ≠ 0) ∧
    (∃ a : Access, a.width = 4 ∧ a.addr.toNat % 4 = 0 ∧ (a.addr - lay.base).toNat < 256 ∧ ∀ r, a.addr ≠ regAddr lay r) ∧
    (∀ addr ∈ [(0x400237FC : Word), 0x40023900], ∃ a : Access, a.addr = addr ∧ a.width = 4 ∧ a.addr.toNat % 4 = 0 ∧
      256 ≤ (a.addr - lay.base).toNat) := by
  refine ⟨⟨⟨true, 0x40023844, 4, 1⟩, by decide, by decide, rfl⟩, ⟨⟨true, 0x40023844, 2, 1⟩, by decide⟩,
    ⟨⟨false, 0x40023803, 4, 0⟩, rfl, by decide⟩, ⟨⟨false, 0x400238FC, 4, 0⟩, rfl, by decide, by decide, ?_⟩, ?_⟩
  · rintro (_ | _ | g)
    · decide
    · decide
    · cases g <;> decide
  · intro addr ha
    simp only [List.mem_cons, List.not_mem_nil, or_false] at ha
    rcases ha with rfl | rfl <;> exact ⟨⟨false, _, 4, 0⟩, rfl, rfl, by decide, by decide⟩

/-- Each kind of turn, with a read and a write. -/
theorem witness_ExternalContextCannotTouchTheSequencer :
    ∀ x ∈ [Turn.ext 2 0x0000 0, .ext 2 0x8030 5, .access 2 ⟨false, 0x40023800, 4, 0⟩, .access 2 ⟨true, 0x40023830, 4, 5⟩],
      MachineInv (turns State.reset [x]) ∧ (turns State.reset [x]).sched.head? = some x ∧
      (∃ t, step (turns State.reset [x]) = .next t) ∧ descriptor lay false .cr = 0x0000 ∧
      descriptor lay true (.enr .hs1) = 0x8030 ∧ regAddr lay .cr = 0x40023800 ∧ regAddr lay (.enr .hs1) = 0x40023830 := by
  intro x hx
  simp only [List.mem_cons, List.not_mem_nil, or_false] at hx
  rcases hx with rfl | rfl | rfl | rfl <;> exact ⟨inv_of_check (by decide), rfl, ⟨_, rfl⟩, by decide⟩

/-- Acceptance with MUX's turn next, and each of the four primitives of both operations. -/
theorem witness_GateOperationsFollowTheirPseudocode :
    ((0 : Int) ≤ 31 ∧ (31 : Int) ≤ 31 ∧ (turns State.reset [.mux]).seq.busy = false ∧
      (turns State.reset [.mux]).sched = .mux :: [] ∧ Turn.mux ≠ .seq) ∧
    ∀ o ∈ [Op.enclk, .disclk], ∀ k ∈ [0, 1, 2, 3],
      AtPrimitive o k .mux [] (turns (running (gates .p1 1) o k) [.seq, .mux]) := by
  unfold AtPrimitive; decide

theorem witness_EnableClockSetsItsBit : (0 : Int) ≤ 31 ∧ (31 : Int) ≤ 31 ∧ (turns State.reset (seqTurns 4)).seq.busy = false ∧
    Undisturbed 4 (turns State.reset (seqTurns 4)) := ⟨by decide, by decide, rfl, by unfold Undisturbed; decide⟩

theorem witness_DisableClockClearsItsBit : (0 : Int) ≤ 0 ∧ (0 : Int) ≤ 31 ∧ (gates .p1 1).seq.busy = false ∧
    Undisturbed 4 (gates .p1 1) := ⟨by decide, by decide, rfl, undisturbed_of_nil 4 rfl⟩

theorem witness_GateOperationsTouchOneBit : lay.ok = true ∧
    (∃ t, (Opc.enclk .p1 = .enclk .p1 ∨ Opc.enclk .p1 = .disclk .p1) ∧
      exec ((Opc.enclk .p1).instr 0 31) (turns State.reset (seqTurns 2)) = .next t) ∧
    (∃ t, (Opc.disclk .hs2 = .enclk .hs2 ∨ Opc.disclk .hs2 = .disclk .hs2) ∧
      exec ((Opc.disclk .hs2).instr 0 0) (gates .hs2 1) = .next t) :=
  ⟨by decide, ⟨_, .inl rfl, rfl⟩, ⟨_, .inr rfl, rfl⟩⟩

theorem witness_GateOperationsAreIdempotent :
    (Opc.enclk .hs1 = .enclk .hs1 ∨ Opc.enclk .hs1 = .disclk .hs1) ∧ (0 : Int) ≤ 31 ∧ (31 : Int) ≤ 31 ∧
    (turns State.reset (seqTurns 8)).seq.busy = false ∧ Undisturbed 8 (turns State.reset (seqTurns 8)) ∧
    ((turns State.reset (seqTurns 8)).params.enrImpl.get .hs1).getLsbD (31 : Int).toNat = true :=
  ⟨.inl rfl, by decide, by decide, rfl, by unfold Undisturbed; decide, by decide⟩

/-- Both clauses, on a register that another agent has changed since the read. -/
theorem witness_InterruptedGateOperationLosesTheUpdate : ∀ op ∈ [Op.enclk, .disclk],
    let s := turns (running (gates .hs1 0x40000) op 1) [.seq, .seq, .seq, .mux];
    s.seq.busy = true ∧ s.seq.upc = 1 ∧ s.sched = .seq :: .seq :: .seq :: [.mux] ∧ s.seq.op = op ∧
      (s.params.enrImpl.get s.seq.g).getLsbD s.seq.p.toNat = true := by decide

theorem witness_MismatchIsReportedAsFalse : ∀ op ∈ [Op.enclk, .disclk, .setbyp],
    let s := turns (running (gates .hs1 0x40000) op 2) [.seq, .seq, .mux];
    s.wf ∧ s.seq.busy = true ∧ s.seq.upc = 2 ∧ s.sched = .seq :: .seq :: [.mux] ∧ s.seq.op = op := by
  decide

/-- Acceptance with MUX's turn next, each primitive of the three operations, SETCLK with both values of its flag, its
write of CR carried out, and refused. -/
theorem witness_OscillatorOperationsFollowTheirPseudocode :
    (lay.ok = true ∧ Source.pll ∈ lay.sources ∧ otherLayout.ok = true ∧ Source.extra 0 ∈ otherLayout.sources ∧
      (turns State.reset [.mux]).seq.busy = false ∧ (turns State.reset [.mux]).sched = .mux :: [] ∧ Turn.mux ≠ .seq) ∧
    (∀ k ∈ [0, 1, 2, 3], AtPrimitive .setbyp k .mux [] (turns (running (regs 3 0) .setbyp k) [.seq, .mux])) ∧
    (∀ k ∈ [0, 1, 2, 3], AtPrimitive .setclk k .mux [] (turns (running (regs 3 0) .setclk k) [.seq, .mux])) ∧
    (AtPrimitive .setclk 2 .mux [] (turns (polling (regs 3 0) .hse) [.seq, .mux]) ∧
      (turns (polling (regs 3 0) .hse) [.seq, .mux]).seq.flag = true ∧
      (turns (running (regs 3 0) .setclk 2) [.seq, .mux]).seq.flag = false) ∧
    (∀ k ∈ [0, 1], AtPrimitive .getclk k .mux [] (turns (running (regs 3 0) .getclk k) [.seq, .mux])) ∧
    (∃ m, exec (.wrCr 2) (turns (running (regs 3 0) .setclk 1) [.seq, .mux]) = .next m) ∧
    (let s := turns (running (under (regs 3 0) fun P => { P with disableSelected := .refuse }) .setclk 1) [.seq, .mux];
      AtPrimitive .setclk 1 .mux [] s ∧ s.seq.flag = false ∧ s.seq.src = .hsi ∧
        exec (.wrCr (s.seq.t &&& ~~~((1 : Word) <<< s.params.layout.enPos.get s.seq.src))) s =
          .refused .disableOfSelectedSource) :=
  ⟨by decide, by unfold AtPrimitive; decide, by unfold AtPrimitive; decide, by unfold AtPrimitive; decide,
    by unfold AtPrimitive; decide, ⟨_, rfl⟩, by unfold AtPrimitive; decide, rfl, rfl, rfl⟩

/-- Both operands, the second with the bypass bit locked. -/
theorem witness_SetBypassConfirmsItsBit :
    (∃ (k : Int) (b : Bool) (s : State), (k = 1 ∧ b = true) ∧ MachineInv s ∧ s.seq.busy = false ∧ Undisturbed 4 s) ∧
    (∃ (k : Int) (b : Bool) (s : State), (k = 0 ∧ b = false) ∧ MachineInv s ∧ s.seq.busy = false ∧ Undisturbed 4 s ∧
      s.params.bypLock = true ∧ s.mem.en.get .hse = true) :=
  ⟨⟨1, true, regs 3 0, ⟨rfl, rfl⟩, inv_of_check (by decide), rfl, undisturbed_of_nil 4 rfl⟩,
   ⟨0, false, under (regs 0x00070003 0) fun P => { P with bypLock := true }, ⟨rfl, rfl⟩, inv_of_check (by decide), rfl,
    undisturbed_of_nil 4 rfl, rfl, rfl⟩⟩

/-- Under each of the three conditions. -/
theorem witness_SetClockOffDisables : Source.pll ∈ allReady.params.layout.sources ∧
    (MachineInv allReady ∧ allReady.seq.busy = false ∧ Undisturbed 3 allReady ∧ allReady.params.disableSelected = .allow) ∧
    (let s := under allReady fun P => { P with disableSelected := .refuse };
      MachineInv s ∧ s.seq.busy = false ∧ Undisturbed 3 s ∧
        s.params.selDep.get s.mem.sw ≠ Source.pll ∧ s.params.selDep.get s.mem.sws ≠ Source.pll) ∧
    (let s := under (regs 3 0) fun P => { P with disableSelected := .refuse };
      MachineInv s ∧ s.seq.busy = false ∧ Undisturbed 3 s ∧ s.mem.en.get .pll = false) :=
  ⟨by decide, ⟨inv_of_check (by decide), rfl, undisturbed_of_nil 3 rfl, rfl⟩,
   ⟨inv_of_check (by decide), rfl, undisturbed_of_nil 3 rfl, by decide, by decide⟩,
   ⟨inv_of_check (by decide), rfl, undisturbed_of_nil 3 rfl, rfl⟩⟩

theorem witness_SetClockOffOfSelectedSourceRefused :
    let s := under allReady fun P => { P with disableSelected := .refuse };
    MachineInv s ∧ Source.hsi ∈ s.params.layout.sources ∧ s.seq.busy = false ∧ Undisturbed 2 s ∧
      s.params.disableSelected = .refuse ∧ s.mem.en.get .hsi = true ∧
      (s.params.selDep.get s.mem.sw = .hsi ∨ s.params.selDep.get s.mem.sws = .hsi) :=
  ⟨inv_of_check (by decide), by decide, rfl, undisturbed_of_nil 2 rfl, rfl, rfl, .inl rfl⟩

theorem witness_SetClockOnOfReadySourceReturns :
    MachineInv allReady ∧ Source.pll ∈ allReady.params.layout.sources ∧ allReady.seq.busy = false ∧
    Undisturbed 4 allReady ∧ allReady.mem.rdy.get .pll = true :=
  ⟨inv_of_check (by decide), by decide, rfl, undisturbed_of_nil 4 rfl, rfl⟩

/-- One of the three sources, and an extra one under another layout. -/
theorem witness_SetClockOnOfUnreadySourcePolls :
    (let s := turns (regs 3 0) (seqTurns 3);
      MachineInv s ∧ Source.hse ∈ s.params.layout.sources ∧ s.seq.busy = false ∧ Undisturbed 3 s ∧
        s.mem.rdy.get .hse = false) ∧
    (MachineInv elsewhere ∧ Source.extra 0 ∈ elsewhere.params.layout.sources ∧ elsewhere.seq.busy = false ∧
      Undisturbed 3 elsewhere ∧ elsewhere.mem.rdy.get (.extra 0) = false) :=
  ⟨⟨inv_of_check (by decide), by decide, rfl, by unfold Undisturbed; decide, rfl⟩,
   ⟨inv_of_check (by decide), by decide, rfl, undisturbed_of_nil 3 rfl, rfl⟩⟩

theorem witness_PollIterationReadsTheReadyBit :
    (let s := turns (polling (regs 0x00010003 0) .hse) [.seq, .mux];
      s.wf ∧ Source.hse ∈ s.params.layout.sources ∧ Polling .hse s ∧ s.mem.rdy.get .hse = false ∧ s.sched = .seq :: [.mux]) ∧
    (let s := turns (polling (regs 0x00030003 0) .hse) [.seq, .seq, .mux];
      s.wf ∧ Source.hse ∈ s.params.layout.sources ∧ Polling .hse s ∧ s.mem.rdy.get .hse = true ∧ s.sched = .seq :: .seq :: [.mux]) := by
  unfold Polling
  decide

/-- One with the turns of others listed, one with none. -/
theorem witness_UnstableSourceHangsThePoll : ∀ l ∈ [[Turn.ext 0 0x8000 0, .osc .hse, .seq], []],
    let s := turns (under (polling (regs 0x00010003 0) .hse) fun P => { P with stabilizes := ⟨true, false, true, []⟩ }) l;
    MachineInv s ∧ Polling .hse s ∧ s.mem.rdy.get .hse = false ∧ s.params.stabilizes.get .hse = false ∧
      Turn.reset ∉ s.sched := by
  intro l hl
  refine ⟨?_, ⟨rfl, rfl, rfl, rfl, rfl⟩, rfl, rfl, ?_⟩
  · simp only [List.mem_cons, List.not_mem_nil, or_false] at hl
    rcases hl with rfl | rfl <;> exact inv_of_check (by decide)
  · revert l
    decide

theorem witness_StabilizingSourceEndsThePoll :
    let s := polling (regs 0x01010003 1) .hse;
    MachineInv s ∧ Polling .hse s ∧ s.mem.en.get .hse = true ∧ s.params.stabilizes.get .hse = true ∧ s.sched = [] :=
  ⟨inv_of_check (by decide), ⟨rfl, rfl, rfl, rfl, rfl⟩, rfl, rfl, rfl⟩

theorem witness_SetClockOnReturnsOnlyWhenReady :
    let s := polling (regs 0x00030003 0) .hse;
    MachineInv s ∧ Polling .hse s ∧ s.sched.head? ≠ some .reset ∧ ∃ t, step s = .next t ∧ t.seq.busy = false :=
  ⟨inv_of_check (by decide), ⟨rfl, rfl, rfl, rfl, rfl⟩, by decide, _, rfl, rfl⟩

theorem witness_GetClockReportsTheReadyBit :
    allReady.wf ∧ Source.pll ∈ allReady.params.layout.sources ∧ allReady.seq.busy = false ∧ Undisturbed 2 allReady :=
  ⟨by decide, by decide, rfl, undisturbed_of_nil 2 rfl⟩

/-- Each of the three operations; SETCLK interrupted before its write. -/
theorem witness_OscillatorOperationsKeepTheOtherFields :
    (∃ t, MachineInv (regs 3 0) ∧ exec (.setbyp 1) (regs 3 0) = .next t) ∧
    (∃ t, MachineInv (turns (regs 3 0) (seqTurns 1)) ∧
      Source.hse ∈ (turns (regs 3 0) (seqTurns 1)).params.layout.sources ∧
      exec (.setclk (clockOperand (turns (regs 3 0) (seqTurns 1)) .hse) 1) (turns (regs 3 0) (seqTurns 1)) = .next t) ∧
    (∃ t, MachineInv (regs 3 0) ∧ exec (.getclk 24) (regs 3 0) = .next t) :=
  ⟨⟨_, inv_of_check (by decide), rfl⟩, ⟨_, inv_of_check (by decide), by decide, rfl⟩, ⟨_, inv_of_check (by decide), rfl⟩⟩

theorem witness_DisablingTheSourceInUseStopsTheClock :
    let s := regs 0x00030003 0x00000005;
    MachineInv s ∧ s.seq.busy = false ∧ Undisturbed 3 s ∧ s.params.disableSelected = .allow ∧
      s.params.readyClear = .immediate := ⟨inv_of_check (by decide), rfl, undisturbed_of_nil 3 rfl, rfl, rfl⟩

/-- Acceptance with MUX's turn next, each primitive of both operations, and both outcomes of the validation. -/
theorem witness_SelectionOperationsFollowTheirPseudocode :
    ((turns State.reset [.mux]).seq.busy = false ∧ (turns State.reset [.mux]).sched = .mux :: [] ∧ Turn.mux ≠ .seq) ∧
    (∀ k ∈ [0, 1, 2, 3, 4, 5, 6], AtPrimitive .setsys k .mux [] (turns (running (regs 3 0) .setsys k) [.seq, .mux])) ∧
    (let s := turns (running (regs 3 0) .setsys 1) [.seq, .mux];
      s.seq.u.getLsbD (s.params.layout.enPos.get (s.params.selDep.get s.seq.target) + 1) = false) ∧
    (let s := turns { running (regs 3 0) .setsys 1 with
        seq := { (running (regs 3 0) .setsys 1).seq with u := 3 } } [.seq, .mux];
      AtPrimitive .setsys 1 .mux [] s ∧
        s.seq.u.getLsbD (s.params.layout.enPos.get (s.params.selDep.get s.seq.target) + 1) = true) ∧
    (∀ k ∈ [0, 1], AtPrimitive .getsys k .mux [] (turns (running (regs 3 0) .getsys k) [.seq, .mux])) := by
  unfold AtPrimitive; decide

theorem witness_SelectionOfUnreadySourceFails :
    (regs 3 0).wf ∧ (regs 3 0).seq.busy = false ∧ Undisturbed 2 (regs 3 0) ∧
    (regs 3 0).mem.rdy.get ((regs 3 0).params.selDep.get 3) = false :=
  ⟨by decide, rfl, undisturbed_of_nil 2 rfl, by decide⟩

theorem witness_SelectionOfReadySourceSucceeds :
    let s := turns allReady (seqTurns 7);
    s.wf ∧ s.seq.busy = false ∧ Undisturbed 7 s ∧ s.mem.rdy.get (s.params.selDep.get 3) = true :=
  ⟨by decide, rfl, by unfold Undisturbed; decide, by decide⟩

theorem witness_SelectorPassesThroughZero :
    let s := turns (regs 0x03030003 0x00000005) [.seq, .seq, .seq, .mux];
    s.wf ∧ s.seq.busy = false ∧ s.mem.rdy.get (s.params.selDep.get 2) = true ∧
      s.params.swsFollow = .agent ∧ s.sched = .seq :: .seq :: .seq :: .mux :: [] := by decide

theorem witness_SelectionResultIsReadBack :
    let s := turns (running (regs 0x00030003 2) .setsys 5) [.seq, .seq];
    s.wf ∧ s.seq.busy = true ∧ s.seq.op = .setsys ∧ s.seq.upc = 5 ∧ s.sched = .seq :: .seq :: [] := by
  decide

theorem witness_GetSystemClockReportsTheSelector :
    (regs 3 2).wf ∧ (regs 3 2).seq.busy = false ∧ Undisturbed 2 (regs 3 2) :=
  ⟨by decide, rfl, undisturbed_of_nil 2 rfl⟩

theorem witness_SelectionRoundTrip :
    (let s := turns (regs 3 0) (seqTurns 9);
      s.wf ∧ s.seq.busy = false ∧ Undisturbed 9 s ∧ s.mem.rdy.get (s.params.selDep.get 1) = false ∧
        s.mem.rdy.get (s.params.selDep.get 0) = true) := ⟨by decide, rfl, by unfold Undisturbed; decide, by decide, by decide⟩

theorem witness_SelectionKeepsTheOtherFields :
    (∃ t, allReady.wf ∧ exec (.setsys 3) allReady = .next t) ∧
    (∃ t, allReady.wf ∧ exec .getsys allReady = .next t) :=
  ⟨⟨_, by decide, rfl⟩, ⟨_, by decide, rfl⟩⟩

/-- The three clauses: both modes of following, and a source that does not stabilise. -/
theorem witness_StabilizeSetsTheReadyBit :
    (let s := turns (regs 0x00010003 1) [.osc .hse];
      s.sched = .osc .hse :: [] ∧ s.mem.en.get .hse = true ∧ s.mem.rdy.get .hse = false ∧ s.params.stabilizes.get .hse = true ∧
        s.params.swsFollow = .agent) ∧
    (let s := turns (under (regs 0x00010003 1) fun P => { P with swsFollow := .immediate }) [.osc .hse];
      s.sched = .osc .hse :: [] ∧ s.mem.en.get .hse = true ∧ s.mem.rdy.get .hse = false ∧ s.params.stabilizes.get .hse = true ∧
        s.params.swsFollow = .immediate) ∧
    (let s := turns (under (regs 0x00010003 1) fun P => { P with stabilizes := ⟨true, false, true, []⟩ }) [.osc .hse];
      s.sched = .osc .hse :: [] ∧ s.mem.en.get .hse = true ∧ s.mem.rdy.get .hse = false ∧
        s.params.stabilizes.get .hse = false) := by decide

theorem witness_DecayClearsTheReadyBit :
    (let s := turns (under (regs 0x00020003 0) fun P => { P with readyClear := .eventual }) [.osc .hse];
      s.sched = .osc .hse :: [] ∧ s.mem.en.get .hse = false ∧ s.mem.rdy.get .hse = true ∧ s.params.readyClear = .eventual) ∧
    (let s := turns (regs 0x00020003 0) [.osc .hse];
      s.sched = .osc .hse :: [] ∧ s.mem.en.get .hse = false ∧ s.mem.rdy.get .hse = true ∧
        s.params.readyClear = .immediate) := by decide

theorem witness_FollowCopiesTheSelector : (turns (regs 0x00030003 1) [.mux]).sched = .mux :: [] := rfl

/-- In a listed turn of the oscillator, and by default. -/
theorem witness_ReadyRisesOnlyByStabilizing : ∀ l ∈ [[Turn.osc .hse, .mux], []],
    ∃ t, step (turns (regs 0x00010003 0) l) = .next t ∧ (turns (regs 0x00010003 0) l).sched.head? ≠ some .reset ∧
      (turns (regs 0x00010003 0) l).mem.rdy.get .hse = false ∧ t.mem.rdy.get .hse = true := by
  intro l hl
  simp only [List.mem_cons, List.not_mem_nil, or_false] at hl
  rcases hl with rfl | rfl <;> exact ⟨_, rfl, by decide, by decide, by decide⟩

theorem witness_StatusOnlyMovesToReadySources :
    ∃ t, step (regs 0x00030003 1) = .next t ∧ (regs 0x00030003 1).sched.head? ≠ some .reset ∧
      t.mem.sws ≠ (regs 0x00030003 1).mem.sws := ⟨_, rfl, by decide, by decide⟩

theorem witness_SourceStateMachine :
    ∃ t, MachineInv (regs 0x00010003 0) ∧ (regs 0x00010003 0).params.readyClear = .immediate ∧
      step (regs 0x00010003 0) = .next t ∧ (regs 0x00010003 0).sched.head? ≠ some .reset ∧
      sourceState .hse t.mem = .ready := ⟨_, inv_of_check (by decide), rfl, rfl, by decide, by decide⟩

theorem witness_EveryStepKeepsTheInvariant :
    (∃ t, MachineInv (turns (running (regs 0x03030003 5) .setsys 2) [.seq, .seq, .mux]) ∧
      step (turns (running (regs 0x03030003 5) .setsys 2) [.seq, .seq, .mux]) = .next t) ∧
    ∃ t, MachineInv (elsewhere.withFetchWord 32 0x21001A01) ∧ step (elsewhere.withFetchWord 32 0x21001A01) = .next t :=
  ⟨⟨_, inv_of_check (by decide), rfl⟩, ⟨_, inv_of_check (by decide), rfl⟩⟩

theorem witness_ParametersNeverChange : ∃ t, step (turns State.reset [.reset]) = .next t := ⟨_, rfl⟩

/-- A primitive of SEQ that stores and one that does not, an answered read, and a turn of each agent the statement
names. -/
theorem witness_HardwareChangesOnlyReadyAndStatus :
    (∃ t, seqStep (running (regs 3 0) .setsys 2) = .next t ∧ nextStore (running (regs 3 0) .setsys 2) = some (.cfgr, 0)) ∧
    (∃ t, seqStep (running (regs 3 0) .setsys 3) = .next t ∧ nextStore (running (regs 3 0) .setsys 3) = none) ∧
    (∃ t, exec (readOf .cr) (regs 3 0) = .next t) ∧
    (∃ t, step (turns (regs 0x00010003 0) [.osc .hse]) = .next t) ∧
    (∃ t, step (turns (regs 0x00030003 1) [.mux]) = .next t) ∧
    (∃ t, step (turns (regs 3 0) [.ext 7 0x0000 0]) = .next t ∧ (0x0000 : BitVec 16).getLsbD 15 = false) ∧
    (∃ t, step (turns (regs 3 0) [.access 7 ⟨false, 0x40023844, 4, 0⟩]) = .next t) ∧
    (∃ t, step (turns { regs 3 0 with seq := { SeqState.reset with resDefined := true } } [.result]) = .next t) :=
  ⟨⟨_, rfl, by decide⟩, ⟨_, rfl, by decide⟩, ⟨_, rfl⟩, ⟨_, rfl⟩, ⟨_, rfl⟩, ⟨_, rfl, by decide⟩, ⟨_, rfl⟩, ⟨_, rfl⟩⟩

theorem witness_ResultIsWrittenOnlyByReturn :
    ∃ t, step (State.reset.withFetchWord 32 0x23000001) = .next t ∧
      t.seq.res ≠ (State.reset.withFetchWord 32 0x23000001).seq.res := ⟨_, rfl, by decide⟩

theorem witness_OperationsAreAcceptedOnlyWhenIdle :
    Instr.wellFormed lay (.getsys) = true ∧ encode lay .getsys = .cmd 0x24000000 ∧ (polling (regs 3 0) .hse).seq.busy = true := by
  decide

theorem witness_StepRunsThePresentedInstruction :
    (let s := { turns State.reset [.seq, .mux] with program := [.cmd 0x24000000, .text .getsys] };
      decode lay (.cmd 0x24000000) = .ok .getsys ∧ s.seq.busy = false ∧ s.program = .cmd 0x24000000 :: [.text .getsys] ∧
        s.sched = .seq :: [.mux]) ∧
    (let s := { State.reset with program := [.text (.setsys 4)] };
      decode lay (.text (.setsys 4)) = .ok (.setsys 4) ∧ s.seq.busy = false ∧ s.program = .text (.setsys 4) :: [] ∧
        s.sched = [] ∧ firstEnabled s = none) ∧
    (let s := turns State.reset [.ext 0 0x8030 1, .seq];
      decode lay (.bus 0x8030 1) = .ok (.wrEnrHs1 1) ∧ s.sched = .ext 0 0x8030 1 :: [.seq]) ∧
    (turns State.reset [.access 3 ⟨true, 0x40023830, 4, 1⟩, .seq]).sched =
      .access 3 ⟨true, 0x40023830, 4, 1⟩ :: [.seq] := by decide

theorem witness_PlacedInstructionRunsNext :
    decodeTableWord 32 0x21001001 = some (.setclk 16 1) ∧ decodeTableWord 16 0x8008 = some (.wrCfgr 0) ∧
    decode otherLayout (packetOf 16 0x8008) = .ok (.wrCr 0) := by decide

theorem witness_ResetEventRestoresTheRegisters :
    (turns (polling (regs 0x00010003 0) .hse) [.reset, .seq]).sched = .reset :: [.seq] := rfl

theorem witness_FinishedRunsStayAsTheyAre : Over (regs 3 1) ∧ (regs 3 1).sched = [] := ⟨⟨rfl, rfl, by decide⟩, rfl⟩

theorem witness_ResultReadOnlyAfterReturn :
    (let s := turns { State.reset with seq := { State.reset.seq with res := 3, resDefined := true } } [.result];
      s.sched = .result :: [] ∧ s.seq.resDefined = true) ∧
    (let s := turns State.reset [.result];
      s.sched = .result :: [] ∧ s.seq.resDefined = false) := by decide

end Sys2Proof.Tests
end

/-! The machine as a whole: the parameters, what a step presents, and runs that are over. -/

namespace Sys2Proof.Machine

/-! Parameters (R5). -/

theorem seqStep_params {s t : State} (h : seqStep s = .next t) : t.params = s.params := by
  rcases seqStep_cases h with ⟨_, _, _, _, _, _, rfl⟩ | ⟨_, _, _, _, _, rfl⟩ | ⟨_, _, rfl⟩ <;> rfl

theorem Event.params_eq {s t : State} (e : Event s t) : t.params = s.params := by
  cases e with
  | primitive _ h => exact seqStep_params h
  | inputs | hardware | write | accepted | sentinel | reset => rfl

theorem Events.params_eq {s t : State} (h : Events s t) : t.params = s.params :=
  h.keeps (P := fun u => u.params = s.params) (fun _ _ e hp => e.params_eq.trans hp) rfl

/-- Settles O52: a step is a chain of events, and no event changes the parameters. -/
theorem parametersNeverChange : Obligations.ParametersNeverChange :=
  fun _ _ h => (step_events h).params_eq

/-! What a step presents (R8, R61). -/

theorem passTurn_of_empty {s : State} (hs : s.sched = []) : passTurn s = s := by
  unfold passTurn
  rw [hs, List.tail_nil, ← hs]

theorem present_of_decode {pk : Packet} {i : Instr} {s : State} (h : decode s.params.layout pk = .ok i)
    (l : List Turn) (ps : List Packet) (c : Context) :
    present pk (presenting s l ps c) = exec i (presenting s l ps c) := by
  unfold present
  rw [h]

theorem seqTurn_of_idle_cons {s : State} {pk : Packet} {ps : List Packet} (hb : s.seq.busy = false)
    (hp : s.program = pk :: ps) : seqTurn s = present pk (presenting s s.sched.tail ps .caller) := by
  unfold seqTurn
  rw [hb, hp]
  rfl

theorem seqTurn_of_idle_nil {s : State} (hb : s.seq.busy = false) (hp : s.program = []) :
    seqTurn s = .next (passTurn s) := by
  unfold seqTurn
  rw [hb, hp]
  rfl

theorem step_of_no_hardware {s : State} (hs : s.sched = []) (hf : firstEnabled s = none) : step s = seqTurn s := by
  rw [step_of_empty hs]
  unfold defaultTurn
  rw [hf]

theorem step_of_ext {s : State} {c : Nat} {desc : BitVec 16} {d : Word} {rest : List Turn}
    (hs : s.sched = .ext c desc d :: rest) :
    step s = present (.bus desc d) (presenting s rest s.program (.ext c)) := by
  unfold step takeTurn passTurn
  rw [hs]
  rfl

theorem step_of_access {s : State} {c : Nat} {a : Access} {rest : List Turn} (hs : s.sched = .access c a :: rest) :
    step s = busAccess a (presenting s rest s.program (.ext c)) := by
  unfold step takeTurn passTurn
  rw [hs]
  rfl

/-- Settles O55: each turn hands its packet to `present`, which runs what the packet decodes to. -/
theorem stepRunsThePresentedInstruction : Obligations.StepRunsThePresentedInstruction := by
  refine ⟨fun s pk i ps rest hd hb hp hs => ?listed, fun s pk i ps hd hb hp hs hf => ?default,
    fun s c desc d i rest hd hs => ?descriptor, fun s c a rest hs => step_of_access hs⟩
  case listed =>
    rw [step_of_seq hs, seqTurn_of_idle_cons hb hp, present_of_decode hd, hs, List.tail_cons]
  case default =>
    rw [step_of_no_hardware hs hf, seqTurn_of_idle_cons hb hp, present_of_decode hd, hs, List.tail_nil]
  case descriptor =>
    rw [step_of_ext hs, present_of_decode hd]

/-! Runs that are over (R8, R202). -/

/-- A state that is over, with no turn listed, is a fixed point of `step`. -/
theorem Over.step_eq {s : State} (ho : Over s) (hs : s.sched = []) : step s = .next s := by
  obtain ⟨hb, hp, hf⟩ := ho
  rw [step_of_no_hardware hs hf, seqTurn_of_idle_nil hb hp, passTurn_of_empty hs]

/-- A run of any length stays at a fixed point of `step`. -/
theorem run_of_step_fixed {s : State} (h : step s = .next s) (n : Nat) : Sys2Proof.core.run n s = .next s := by
  induction n with
  | zero => rfl
  | succ n ih => rw [run_succ_next h, ih]

theorem reset_over : Over State.reset := ⟨rfl, rfl, by decide⟩

/-- Settles O59: a state that is over is a fixed point of `step`, and so of runs of every length. -/
theorem finishedRunsStayAsTheyAre : Obligations.FinishedRunsStayAsTheyAre :=
  ⟨reset_over, fun _ ho hs n => run_of_step_fixed (ho.step_eq hs) n⟩

end Sys2Proof.Machine

/-! What one step does to the register memory: a hardware agent's action, or bus writes, of which only SETSYS makes more
than one within a step. From it the rules about ready bits, the status field and RES, and the machine's invariant. -/

namespace Sys2Proof.Machine

/-! The bus writes of SEQ (R26, R27). -/

theorem store_inv {r : Reg} {d : Word} {s t : State} (h : store r d s = .next t) :
    ∃ n, Wrote s.params s.mem r n ∧ t = { s with mem := n, seq := { s.seq with upc := s.seq.upc + 1 } } := by
  obtain ⟨s', hw, hs⟩ := andThen_eq_next h
  obtain ⟨n, hn, rfl⟩ := writeReg_next hw
  cases hs
  exact ⟨n, hn, rfl⟩

/-- The primitive for which `nextStore` names a register and a word is their bus write. -/
theorem seqStep_of_nextStore {s : State} {r : Reg} {d : Word} (h : nextStore s = some (r, d)) :
    seqStep s = store r d s := by
  unfold nextStore at h
  split at h <;> cases h
  all_goals
    rename_i ho hu
    simp only [seqStep, ho, stepEnclk, stepDisclk, stepSetbyp, stepSetclk, stepSetsys, hu]
    rfl

/-- Every other primitive leaves the register memory as it is: of each operation's arms, the reads, polls and returns
do by computation, and the stores are those `nextStore` names. -/
theorem seqStep_mem_of_no_store {s t : State} (hn : nextStore s = none) (h : seqStep s = .next t) : t.mem = s.mem := by
  unfold nextStore at hn
  unfold seqStep stepEnclk stepDisclk stepSetbyp stepSetclk stepGetclk stepSetsys stepGetsys at h
  cases hop : s.seq.op <;> simp only [hop] at h hn <;> (repeat' split at h) <;>
    first | (cases h; rfl) | simp_all

theorem nextStore_of_setsys {s : State} {r : Reg} {d : Word} (h : nextStore s = some (r, d))
    (ho : s.seq.op = .setsys) : r = .cfgr := by
  unfold nextStore at h
  split at h <;> simp_all

theorem nextStore_upc {s : State} {r : Reg} {d : Word} (h : nextStore s = some (r, d)) (ho : s.seq.op ≠ .setsys) :
    s.seq.upc = 1 := by
  unfold nextStore at h
  split at h <;> simp_all

theorem seqStep_mem_cases {s t : State} (h : seqStep s = .next t) :
    t.mem = s.mem ∨
      ∃ r d, nextStore s = some (r, d) ∧ Wrote s.params s.mem r t.mem ∧ t.seq.upc = s.seq.upc + 1 := by
  cases hn : nextStore s with
  | none => exact .inl (seqStep_mem_of_no_store hn h)
  | some rd =>
    obtain ⟨r, d⟩ := rd
    rw [seqStep_of_nextStore hn] at h
    obtain ⟨n, hw, rfl⟩ := store_inv h
    exact .inr ⟨r, d, rfl, hw, rfl⟩

theorem seqStep_op {s t : State} (h : seqStep s = .next t) : t.seq.op = s.seq.op := by
  rcases seqStep_cases h with ⟨_, _, _, _, _, _, rfl⟩ | ⟨_, _, _, _, _, rfl⟩ | ⟨_, _, rfl⟩ <;> rfl

/-- `upc` drops only by the return, which ends the operation (R27). -/
theorem seqStep_upc_le {s t : State} (h : seqStep s = .next t) (hb : t.seq.busy = true) : s.seq.upc ≤ t.seq.upc := by
  rcases seqStep_cases h with ⟨_, _, _, hk, _, _, rfl⟩ | ⟨_, _, _, _, _, rfl⟩ | ⟨_, _, rfl⟩
  · exact hk
  · exact Nat.le_succ _
  · cases hb

/-! What the bus writes of one step leave. -/

/-- `n` is reached from `m` by writes of CFGR, if any (R93). -/
def CfgrWrites (P : Params) : Memory → Memory → Prop := Relation.ReflTransGen fun m n => ∃ d, n = m.writeCfgr P d

/-- `n` is reached from `m` by the bus writes of one step, of whatever agent: one write of any register, or writes of
CFGR alone, if any (R47, R140). -/
inductive Stored (P : Params) (m n : Memory) : Prop where
  | one {r : Reg} (h : Wrote P m r n)
  | cfgr (h : CfgrWrites P m n)

theorem Stored.refl (P : Params) (m : Memory) : Stored P m m := .cfgr .refl

/-- A state `u` that SEQ reaches from `s` within an operation other than SETSYS: once it has written, it is past the
operation's only write. -/
structure RanOneStore (s u : State) : Prop where
  params : u.params = s.params
  op : u.seq.op ≠ .setsys
  mem : u.mem = s.mem ∨ (∃ r, Wrote s.params s.mem r u.mem) ∧ (u.seq.busy = true → 2 ≤ u.seq.upc)

theorem RanOneStore.next {s u v : State} (h : RanOneStore s u) (hb : u.seq.busy = true)
    (hs : seqStep (passTurn u) = .next v) : RanOneStore s v := by
  obtain ⟨hp, ho, hm⟩ := h
  refine ⟨(seqStep_params hs).trans hp, fun e => ho ((seqStep_op hs).symm.trans e), ?_⟩
  have hupc := seqStep_upc_le hs
  rcases seqStep_mem_cases hs with hmem | ⟨r, d, hn, hw, hk⟩
  · rw [hmem]
    exact hm.imp id fun ⟨hw, h2⟩ => ⟨hw, fun hb' => (h2 hb).trans (hupc hb')⟩
  · have h1 : u.seq.upc = 1 := nextStore_upc hn ho
    rcases hm with hmem | ⟨_, h2⟩
    · simp only [passTurn_params, passTurn_mem, hp, hmem] at hw
      exact .inr ⟨⟨r, hw⟩, fun _ => by rw [hk, passTurn_seq, h1]⟩
    · exact absurd (h2 hb) (by omega)

/-- A state `u` that SEQ reaches from `s` within SETSYS. -/
structure RanSetsys (s u : State) : Prop where
  params : u.params = s.params
  op : u.seq.op = .setsys
  mem : CfgrWrites s.params s.mem u.mem

theorem RanSetsys.next {s u v : State} (h : RanSetsys s u) (hs : seqStep (passTurn u) = .next v) : RanSetsys s v := by
  obtain ⟨hp, ho, hm⟩ := h
  refine ⟨(seqStep_params hs).trans hp, (seqStep_op hs).trans ho, ?_⟩
  rcases seqStep_mem_cases hs with hmem | ⟨r, d, hn, hw, _⟩
  · rw [hmem]; exact hm
  · cases nextStore_of_setsys hn ho
    generalize v.mem = n at hw ⊢
    cases hw with
    | cfgr d => exact hm.tail ⟨d, by rw [passTurn_params, hp]; rfl⟩

theorem runSeq_stored (n : Nat) {s t : State} (h : runSeq n s = .next t) : Stored s.params s.mem t.mem := by
  by_cases ho : s.seq.op = .setsys
  · exact .cfgr (runSeq_induct (P := RanSetsys s) (fun _ _ _ hu hs => hu.next hs) n h ⟨rfl, ho, .refl⟩).mem
  · have hr : RanOneStore s t :=
      runSeq_induct (P := RanOneStore s) (fun _ _ hb hu hs => hu.next hb hs) n h ⟨rfl, ho, .inl rfl⟩
    rcases hr.mem with hm | ⟨⟨r, hw⟩, _⟩
    · rw [hm]; exact .refl _ _
    · exact .one hw

/-- What a step other than RESET does to the register memory: a hardware agent's action in that agent's own turn, or
bus writes. -/
theorem step_mem_cases {s t : State} (h : step s = .next t) (hs : s.sched.head? ≠ some .reset) :
    (∃ a : Hardware, (s.sched.head? = some a.turn ∨ (s.sched = [] ∧ firstEnabled s = some a)) ∧
      t.seq = s.seq ∧ t.mem = a.act s.params s.mem) ∨ Stored s.params s.mem t.mem := by
  cases step_kind h with
  | inputs | sentinel => exact .inr (.refl _ _)
  | hardware _ a ha => exact .inl ⟨a, ha, rfl, rfl⟩
  | write _ hw => exact .inr (.one hw)
  | reset _ hr => exact absurd hr hs
  | resumed _ hr => exact .inr (runSeq_stored _ hr)
  | @accepted l _ ps q _ _ _ _ _ _ _ c hr =>
    exact .inr (runSeq_stored (s := { presenting s l ps c with seq := q }) _ hr)

/-! Ready bits (R16, R160, R161). -/

/-- A source ready after a write of CR was ready before it, and with immediate clearing it is enabled (R91). -/
theorem rdy_of_writeCr_rdy {P : Params} {m : Memory} {d : Word} {x : Source}
    (h : (m.writeCr P d).rdy.get x = true) :
    m.rdy.get x = true ∧ (P.readyClear = .immediate → (m.writeCr P d).en.get x = true) := by
  by_cases hx : x ∈ P.layout.sources
  · rw [writeCr_rdy P d m hx, Bool.and_eq_true] at h
    refine ⟨h.1, fun hc => ?_⟩
    rw [writeCr_en P d m hx]
    simpa [hc] using h.2
  · rw [PerSource.get_outside hx (writeCr_rdy_length P d m)] at h
    cases h

/-- A ready source that a write of CR leaves enabled stays ready (R91). -/
theorem writeCr_rdy_of_en {P : Params} {m : Memory} {d : Word} {x : Source} (hr : m.rdy.get x = true)
    (he : (m.writeCr P d).en.get x = true) : (m.writeCr P d).rdy.get x = true := by
  by_cases hx : x ∈ P.layout.sources
  · rw [writeCr_en P d m hx] at he
    rw [writeCr_rdy P d m hx, hr, he]
    rfl
  · rw [PerSource.get_outside hx (writeCr_en_length P d m)] at he
    cases he

theorem stabilizeEnabled_iff (P : Params) (x : Source) (m : Memory) : stabilizeEnabled P x m = true ↔
    m.en.get x = true ∧ m.rdy.get x = false ∧ P.stabilizes.get x = true := by
  simp [stabilizeEnabled, and_assoc]

theorem decayEnabled_iff (P : Params) (x : Source) (m : Memory) : decayEnabled P x m = true ↔
    P.readyClear = .eventual ∧ m.en.get x = false ∧ m.rdy.get x = true := by
  simp [decayEnabled, and_assoc]

theorem cfgrWrites_rdy {P : Params} {m n : Memory} (h : CfgrWrites P m n) : n.rdy = m.rdy := by
  induction h with
  | refl => rfl
  | tail _ hd ih =>
    obtain ⟨d, rfl⟩ := hd
    rw [← ih, Memory.writeCfgr, followNow_rdy]

/-- Bus writes raise no ready bit (R16). -/
theorem Stored.rdy_falls {P : Params} {m n : Memory} {x : Source} (h : Stored P m n) (hr : n.rdy.get x = true) :
    m.rdy.get x = true := by
  cases h with
  | cfgr h => rwa [cfgrWrites_rdy h] at hr
  | one h =>
    cases h with
    | enr => exact hr
    | cr => exact (rdy_of_writeCr_rdy hr).1
    | cfgr => rwa [Memory.writeCfgr, followNow_rdy] at hr

/-- Bus writes clear the ready bit of no source they leave enabled (R161). -/
theorem Stored.rdy_of_en {P : Params} {m n : Memory} {x : Source} (h : Stored P m n) (hr : m.rdy.get x = true)
    (he : n.en.get x = true) : n.rdy.get x = true := by
  cases h with
  | cfgr h => rwa [cfgrWrites_rdy h]
  | one h =>
    cases h with
    | enr => exact hr
    | cr => exact writeCr_rdy_of_en hr he
    | cfgr => rwa [Memory.writeCfgr, followNow_rdy]

/-- A ready bit that a hardware action raises is of the source whose oscillator stabilises (R160). -/
theorem hardware_act_rises {P : Params} {m : Memory} {a : Hardware} {x : Source} (h0 : m.rdy.get x = false)
    (h1 : (a.act P m).rdy.get x = true) : a = .osc x ∧ stabilizeEnabled P x m = true := by
  rcases hardware_act_cases P m a with h | ⟨y, rfl, hy, h⟩ | ⟨y, rfl, hy, h⟩ | ⟨_, _, h⟩ <;> rw [h] at h1
  · exact absurd (h0.symm.trans h1) (by decide)
  · by_cases e : x = y
    · subst e; exact ⟨rfl, hy⟩
    · rw [followNow_rdy, PerSource.get_set_other _ _ e, h0] at h1
      cases h1
  · have e : x ≠ y := fun e => by simp [← e, decayEnabled_iff, h0] at hy
    rw [PerSource.get_set_other _ _ e, h0] at h1
    cases h1
  · exact absurd (h0.symm.trans h1) (by decide)

/-- A hardware action keeps the ready bit of an enabled source (R162). -/
theorem hardware_act_rdy_of_en {P : Params} {m : Memory} {a : Hardware} {x : Source} (hr : m.rdy.get x = true)
    (he : m.en.get x = true) : (a.act P m).rdy.get x = true := by
  rcases hardware_act_cases P m a with h | ⟨y, rfl, hy, h⟩ | ⟨y, rfl, hy, h⟩ | ⟨_, _, h⟩ <;> rw [h]
  · exact hr
  · have e : x ≠ y := fun e => by simp [← e, stabilizeEnabled_iff, hr] at hy
    rwa [followNow_rdy, PerSource.get_set_other _ _ e]
  · have e : x ≠ y := fun e => by simp [← e, decayEnabled_iff, he] at hy
    rwa [PerSource.get_set_other _ _ e]
  · exact hr

theorem hardware_act_en (P : Params) (m : Memory) (a : Hardware) :
    (a.act P m).en = m.en ∧ (a.act P m).enr = m.enr := by
  rcases hardware_act_cases P m a with h | ⟨_, _, _, h⟩ | ⟨_, _, _, h⟩ | ⟨_, _, h⟩ <;> simp [h]

/-- Settles O47: bus writes raise no ready bit, and a hardware action raises only that of its own oscillator. -/
theorem readyRisesOnlyByStabilizing : Obligations.ReadyRisesOnlyByStabilizing := by
  intro x s t h hs h0 h1
  rcases step_mem_cases h hs with ⟨a, ha, hseq, hm⟩ | hw
  · rw [hm] at h1 ⊢
    obtain ⟨rfl, hg⟩ := hardware_act_rises h0 h1
    obtain ⟨hen, _, hst⟩ := (stabilizeEnabled_iff _ _ _).mp hg
    obtain ⟨hen', henr'⟩ := hardware_act_en s.params s.mem (.osc x)
    exact ⟨ha, hen, hst, hseq, hen', henr'⟩
  · exact absurd (h0.symm.trans (hw.rdy_falls h1)) (by decide)

/-! The status field (R21, R24, R163). -/

theorem muxEnabled_iff (P : Params) (m : Memory) :
    muxEnabled P m = true ↔ m.sws ≠ m.sw ∧ m.rdy.get (P.selDep.get m.sw) = true := by
  simp [muxEnabled, selDep]

/-- An immediate follow moves the status field only to a ready source. -/
theorem followNow_sws_ready (P : Params) (m : Memory) :
    (m.followNow P).sws = m.sws ∨ (m.followNow P).rdy.get (P.selDep.get (m.followNow P).sws) = true := by
  rcases followNow_cases P m with h | ⟨_, hg, h⟩ <;> rw [h]
  · exact .inl rfl
  · exact .inr ((muxEnabled_iff P m).mp hg).2

theorem cfgrWrites_sws {P : Params} {m n : Memory} (h : CfgrWrites P m n) :
    n.sws = m.sws ∨ n.rdy.get (P.selDep.get n.sws) = true := by
  induction h with
  | refl => exact .inl rfl
  | tail _ hd ih =>
    obtain ⟨d, rfl⟩ := hd
    rename_i k _
    rcases followNow_sws_ready P
        { k with sw := field2 d P.layout.swPos, cfgrOther := d &&& P.layout.cfgrOtherMask } with h | h
    · rw [Memory.writeCfgr, h, followNow_rdy]
      exact ih
    · exact .inr h

theorem Stored.sws_ready {P : Params} {m n : Memory} (h : Stored P m n) :
    n.sws = m.sws ∨ n.rdy.get (P.selDep.get n.sws) = true := by
  cases h with
  | cfgr h => exact cfgrWrites_sws h
  | one h =>
    cases h with
    | enr | cr => exact .inl rfl
    | cfgr d => exact cfgrWrites_sws (.single ⟨d, rfl⟩)

theorem hardware_act_sws_ready (P : Params) (m : Memory) (a : Hardware) :
    (a.act P m).sws = m.sws ∨ (a.act P m).rdy.get (P.selDep.get (a.act P m).sws) = true := by
  rcases hardware_act_cases P m a with h | ⟨y, _, _, h⟩ | ⟨y, _, _, h⟩ | ⟨_, hg, h⟩ <;> rw [h]
  · exact .inl rfl
  · exact followNow_sws_ready P { m with rdy := m.rdy.set y true }
  · exact .inl rfl
  · exact .inr ((muxEnabled_iff P m).mp hg).2

/-- Settles O48: MUX's guard holds wherever the status field moves, and no later write of the same step clears a ready
bit, since a step that writes CFGR writes nothing else. -/
theorem statusOnlyMovesToReadySources : Obligations.StatusOnlyMovesToReadySources := by
  intro s t h hs
  rw [(step_events h).params_eq]
  rcases step_mem_cases h hs with ⟨a, _, _, hm⟩ | hw
  · rw [hm]
    exact hardware_act_sws_ready s.params s.mem a
  · exact hw.sws_ready

/-! The machine's invariant. -/

/-- The part of `MachineInv` that speaks of the register memory. -/
structure MemoryInv (P : Params) (m : Memory) : Prop where
  wf : m.wf P = true
  ready : P.readyClear = .immediate → ∀ x, m.rdy.get x = true → m.en.get x = true
  follow : P.swsFollow = .immediate → muxEnabled P m = false

/-- Ready bits that fall leave MUX with nothing to do if it had nothing to do. -/
theorem muxEnabled_of_rdy_falls {P : Params} {m n : Memory} (hsw : n.sw = m.sw) (hsws : n.sws = m.sws)
    (hr : ∀ x, n.rdy.get x = true → m.rdy.get x = true) (h : muxEnabled P m = false) : muxEnabled P n = false := by
  rw [Bool.eq_false_iff, Ne, muxEnabled_iff] at h ⊢
  rw [hsw, hsws]
  exact fun ⟨hne, hn⟩ => h ⟨hne, hr _ hn⟩

theorem Wrote.memoryInv {P : Params} {m n : Memory} {r : Reg} (h : Wrote P m r n) (hm : MemoryInv P m) :
    MemoryInv P n := by
  refine ⟨h.wf hm.wf, fun hc x => ?ready, fun hf => ?follow⟩
  case ready =>
    cases h with
    | enr => exact hm.ready hc x
    | cr => exact fun hr => (rdy_of_writeCr_rdy hr).2 hc
    | cfgr => simpa [Memory.writeCfgr] using hm.ready hc x
  case follow =>
    cases h with
    | enr => exact hm.follow hf
    | cr => exact muxEnabled_of_rdy_falls (m := m) rfl rfl (fun _ hr => (rdy_of_writeCr_rdy hr).1) (hm.follow hf)
    | cfgr => exact muxEnabled_followNow hf _

theorem Hardware.memoryInv {P : Params} {m : Memory} (a : Hardware) (hm : MemoryInv P m) : MemoryInv P (a.act P m) := by
  refine ⟨a.act_wf hm.wf, fun hc x hx => ?ready, fun hf => ?follow⟩
  case ready =>
    rw [(hardware_act_en P m a).1]
    cases h0 : m.rdy.get x with
    | true => exact hm.ready hc x h0
    | false => exact ((stabilizeEnabled_iff P x m).mp (hardware_act_rises h0 hx).2).1
  case follow =>
    rcases hardware_act_cases P m a with h | ⟨y, _, _, h⟩ | ⟨y, rfl, hy, h⟩ | ⟨_, _, h⟩
    · rw [h]; exact hm.follow hf
    · rw [h]; exact muxEnabled_followNow hf _
    · refine muxEnabled_of_rdy_falls (by rw [h]) (by rw [h]) (fun x hx => ?_) (hm.follow hf)
      cases h0 : m.rdy.get x with
      | true => rfl
      | false =>
        obtain ⟨e, hs⟩ := hardware_act_rises h0 hx
        cases e
        simp [decayEnabled_iff, h0] at hy
    · simp [h, muxEnabled]

theorem Memory.reset_memoryInv {P : Params} (h : paramsWf P = true) : MemoryInv P (Memory.reset P) :=
  ⟨Memory.reset_wf h, fun _ _ hx => hx, fun _ => rfl⟩

theorem MachineInv.memoryInv {s : State} (h : MachineInv s) : MemoryInv s.params s.mem := ⟨h.mem, h.ready, h.follow⟩

/-- A state with the same parameters meets the invariant if its memory, `upc`, latched source and latches do. -/
theorem MachineInv.of_memoryInv {s t : State} (h : MachineInv s) (hp : t.params = s.params)
    (hm : MemoryInv s.params t.mem) (hu : t.seq.upc ≤ if t.seq.busy then lastUpc t.seq.op else 0)
    (hx : t.seq.src ∈ s.params.layout.sources) (hl : t.latches.wf = true) : MachineInv t := by
  obtain ⟨hw, hr, hf⟩ := hm
  rw [← hp] at hw hr hf hx
  exact ⟨hp ▸ h.params, hw, hr, hf, hu, hx, hl⟩

theorem seqStep_machineInv {s t : State} (hb : s.seq.busy = true) (h : seqStep s = .next t) (hi : MachineInv s) :
    MachineInv t := by
  rcases seqStep_cases h with ⟨_, _, k, _, hk, hlt, rfl⟩ | ⟨_, n, _, hw, hlt, rfl⟩ | ⟨_, _, rfl⟩
  · refine hi.of_memoryInv rfl hi.memoryInv ?_ hi.src hi.latches
    simp only [hb, if_true]
    omega
  · refine hi.of_memoryInv rfl (hw.memoryInv hi.memoryInv) ?_ hi.src hi.latches
    simp only [hb, if_true]
    omega
  · exact hi.of_memoryInv rfl hi.memoryInv (Nat.le_refl 0) hi.src hi.latches

theorem Event.machineInv {s t : State} (e : Event s t) (hi : MachineInv s) : MachineInv t := by
  cases e with
  | inputs hl => exact hi.of_memoryInv rfl hi.memoryInv hi.upc hi.src (hl.wf hi.latches)
  | hardware a => exact hi.of_memoryInv rfl (a.memoryInv hi.memoryInv) hi.upc hi.src hi.latches
  | write hw => exact hi.of_memoryInv rfl (hw.memoryInv hi.memoryInv) hi.upc hi.src hi.latches
  | primitive hb hs => exact seqStep_machineInv hb hs hi
  | accepted q _ _ hu hx => exact hi.of_memoryInv rfl hi.memoryInv (by simp [hu]) (hx hi.src) hi.latches
  | sentinel => exact hi.of_memoryInv rfl hi.memoryInv (Nat.le_refl 0) hi.src hi.latches
  | reset => exact hi.of_memoryInv rfl (Memory.reset_memoryInv hi.params) (Nat.le_refl 0) hi.src hi.latches

/-- Settles O50: a step is a chain of events, and each event keeps the invariant. -/
theorem everyStepKeepsTheInvariant : Obligations.EveryStepKeepsTheInvariant :=
  fun _ _ hi h => (step_events h).keeps (fun _ _ e => e.machineInv) hi

/-! The state machine of a clock source (R23). -/

/-- In every step but RESET a ready source that is left enabled stays ready. -/
theorem step_rdy_of_en {s t : State} {x : Source} (h : step s = .next t) (hs : s.sched.head? ≠ some .reset)
    (hr : s.mem.rdy.get x = true) (he : t.mem.en.get x = true) : t.mem.rdy.get x = true := by
  rcases step_mem_cases h hs with ⟨a, _, _, hm⟩ | hw
  · rw [hm, (hardware_act_en s.params s.mem a).1] at he
    rw [hm]
    exact hardware_act_rdy_of_en hr he
  · exact hw.rdy_of_en hr he

/-- Settles O49: the invariant rules STOPPING out on both sides, a ready bit rises only in an enabled source, and it
falls only with the enable bit. -/
theorem sourceStateMachine : Obligations.SourceStateMachine := by
  intro x s t hi hc h hs
  have hbefore := hi.ready hc x
  have hafter := (everyStepKeepsTheInvariant s t hi h).ready ((step_events h).params_eq ▸ hc) x
  have hrise : s.mem.rdy.get x = false → t.mem.rdy.get x = true → s.mem.en.get x = true := fun h0 h1 =>
    (readyRisesOnlyByStabilizing x s t h hs h0 h1).2.1
  have hfall : s.mem.rdy.get x = true → t.mem.en.get x = true → t.mem.rdy.get x = true := step_rdy_of_en h hs
  unfold sourceState
  cases h0 : s.mem.rdy.get x <;> cases h1 : t.mem.rdy.get x
  case true.true => simp [hbefore h0, hafter h1]
  case true.false =>
    have hen : t.mem.en.get x = false := Bool.eq_false_iff.mpr fun he => by simp [hfall h0 he] at h1
    simp [hbefore h0, hen]
  case false.true => simp [hrise h0 h1, hafter h1]
  case false.false => cases s.mem.en.get x <;> cases t.mem.en.get x <;> simp

/-! RES (R28, R35). -/

theorem step_of_result {s : State} {rest : List Turn} (hs : s.sched = .result :: rest) :
    step s = readResult { s with sched := rest } := by
  unfold step takeTurn passTurn
  rw [hs]
  rfl

/-- Settles O60: the turn is `readResult`, which asks whether an operation has returned. -/
theorem resultReadOnlyAfterReturn : Obligations.ResultReadOnlyAfterReturn := by
  intro s rest hs
  rw [step_of_result hs]
  unfold readResult
  refine ⟨fun hd => ?_, fun hd => ?_⟩ <;> simp [hd]

/-- SEQ's turns write RES only by a return. -/
theorem runSeq_res {n : Nat} {s t : State} (h : runSeq n s = .next t) :
    t.seq.res = s.seq.res ∨ Returned t.seq.res t.seq := by
  refine runSeq_induct (P := fun u => u.seq.res = s.seq.res ∨ Returned u.seq.res u.seq)
    (fun u v hb hu hs => ?_) n h (.inl rfl)
  have hres : u.seq.res = s.seq.res := hu.resolve_right fun ⟨hidle, _⟩ => by simp [hb] at hidle
  rcases seqStep_cases hs with ⟨_, _, _, _, _, _, rfl⟩ | ⟨_, _, _, _, _, rfl⟩ | ⟨_, _, rfl⟩
  · exact .inl hres
  · exact .inl hres
  · exact .inr ⟨rfl, rfl, rfl, rfl⟩

/-- A step writes RES only by a return. -/
theorem StepKind.res {s t : State} (h : StepKind s t) : t.seq.res = s.seq.res ∨ Returned t.seq.res t.seq := by
  cases h with
  | inputs | hardware | write | reset => exact .inl rfl
  | sentinel => exact .inr ⟨rfl, rfl, rfl, rfl⟩
  | resumed _ h => exact runSeq_res h
  | accepted _ _ _ _ _ hr _ h => exact (runSeq_res h).imp (fun e => e.trans hr) id

theorem present_bus_seq {desc : BitVec 16} {d : Word} {s t : State} (h : present (.bus desc d) s = .next t) :
    t.seq = s.seq := by
  rcases present_bus_next h with ⟨_, _, rfl⟩ | ⟨_, _, _, _, rfl⟩ <;> rfl

theorem busAccess_seq {a : Access} {s t : State} (h : busAccess a s = .next t) : t.seq = s.seq := by
  rcases busAccess_next h with ⟨_, _, rfl⟩ | ⟨_, _, _, _, rfl⟩ <;> rfl

theorem readResult_seq {s t : State} (h : readResult s = .next t) : t.seq = s.seq := by
  unfold readResult at h
  split at h <;> cases h
  rfl

/-- A step that changes RES is one in SEQ's turn, listed or by default. -/
theorem seq_turn_of_res_ne {s t : State} (h : step s = .next t) (hne : t.seq.res ≠ s.seq.res) :
    s.sched.head? = some .seq ∨ (s.sched = [] ∧ firstEnabled s = none) := by
  have other : t.seq = s.seq → False := fun e => hne (by rw [e])
  rcases hs : s.sched with _ | ⟨y, rest⟩
  · rw [step_of_empty hs] at h
    unfold defaultTurn at h
    cases hf : firstEnabled s with
    | none => exact .inr ⟨rfl, rfl⟩
    | some a => rw [hf] at h; cases h; exact (other rfl).elim
  · cases y with
    | seq => exact .inl rfl
    | ext c desc d =>
      have e := present_bus_seq ((step_of_ext hs).symm.trans h)
      exact (other e).elim
    | access c a =>
      have e := busAccess_seq ((step_of_access hs).symm.trans h)
      exact (other e).elim
    | result =>
      have e := readResult_seq ((step_of_result hs).symm.trans h)
      exact (other e).elim
    | osc | mux | reset =>
      unfold step takeTurn at h
      rw [hs] at h
      cases h
      exact absurd rfl hne

/-- Settles O53: only SEQ's turn changes RES, and there only a return does. -/
theorem resultIsWrittenOnlyByReturn : Obligations.ResultIsWrittenOnlyByReturn :=
  fun _ _ h hne =>
    have ⟨hidle, hupc, _, hdefined⟩ := (step_kind h).res.resolve_left hne
    ⟨seq_turn_of_res_ne h hne, hidle, hupc, hdefined⟩

end Sys2Proof.Machine

/-! Access by address (R40 to R44): which accesses reach a register, and why every other one is refused. -/

namespace Sys2Proof.Machine

theorem busAccess_of_locate_ok {a : Access} {s : State} {r : Reg}
    (h : locate s.params.layout a.addr a.width = .ok r) :
    busAccess a s = exec (if a.write then writeOf a.data r else readOf r) s := by
  unfold busAccess
  rw [h]
  cases a.write
  · exact (exec_readOf r s).symm
  · exact (exec_writeOf a.data r s).symm

theorem busAccess_of_locate_error {a : Access} {s : State} {e : Refusal}
    (h : locate s.params.layout a.addr a.width = .error e) : busAccess a s = .refused e := by
  unfold busAccess
  rw [h]

section Locate
variable {L : Layout} {addr : Word} {width : Nat}

theorem locate_of_width (h : width ≠ 4) : locate L addr width = .error .accessWidth := if_pos h

theorem locate_of_misaligned (hw : width = 4) (h : addr.toNat % 4 ≠ 0) :
    locate L addr width = .error .misalignedAddress := by
  unfold locate
  rw [if_neg (not_not.mpr hw), if_pos (mt (low_bits_zero_iff addr).mp h)]

theorem locate_of_outside (hw : width = 4) (ha : addr.toNat % 4 = 0) (h : 256 ≤ (addr - L.base).toNat) :
    locate L addr width = .error .outsideWindow := by
  unfold locate
  rw [if_neg (not_not.mpr hw), if_neg (not_not.mpr ((low_bits_zero_iff addr).mpr ha)), if_pos h]

/-- A register that stands at the offset of an address in the window has that address (R40). -/
theorem eq_regAddr_of_regAt {r : Reg} (hlt : (addr - L.base).toNat < 256)
    (h : regAt L ((addr - L.base).setWidth 8) = some r) : addr = regAddr L r := by
  have hoff : (L.offset r).setWidth 32 = addr - L.base := by
    rw [offset_of_regAt h]
    apply BitVec.eq_of_toNat_eq
    rw [BitVec.toNat_setWidth, BitVec.toNat_setWidth, Nat.mod_eq_of_lt (show _ < 2 ^ 8 from hlt),
      Nat.mod_eq_of_lt (addr - L.base).isLt]
  rw [regAddr, hoff, BitVec.add_comm, BitVec.sub_add_cancel]

theorem locate_of_unmapped (hw : width = 4) (ha : addr.toNat % 4 = 0) (hlt : (addr - L.base).toNat < 256)
    (h : ∀ r, addr ≠ regAddr L r) : locate L addr width = .error .unmappedOffset := by
  have hnone : regAt L ((addr - L.base).setWidth 8) = none :=
    Option.eq_none_iff_forall_ne_some.mpr fun r hr => h r (eq_regAddr_of_regAt hlt hr)
  unfold locate
  rw [if_neg (not_not.mpr hw), if_neg (not_not.mpr ((low_bits_zero_iff addr).mpr ha)), if_neg (Nat.not_le.mpr hlt), hnone]

end Locate

/-- The window of the default layout (R40). -/
theorem window_default (a : Word) :
    (a - Config.layout.base).toNat < 256 ↔ 0x40023800 ≤ a.toNat ∧ a.toNat ≤ 0x400238FF := by
  have hb : Config.layout.base.toNat = 0x40023800 := rfl
  have ha := a.isLt
  rw [BitVec.toNat_sub, hb]
  omega

/-- Settles O13: `locate` finds a register exactly at its address, and each of its refusals is one clause. -/
theorem accessReachesExactlyTheRegisters : Obligations.AccessReachesExactlyTheRegisters :=
  ⟨fun _ _ _ hL ha hw => busAccess_of_locate_ok ((locate_ok_iff hL _ _ _).mpr ⟨hw, ha⟩),
    fun _ _ hw => busAccess_of_locate_error (locate_of_width hw),
    fun _ _ hw ha => busAccess_of_locate_error (locate_of_misaligned hw ha),
    fun _ _ hw ha hlt hr => busAccess_of_locate_error (locate_of_unmapped hw ha hlt hr),
    fun _ _ hw ha hge => busAccess_of_locate_error (locate_of_outside hw ha hge), window_default⟩

end Sys2Proof.Machine

/-! The instruction `withFetchWord` places is the one that runs next (R51; log 29). -/

namespace Sys2Proof.Machine

theorem step_placePacket_bus {s : State} {desc : BitVec 16} {d : Word} {i : Instr}
    (h : decode s.params.layout (.bus desc d) = .ok i) :
    step (placePacket (.bus desc d) s) = exec i { s with issuer := .ext 0 } := by
  rw [step_of_ext rfl]
  exact present_of_decode (s := s) h s.sched s.program (.ext 0)

theorem step_placePacket_cmd {s : State} {w : Word} {i : Instr} (h : decode s.params.layout (.cmd w) = .ok i) :
    step (placePacket (.cmd w) s) =
      exec i { s with seq := { s.seq with busy := false, upc := 0 }, issuer := .caller } := by
  rw [step_of_seq rfl, seqTurn_of_idle_cons rfl rfl]
  exact present_of_decode (s := { s with seq := { s.seq with busy := false, upc := 0 } }) h s.sched s.program .caller

theorem decodeTableWord_eq_some_iff {nbits w : Nat} {i : Instr} :
    decodeTableWord nbits w = some i ↔ decode Config.layout (packetOf nbits w) = .ok i := by
  unfold decodeTableWord
  cases decode Config.layout (packetOf nbits w) <;> simp

/-- Settles O56: 32 bits are placed as the caller's next packet, any other length as a turn of EXT context 0. -/
theorem placedInstructionRunsNext : Obligations.PlacedInstructionRunsNext := by
  refine ⟨fun s nbits w i h => ?_, fun _ _ _ => decodeTableWord_eq_some_iff⟩
  unfold packetOf at h
  unfold State.withFetchWord packetOf
  by_cases hn : nbits = 32
  · simp only [hn, if_true] at h ⊢
    exact step_placePacket_cmd h
  · simp only [hn, if_false] at h ⊢
    exact step_placePacket_bus h

end Sys2Proof.Machine

/-! The effects of a write, as a later read sees them (R47). -/

namespace Sys2Proof.Machine

/-- A write of one register leaves what a read of every other one returns. -/
theorem Wrote.readReg_other {s : State} {r r' : Reg} {n : Memory} (h : Wrote s.params s.mem r n) (hne : r' ≠ r) :
    readReg r' { s with mem := n } = readReg r' s := by
  cases h with
  | enr g d =>
    cases r' with
    | enr h => rw [readReg_enr, readReg_enr, writeEnr_get_other _ _ _ fun e => hne (congrArg Reg.enr e)]
    | cr | cfgr => rfl
  | cr d =>
    cases r' with
    | cr => exact absurd rfl hne
    | cfgr | enr => rfl
  | cfgr d =>
    cases r' with
    | cfgr => exact absurd rfl hne
    | cr | enr => simp [readReg, crWord, Memory.writeCfgr]

/-! Writing back (R47). -/

section WriteBack
variable {P : Params} {m : Memory}

theorem writeEnr_writeBack (hw : m.wf P = true) (g : BusGroup) : m.writeEnr P g (m.enr.get g &&& P.enrImpl.get g) = m := by
  have he : m.enr.get g &&& P.enrImpl.get g = m.enr.get g := masked_of_canonical (((Memory.wf_iff P m).mp hw).1 g)
  rw [Memory.writeEnr, he, he, PerGroup.set_get]

theorem writeCr_writeBack (hL : P.layout.ok = true) (hm : MemoryInv P m) : m.writeCr P (crWord P.layout m) = m := by
  obtain ⟨_, hc, _, _, _⟩ := (Memory.wf_iff P m).mp hm.wf
  have hen : ∀ x ∈ P.layout.sources, m.en.get x = (crWord P.layout m).getLsbD (P.layout.enPos.get x) :=
    fun x hx => (crWord_en hL hc hx).symm
  refine writeCr_eq hm.wf rfl hen (fun x hx => ?_) ?_ (crWord_other hc).symm rfl rfl rfl
  · rw [← hen x hx, rdy_kept hm.ready]
  · rw [crWord_byp hL hc, ite_self]

/-- Under the invariant an immediate follow finds nothing to do (R163). -/
theorem followNow_of_inv (hm : MemoryInv P m) : m.followNow P = m := by
  rcases followNow_cases P m with h | ⟨hf, hg, _⟩
  · exact h
  · exact absurd (hg.symm.trans (hm.follow hf)) (by decide)

theorem writeCfgr_writeBack (hL : P.layout.ok = true) (hm : MemoryInv P m) : m.writeCfgr P (cfgrWord P.layout m) = m := by
  obtain ⟨_, _, hf, _, _⟩ := (Memory.wf_iff P m).mp hm.wf
  rw [Memory.writeCfgr, cfgrWord_sw hL hf, cfgrWord_other hf]
  exact followNow_of_inv hm

end WriteBack

theorem writeReg_writeBack {s : State} (hi : MachineInv s) (r : Reg) : writeReg r (readReg r s) s = .next s := by
  have hL := ((paramsWf_iff _).mp hi.params).1
  cases r with
  | enr g => rw [writeReg, readReg_enr, writeEnr_writeBack hi.mem]
  | cfgr => rw [writeReg, readReg, writeCfgr_writeBack hL hi.memoryInv]
  | cr =>
    obtain ⟨_, hc, _, _, _⟩ := (Memory.wf_iff _ _).mp hi.mem
    rw [writeReg_cr_of_kept fun x hx he => by rw [readReg, crWord_en hL hc hx, he], readReg,
      writeCr_writeBack hL hi.memoryInv]

/-! An answered write of CR (R91). -/

theorem writeReg_cr_next {d : Word} {s t : State} (h : writeReg .cr d s = .next t) :
    t = { s with mem := s.mem.writeCr s.params d } := by
  unfold writeReg at h
  cases hp : s.params.disableSelected <;> simp only [hp] at h
  case allow => cases h; rfl
  case refuse =>
    split at h <;> cases h
    rfl

/-! CR, position by position (R91). -/

section ControlRegister
variable {P : Params} {m : Memory} {d : Word}

theorem mem_crPositions {L : Layout} {k : Nat} :
    k ∈ L.crPositions ↔ k = L.bypPos ∨ ∃ x ∈ L.sources, k = L.enPos.get x ∨ k = L.rdyPos x := by
  simp [Layout.crPositions]

theorem writeCr_crOther (P : Params) (d : Word) (m : Memory) :
    (m.writeCr P d).crOther = d &&& P.layout.crOtherMask := rfl

theorem crWord_writeCr_rdy (hL : P.layout.ok = true) {x : Source} (hx : x ∈ P.layout.sources) :
    (crWord P.layout (m.writeCr P d)).getLsbD (P.layout.rdyPos x) =
      if d.getLsbD (P.layout.enPos.get x) = false ∧ P.readyClear = .immediate then false else m.rdy.get x := by
  rw [crWord_rdy hL (masked_crAssigned d) hx, writeCr_rdy P d m hx]
  by_cases h : d.getLsbD (P.layout.enPos.get x) = false ∧ P.readyClear = .immediate
  · simp [h]
  · have hkept : (d.getLsbD (P.layout.enPos.get x) || P.readyClear != .immediate) = true := by
      rw [Bool.or_eq_true, bne_iff_ne]
      exact (not_and_or.mp h).imp_left Bool.eq_true_of_not_eq_false
    rw [if_neg h, hkept, Bool.and_true]

theorem crWord_writeCr_byp (hL : P.layout.ok = true) : (crWord P.layout (m.writeCr P d)).getLsbD P.layout.bypPos =
    if P.bypLock && m.en.get .hse then m.byp else d.getLsbD P.layout.bypPos :=
  crWord_byp hL (masked_crAssigned d)

/-- At every position but the ready ones, and the bypass position while it is locked, CR reads as written. -/
theorem crWord_writeCr_written (hL : P.layout.ok = true) {k : Nat} (hk : k < 32)
    (hrdy : ∀ x ∈ P.layout.sources, k ≠ P.layout.rdyPos x)
    (hbyp : k = P.layout.bypPos → P.bypLock = false ∨ m.en.get .hse = false) :
    (crWord P.layout (m.writeCr P d)).getLsbD k = d.getLsbD k := by
  by_cases hp : k ∈ P.layout.crPositions
  · rcases mem_crPositions.mp hp with rfl | ⟨x, hx, rfl | rfl⟩
    · rw [crWord_writeCr_byp hL, if_neg]
      rcases hbyp rfl with h | h <;> simp [h]
    · rw [crWord_en hL (masked_crAssigned d) hx, writeCr_en P d m hx]
    · exact absurd rfl (hrdy x hx)
  · rw [crWord_other_bit _ hk hp, writeCr_crOther, BitVec.getLsbD_and, crOtherMask_bit hk, decide_eq_false hp,
      Bool.not_false, Bool.and_true]

end ControlRegister

/-! CFGR, position by position (R93). -/

section ConfigurationRegister
variable {P : Params} {m : Memory} {d : Word}

/-- Words with equal fields agree at both positions of the field. -/
theorem getLsbD_eq_of_field2 {v w : Word} {k j : Nat} (h : field2 v k = field2 w k) (hj : j < 2) :
    v.getLsbD (k + j) = w.getLsbD (k + j) := by
  have hb := congrArg (fun f : BitVec 2 => f.getLsbD j) h
  simpa only [getLsbD_field2, hj, decide_true, Bool.true_and] using hb

@[simp] theorem writeCfgr_sw (P : Params) (d : Word) (m : Memory) : (m.writeCfgr P d).sw = field2 d P.layout.swPos :=
  followNow_sw P _

@[simp] theorem writeCfgr_cfgrOther (P : Params) (d : Word) (m : Memory) :
    (m.writeCfgr P d).cfgrOther = d &&& P.layout.cfgrOtherMask := followNow_cfgrOther P _

theorem writeCfgr_sws (P : Params) (d : Word) (m : Memory) : (m.writeCfgr P d).sws =
    if P.swsFollow = .immediate ∧ m.rdy.get (P.selDep.get (field2 d P.layout.swPos)) = true
    then field2 d P.layout.swPos else m.sws := followNow_sws P _

/-- At every position but the status field's, CFGR reads as written. -/
theorem cfgrWord_writeCfgr_written (hL : P.layout.ok = true) {k : Nat} (hk : k < 32) (h0 : k ≠ P.layout.swsPos)
    (h1 : k ≠ P.layout.swsPos + 1) : (cfgrWord P.layout (m.writeCfgr P d)).getLsbD k = d.getLsbD k := by
  have ho : (m.writeCfgr P d).cfgrOther &&& P.layout.cfgrAssigned = 0 := by
    rw [writeCfgr_cfgrOther, masked_cfgrAssigned]
  by_cases hp : k ∈ P.layout.cfgrPositions
  · have hsw : field2 (cfgrWord P.layout (m.writeCfgr P d)) P.layout.swPos = field2 d P.layout.swPos := by
      rw [cfgrWord_sw hL ho, writeCfgr_sw]
    have hk' : k = P.layout.swPos ∨ k = P.layout.swPos + 1 := by simpa [Layout.cfgrPositions, h0, h1] using hp
    rcases hk' with rfl | rfl
    · exact getLsbD_eq_of_field2 (j := 0) hsw (by decide)
    · exact getLsbD_eq_of_field2 (j := 1) hsw (by decide)
  · rw [cfgrWord_other_bit _ hp, writeCfgr_cfgrOther, BitVec.getLsbD_and, cfgrOtherMask_bit hk, decide_eq_false hp,
      Bool.not_false, Bool.and_true]

theorem cfgrWord_writeCfgr_sws (hL : P.layout.ok = true) :
    field2 (cfgrWord P.layout (m.writeCfgr P d)) P.layout.swsPos = (m.writeCfgr P d).sws :=
  cfgrWord_sws hL (by rw [writeCfgr_cfgrOther, masked_cfgrAssigned])

end ConfigurationRegister

/-- Settles O12: a write's next memory, field by field, read back at each position. -/
theorem writingBackChangesNothing : Obligations.WritingBackChangesNothing := by
  refine ⟨fun r s hi => ?writeBack, fun r d s t h => ?frame, fun g d s t h => ?enr, fun d s t hw h => ?cr,
    fun d s t hw h => ?cfgr⟩
  case writeBack => exact (exec_writeOf _ r s).trans (writeReg_writeBack hi r)
  case frame =>
    rw [exec_writeOf] at h
    obtain ⟨n, hn, rfl⟩ := writeReg_next h
    exact ⟨rfl, fun r' hne => hn.readReg_other hne⟩
  case enr =>
    rw [exec_writeOf] at h
    cases h
    rw [readReg_enr, writeEnr_get_same, BitVec.and_assoc, BitVec.and_self]
  case cr =>
    obtain ⟨hp, hm⟩ := hw
    have hL := ((paramsWf_iff _).mp hp).1
    obtain ⟨_, hc, _, _, _⟩ := (Memory.wf_iff _ _).mp hm
    cases writeReg_cr_next h
    refine ⟨fun k hk hrdy hbyp => crWord_writeCr_written hL hk hrdy hbyp, fun hlock hhse => ?_, fun x hx => ?_⟩
    · refine (crWord_writeCr_byp hL).trans ?_
      rw [readReg, crWord_byp hL hc, hlock, hhse]
      rfl
    · refine (crWord_writeCr_rdy hL hx).trans ?_
      have hrdy : (readReg .cr s).getLsbD (s.params.layout.enPos.get x + 1) = s.mem.rdy.get x := crWord_rdy hL hc hx
      rw [hrdy]
  case cfgr =>
    obtain ⟨hp, hm⟩ := hw
    have hL := ((paramsWf_iff _).mp hp).1
    obtain ⟨_, _, hf, _, _⟩ := (Memory.wf_iff _ _).mp hm
    cases h
    refine ⟨fun k hk h0 h1 => cfgrWord_writeCfgr_written hL hk h0 h1, ?_⟩
    have hsws : (readReg .cfgr s).extractLsb' s.params.layout.swsPos 2 = s.mem.sws := cfgrWord_sws hL hf
    rw [hsws]
    exact (cfgrWord_writeCfgr_sws hL).trans (writeCfgr_sws _ _ _)

end Sys2Proof.Machine

/-! Gate operations interrupted after their read (R50, R204). -/

namespace Sys2Proof.Machine

/-- What a gate operation returns of the bit it has read back: ENCLK the bit, DISCLK its inverse (R100, R105). -/
def gateReport (op : Op) (b : Bool) : Word := boolResult (if op = .enclk then b else !b)

section Gates
variable {s : State}

theorem seqStep_gate_readBack (ho : s.seq.op = .enclk ∨ s.seq.op = .disclk) (hu : s.seq.upc = 2) :
    seqStep s = loadU (.enr s.seq.g) s := by
  rcases ho with ho | ho <;> simp only [seqStep, ho, stepEnclk, stepDisclk, hu]

theorem seqStep_gate_return (ho : s.seq.op = .enclk ∨ s.seq.op = .disclk) (hu : s.seq.upc = 3) :
    seqStep s = finish (gateReport s.seq.op (s.seq.u.getLsbD s.seq.p.toNat)) s := by
  rcases ho with ho | ho <;> simp only [seqStep, ho, stepEnclk, stepDisclk, hu] <;> rfl

theorem seqStep_of_nextStore_enr {g : BusGroup} {d : Word} (h : nextStore s = some (.enr g, d)) :
    seqStep s = .next { s with mem := s.mem.writeEnr s.params g d, seq := { s.seq with upc := s.seq.upc + 1 } } :=
  (seqStep_of_nextStore h).trans rfl

/-- One listed turn of SEQ within its run: a primitive that moves `upc`. -/
theorem runSeq_listed {n : Nat} {s' : State} {rest : List Turn} (hb : s.seq.busy = true) (hs : s.sched = .seq :: rest)
    (h : seqStep { s with sched := rest } = .next s') (hu : s'.seq.upc ≠ s.seq.upc) :
    runSeq (n + 1) s = runSeq n s' := by
  have hp : passTurn s = { s with sched := rest } := by rw [passTurn, hs, List.tail_cons]
  exact runSeq_step hb (by rw [seqIsNext, hs]) (hp ▸ h) hu

/-- The last two primitives of a gate operation, its read-back and its return. -/
theorem runSeq_gate_readBack (n : Nat) {rest : List Turn} (ho : s.seq.op = .enclk ∨ s.seq.op = .disclk)
    (hb : s.seq.busy = true) (hu : s.seq.upc = 2) (hs : s.sched = .seq :: .seq :: rest) :
    ∃ q, runSeq (n + 2) s = .next { s with seq := q, sched := rest } ∧
      Returned (gateReport s.seq.op ((readReg (.enr s.seq.g) s).getLsbD s.seq.p.toNat)) q := by
  have hread := runSeq_listed (n := n + 1) hb hs (seqStep_gate_readBack ho hu) (by simp)
  have hreturn := runSeq_listed (n := n)
    (s := { s with sched := .seq :: rest, seq := { s.seq with u := readReg (.enr s.seq.g) s, upc := s.seq.upc + 1 } })
    hb rfl (seqStep_gate_return ho (by simp [hu])) (by simp)
  exact ⟨_, hread.trans (hreturn.trans (runSeq_idle n rfl)), rfl, rfl, rfl, rfl⟩

/-- A gate operation whose next primitive stores `d`, with the next three turns its own: it stores the implemented bits
of `d` over whatever the register holds, and reports the bit of them that it reads back. -/
theorem step_gate_store {rest : List Turn} {d : Word} (ho : s.seq.op = .enclk ∨ s.seq.op = .disclk)
    (hd : nextStore s = some (.enr s.seq.g, d)) (hb : s.seq.busy = true) (hu : s.seq.upc = 1)
    (hs : s.sched = .seq :: .seq :: .seq :: rest) :
    ∃ q, step s = .next { s with
        mem := { s.mem with enr := s.mem.enr.set s.seq.g (d &&& s.params.enrImpl.get s.seq.g) }, seq := q, sched := rest } ∧
      Returned (gateReport s.seq.op ((d &&& s.params.enrImpl.get s.seq.g).getLsbD s.seq.p.toNat)) q := by
  have hstore := runSeq_listed (n := 6) hb hs
    (seqStep_of_nextStore_enr (s := { s with sched := .seq :: .seq :: rest }) hd) (by simp)
  obtain ⟨q, hrun, hq⟩ := runSeq_gate_readBack 4 (rest := rest)
    (s := { s with
      mem := s.mem.writeEnr s.params s.seq.g d
      seq := { s.seq with upc := s.seq.upc + 1 }
      sched := .seq :: .seq :: rest })
    ho hb (by simp [hu]) rfl
  rw [readReg_enr, writeEnr_get_same, BitVec.and_assoc, BitVec.and_self] at hq
  exact ⟨q, (step_of_seq hs).trans ((seqTurn_of_busy hb).trans (hstore.trans hrun)), hq⟩

end Gates

theorem nextStore_of_enclk {s : State} (ho : s.seq.op = .enclk) (hu : s.seq.upc = 1) :
    nextStore s = some (.enr s.seq.g, s.seq.t ||| ((1 : Word) <<< s.seq.p.toNat)) := by
  simp only [nextStore, ho, hu]

theorem nextStore_of_disclk {s : State} (ho : s.seq.op = .disclk) (hu : s.seq.upc = 1) :
    nextStore s = some (.enr s.seq.g, s.seq.t &&& ~~~((1 : Word) <<< s.seq.p.toNat)) := by
  simp only [nextStore, ho, hu]

/-- Settles O20: the store is the word `nextStore` names, made of the stale latch, and its bit p is the one reported. -/
theorem interruptedGateOperationLosesTheUpdate : Obligations.InterruptedGateOperationLosesTheUpdate := by
  intro s rest hb hu hs
  have hp : s.seq.p.toNat < 32 := s.seq.p.isLt
  have hset : (s.seq.t ||| ((1 : Word) <<< s.seq.p.toNat)).getLsbD s.seq.p.toNat = true :=
    (getLsbD_setBit _ _ _).trans (by simp [hp])
  have hclear : (s.seq.t &&& ~~~((1 : Word) <<< s.seq.p.toNat)).getLsbD s.seq.p.toNat = false :=
    (getLsbD_clearBit _ _ _).trans (by simp)
  refine ⟨fun ho himpl => ?enclk, fun ho => ?disclk⟩
  case enclk =>
    obtain ⟨q, hstep, hq⟩ := step_gate_store (.inl ho) (nextStore_of_enclk ho hu) hb hu hs
    rw [BitVec.getLsbD_and, hset, himpl, ho] at hq
    exact ⟨_, q, hstep, rfl, hq⟩
  case disclk =>
    obtain ⟨q, hstep, hq⟩ := step_gate_store (.inr ho) (nextStore_of_disclk ho hu) hb hu hs
    rw [BitVec.getLsbD_and, hclear, ho] at hq
    exact ⟨_, q, hstep, rfl, hq⟩

end Sys2Proof.Machine

/-! The encoder and the decoder are each other's inverse (R61 to R68). Every instruction is a register's read, a
register's write, or an operation with its operands, and each of the three has one lemma per direction. -/

namespace Sys2Proof

open Machine

/-- The three kinds of form in the table of R68. An operand that an operation does not take is 0. -/
inductive Instr.Form : Instr → Prop
  | read (r : Reg) : Instr.Form (readOf r)
  | write (d : Word) (r : Reg) : Instr.Form (writeOf d r)
  | op (o : Opc) (k a : Int) (hk : o.hasSource = false → k = 0) (ha : o.argBits = 0 → a = 0) :
    Instr.Form (o.instr k a)

theorem Instr.form : ∀ i : Instr, Instr.Form i
  | .rdCr => .read .cr
  | .rdCfgr => .read .cfgr
  | .rdEnrHs1 => .read (.enr .hs1)
  | .rdEnrHs2 => .read (.enr .hs2)
  | .rdEnrHs3 => .read (.enr .hs3)
  | .rdEnrP1 => .read (.enr .p1)
  | .rdEnrP2 => .read (.enr .p2)
  | .wrCr d => .write d .cr
  | .wrCfgr d => .write d .cfgr
  | .wrEnrHs1 d => .write d (.enr .hs1)
  | .wrEnrHs2 d => .write d (.enr .hs2)
  | .wrEnrHs3 d => .write d (.enr .hs3)
  | .wrEnrP1 d => .write d (.enr .p1)
  | .wrEnrP2 d => .write d (.enr .p2)
  | .enclkHs1 p => .op (.enclk .hs1) 0 p (fun _ => rfl) nofun
  | .enclkHs2 p => .op (.enclk .hs2) 0 p (fun _ => rfl) nofun
  | .enclkHs3 p => .op (.enclk .hs3) 0 p (fun _ => rfl) nofun
  | .enclkP1 p => .op (.enclk .p1) 0 p (fun _ => rfl) nofun
  | .enclkP2 p => .op (.enclk .p2) 0 p (fun _ => rfl) nofun
  | .disclkHs1 p => .op (.disclk .hs1) 0 p (fun _ => rfl) nofun
  | .disclkHs2 p => .op (.disclk .hs2) 0 p (fun _ => rfl) nofun
  | .disclkHs3 p => .op (.disclk .hs3) 0 p (fun _ => rfl) nofun
  | .disclkP1 p => .op (.disclk .p1) 0 p (fun _ => rfl) nofun
  | .disclkP2 p => .op (.disclk .p2) 0 p (fun _ => rfl) nofun
  | .setbyp e => .op .setbyp 0 e (fun _ => rfl) nofun
  | .setclk k st => .op .setclk k st nofun nofun
  | .getclk k => .op .getclk k 0 nofun (fun _ => rfl)
  | .setsys v => .op .setsys 0 v (fun _ => rfl) nofun
  | .getsys => .op .getsys 0 0 (fun _ => rfl) (fun _ => rfl)

theorem encode_readOf (L : Layout) (r : Reg) : encode L (readOf r) = .bus (descriptor L false r) 0 := by
  rcases r with _ | _ | g
  case enr => cases g <;> rfl
  all_goals rfl

theorem encode_writeOf (L : Layout) (d : Word) (r : Reg) : encode L (writeOf d r) = .bus (descriptor L true r) d := by
  rcases r with _ | _ | g
  case enr => cases g <;> rfl
  all_goals rfl

theorem encode_instr (L : Layout) {o : Opc} {k a : Int} (hk : o.hasSource = false → k = 0)
    (ha : o.argBits = 0 → a = 0) : encode L (o.instr k a) = .cmd (commandWord o k a) := by
  cases o with
  | enclk g | disclk g => rw [hk rfl]; cases g <;> rfl
  | setbyp | setsys => rw [hk rfl]; rfl
  | setclk => rfl
  | getclk => rw [ha rfl]; rfl
  | getsys => rw [hk rfl, ha rfl]; rfl

theorem boolAt_eq_none_iff (b : Int) : boolAt b = none ↔ b ≠ 0 ∧ b ≠ 1 := by
  by_cases h1 : b = 1 <;> by_cases h0 : b = 0 <;> simp [boolAt, h0, h1]

theorem boolAt_isSome_iff (b : Int) : (boolAt b).isSome = true ↔ 0 ≤ b ∧ b < 2 := by
  rw [Option.isSome_iff_ne_none, ne_eq, boolAt_eq_none_iff]
  omega

/-- The source of a well-formed operation is one of the implementation's, and its argument fits the bits that the
operation takes of `arg` (R62 to R66, R72). -/
theorem operands_of_wellFormed {L : Layout} {o : Opc} {k a : Int} (ha : o.argBits = 0 → a = 0)
    (h : Instr.wellFormed L (o.instr k a) = true) :
    (o.hasSource = true → sourceAt L k ≠ none) ∧ 0 ≤ a ∧ a < 2 ^ o.argBits := by
  cases o with
  | enclk g | disclk g =>
    have hp : peripheralOk a = true := by cases g <;> exact h
    obtain ⟨h0, h31⟩ := (peripheralOk_iff a).mp hp
    exact ⟨nofun, h0, Int.lt_add_one_of_le h31⟩
  | setbyp => exact ⟨nofun, (boolAt_isSome_iff a).mp h⟩
  | setclk =>
    obtain ⟨hs, hb⟩ := Bool.and_eq_true_iff.mp h
    exact ⟨fun _ => Option.isSome_iff_ne_none.mp hs, (boolAt_isSome_iff a).mp hb⟩
  | getclk => rw [ha rfl]; exact ⟨fun _ => Option.isSome_iff_ne_none.mp h, by decide⟩
  | setsys =>
    obtain ⟨h0, h3⟩ := (selectorOk_iff a).mp h
    exact ⟨nofun, h0, Int.lt_add_one_of_le h3⟩
  | getsys => rw [ha rfl]; exact ⟨nofun, by decide⟩

theorem Opc.argBits_le (o : Opc) : o.argBits ≤ 5 := by cases o <;> simp [Opc.argBits]

/-- An argument that fits `n` of the five bits is kept by them and has nothing above them. -/
theorem argument_fits {a : Int} {n : Nat} (hn : n ≤ 5) (h0 : 0 ≤ a) (h : a < 2 ^ n) :
    ((BitVec.ofInt 5 a).toNat : Int) = a ∧ BitVec.ofInt 5 a >>> n = 0 := by
  have hpow : (2 : Int) ^ n ≤ 2 ^ 5 := pow_le_pow_right₀ (by decide) hn
  have hval : ((BitVec.ofInt 5 a).toNat : Int) = a := toNat_ofInt5 h0 (by omega)
  refine ⟨hval, BitVec.eq_of_toNat_eq ?_⟩
  rw [BitVec.toNat_ushiftRight, Nat.shiftRight_eq_div_pow]
  exact Nat.div_eq_of_lt (by zify; rw [hval]; exact h)

/-- The source operand is kept by the five bits of `src`: it is an enable position, or 0 where none is taken. -/
theorem source_fits {L : Layout} (hL : L.ok = true) {o : Opc} {k : Int} (hk : o.hasSource = false → k = 0)
    (hs : o.hasSource = true → sourceAt L k ≠ none) : ((BitVec.ofInt 5 k).toNat : Int) = k := by
  cases ho : o.hasSource with
  | false => rw [hk ho]; rfl
  | true =>
    obtain ⟨x, hx⟩ := Option.ne_none_iff_exists'.mp (hs ho)
    obtain ⟨hmem, rfl⟩ := sourceAt_some hx
    have := enPos_lt hL hmem
    exact toNat_ofInt5 (by omega) (by omega)

theorem decodeCmd_commandWord {L : Layout} (hL : L.ok = true) {o : Opc} {k a : Int}
    (hk : o.hasSource = false → k = 0) (hs : o.hasSource = true → sourceAt L k ≠ none)
    (h0 : 0 ≤ a) (h : a < 2 ^ o.argBits) : decodeCmd L (commandWord o k a) = .ok (o.instr k a) := by
  obtain ⟨harg, hzero⟩ := argument_fits o.argBits_le h0 h
  have hsrc := source_fits hL hk hs
  have hd := decodeCmd_command (L := L) o (BitVec.ofInt 5 k) (BitVec.ofInt 5 a) hzero
    (fun ho => by rw [hk ho]; rfl) (by rwa [hsrc])
  rwa [hsrc, harg] at hd

/-- Settles O1: the three kinds of form, each decoded from the word its encoding names. -/
theorem decodeOfEncodeIsTheInstruction : Obligations.DecodeOfEncodeIsTheInstruction := by
  intro L i hL hw
  cases Instr.form i with
  | read r => rw [encode_readOf]; exact decodeBus_descriptor hL false r 0
  | write d r => rw [encode_writeOf]; exact decodeBus_descriptor hL true r d
  | op o k a hk ha =>
    obtain ⟨hs, h0, h⟩ := operands_of_wellFormed ha hw
    rw [encode_instr L hk ha]
    exact decodeCmd_commandWord hL hk hs h0 h

/-- An operation that takes no argument has 0 in the field of one. -/
theorem argument_zero {o : Opc} {b : BitVec 5} (h : b >>> o.argBits = 0) (ho : o.argBits = 0) : (b.toNat : Int) = 0 := by
  rw [ho, BitVec.ushiftRight_zero] at h
  rw [h]
  rfl

/-- Settles O2: an accepted word has the fields of the operation it decodes to, an accepted descriptor the offset and
the direction of its transaction. -/
theorem encodeOfDecodeIsTheWord : Obligations.EncodeOfDecodeIsTheWord := by
  refine fun L => ⟨fun w i h => ?cmd, fun desc d i h => ?bus⟩
  case cmd =>
    obtain ⟨o, hw, harg, hsrc, _, rfl⟩ := decodeCmd_ok h
    rw [encode_instr L (fun ho => by rw [hsrc ho]; rfl) (argument_zero harg)]
    unfold commandWord
    rw [ofInt5_toNat, ofInt5_toNat, ← hw]
  case bus =>
    obtain ⟨b, r, rfl, rfl⟩ := decodeBus_ok h
    obtain ⟨_, _, hb⟩ := descriptor_fields L b r
    rw [hb]
    cases b with
    | false => exact encode_readOf L r
    | true => exact encode_writeOf L d r

end Sys2Proof

/-! The table of R68: its rows, the words and descriptors they match, and that the decoder accepts no others (R69). -/

namespace Sys2Proof

open Machine

theorem mem_allOpcs (o : Opc) : o ∈ allOpcs := by
  cases o with
  | enclk g | disclk g => cases g <;> decide
  | _ => decide

/-- The row of the table of R68 for an operation, from its code and the bits its operands take. -/
def Opc.row (o : Opc) : Row where
  mnemonic := (o.instr 0 0).mnemonic
  mtch := commandWord o 0 0
  mask := (0xFF : BitVec 8) ++ (0x7FF : BitVec 11) ++ (if o.hasSource then 0 else 0x1F : BitVec 5) ++ (7 : BitVec 3) ++
    ((0x1F : BitVec 5) <<< o.argBits)

theorem cmdRows_eq : cmdRows = allOpcs.map Opc.row := by decide

/-- Two words with the same five fields are the same (R62). -/
theorem word_eq_iff_fields (v w : Word) : v = w ↔ v.extractLsb' 24 8 = w.extractLsb' 24 8 ∧
    v.extractLsb' 13 11 = w.extractLsb' 13 11 ∧ v.extractLsb' 8 5 = w.extractLsb' 8 5 ∧
    v.extractLsb' 5 3 = w.extractLsb' 5 3 ∧ v.extractLsb' 0 5 = w.extractLsb' 0 5 := by
  constructor
  · rintro rfl; exact ⟨rfl, rfl, rfl, rfl, rfl⟩
  · rintro ⟨h1, h2, h3, h4, h5⟩
    rw [word_of_fields v, word_of_fields w, h1, h2, h3, h4, h5]

theorem row_fields : ∀ o ∈ allOpcs,
    (o.row.mtch.extractLsb' 24 8 = o.code ∧ o.row.mtch.extractLsb' 13 11 = 0 ∧ o.row.mtch.extractLsb' 8 5 = 0 ∧
      o.row.mtch.extractLsb' 5 3 = 0 ∧ o.row.mtch.extractLsb' 0 5 = 0) ∧
    (o.row.mask.extractLsb' 24 8 = BitVec.allOnes 8 ∧ o.row.mask.extractLsb' 13 11 = BitVec.allOnes 11 ∧
      o.row.mask.extractLsb' 8 5 = (if o.hasSource then 0 else BitVec.allOnes 5) ∧
      o.row.mask.extractLsb' 5 3 = BitVec.allOnes 3 ∧ o.row.mask.extractLsb' 0 5 = BitVec.allOnes 5 <<< o.argBits) := by
  decide

theorem and_high_bits_eq_zero_iff : ∀ n ≤ 5, ∀ a : BitVec 5, a &&& BitVec.allOnes 5 <<< n = 0 ↔ a >>> n = 0 := by
  decide

/-- A row matches exactly the words with its operation's code and every bit 0 that the operation does not take. -/
theorem row_matches_iff (o : Opc) (w : Word) : w &&& o.row.mask = o.row.mtch ↔
    w.extractLsb' 24 8 = o.code ∧ w.extractLsb' 13 11 = 0 ∧ (o.hasSource = false → w.extractLsb' 8 5 = 0) ∧
      w.extractLsb' 5 3 = 0 ∧ w.extractLsb' 0 5 >>> o.argBits = 0 := by
  obtain ⟨⟨v1, v2, v3, v4, v5⟩, m1, m2, m3, m4, m5⟩ := row_fields o (mem_allOpcs o)
  rw [word_eq_iff_fields]
  simp only [BitVec.extractLsb'_and, v1, v2, v3, v4, v5, m1, m2, m3, m4, m5, BitVec.and_allOnes,
    and_high_bits_eq_zero_iff o.argBits o.argBits_le]
  cases o.hasSource with
  | false => simp only [Bool.false_eq_true, if_false, BitVec.and_allOnes, true_implies]
  | true => simp

/-- No two rows match the same word: they have different codes. -/
theorem row_matches_unique {o o' : Opc} {w : Word} (h : w &&& o.row.mask = o.row.mtch)
    (h' : w &&& o'.row.mask = o'.row.mtch) : o' = o := by
  have hcode : o'.code = o.code := ((row_matches_iff o' w).mp h').1.symm.trans ((row_matches_iff o w).mp h).1
  exact Option.some.inj ((opcAt_code o').symm.trans (hcode ▸ opcAt_code o))

theorem cmdRowOf_eq_some_iff (w : Word) (r : Row) :
    cmdRowOf w = some r ↔ ∃ o : Opc, w &&& o.row.mask = o.row.mtch ∧ r = o.row := by
  rw [cmdRowOf, cmdRows_eq, List.find?_map, Option.map_eq_some_iff]
  constructor
  · rintro ⟨o, ho, rfl⟩
    exact ⟨o, by simpa using List.find?_some ho, rfl⟩
  · rintro ⟨o, ho, rfl⟩
    cases hf : allOpcs.find? ((fun r : Row => w &&& r.mask == r.mtch) ∘ Opc.row) with
    | none => exact absurd (beq_iff_eq.mpr ho) (List.find?_eq_none.mp hf o (mem_allOpcs o))
    | some o' =>
      have ho' : w &&& o'.row.mask = o'.row.mtch := by simpa using List.find?_some hf
      exact ⟨o', rfl, congrArg Opc.row (row_matches_unique ho ho')⟩

/-- The decoder accepts the words of the table's rows, less those whose `src` names no source (R64, R69). -/
theorem decodeCmd_ok_iff (L : Layout) (w : Word) (i : Instr) : decodeCmd L w = .ok i ↔
    ∃ o : Opc, w &&& o.row.mask = o.row.mtch ∧
      (o.hasSource = true → sourceAt L (w.extractLsb' 8 5).toNat ≠ none) ∧
      i = o.instr (w.extractLsb' 8 5).toNat (w.extractLsb' 0 5).toNat := by
  constructor
  · intro h
    obtain ⟨o, hw, harg, hsrc, hs, hi⟩ := decodeCmd_ok h
    obtain ⟨h1, h2, _, h4, _⟩ := command_fields _ _ _ w hw
    exact ⟨o, (row_matches_iff o w).mpr ⟨h1, h2, hsrc, h4, harg⟩, hs, hi⟩
  · rintro ⟨o, ho, hs, rfl⟩
    obtain ⟨h1, h2, hsrc, h4, harg⟩ := (row_matches_iff o w).mp ho
    have hw := word_of_fields w
    rw [h1, h2, h4] at hw
    have hd := decodeCmd_command o (w.extractLsb' 8 5) (w.extractLsb' 0 5) harg hsrc hs
    rwa [← hw] at hd

theorem row_takes_source_iff : ∀ o ∈ allOpcs,
    (o.row.mnemonic = "SETCLK" ∨ o.row.mnemonic = "GETCLK" ↔ o.hasSource = true) := by decide

theorem mnemonic_instr (o : Opc) (k a : Int) : (o.instr k a).mnemonic = o.row.mnemonic := by
  cases o with
  | enclk g | disclk g => cases g <;> rfl
  | _ => rfl

theorem sourceAt_natCast_ne_none_iff (L : Layout) (k : Nat) :
    sourceAt L k ≠ none ↔ ∃ x ∈ L.sources, k = L.enPos.get x := by
  rw [ne_eq, sourceAt_eq_none]
  simp [eq_comm]

/-- The BUS rows are the descriptors of every register's read and write (R61, R68). -/
theorem mem_busRowsOf_iff (L : Layout) (d : Word) (m : String) (desc : BitVec 16) : (m, desc) ∈ busRowsOf L ↔
    ∃ b r, desc = descriptor L b r ∧ m = (if b then writeOf d r else readOf r).mnemonic := by
  have hrows : busRowsOf L = allRegs.flatMap fun r =>
      [((readOf r).mnemonic, descriptor L false r), ((writeOf d r).mnemonic, descriptor L true r)] := by
    simp only [Laws.OpcodeRow.descriptor_eq]
    rfl
  rw [hrows]
  simp [mem_allRegs, and_comm, exists_or]

theorem decodeBus_descriptor_accepts (L : Layout) (b : Bool) (r : Reg) (d : Word) :
    ∃ i, decodeBus L (descriptor L b r) d = .ok i := by
  obtain ⟨h1, h2, _⟩ := descriptor_fields L b r
  cases hr : regAt L (L.offset r) with
  | none => exact absurd (beq_self_eq_true _) (List.find?_eq_none.mp hr r (mem_allRegs r))
  | some r' =>
    simp only [decodeBus, h1, h2, hr]
    exact ⟨_, rfl⟩

theorem decodeBus_ok_row {L : Layout} {desc : BitVec 16} {d : Word} {i : Instr} (h : decodeBus L desc d = .ok i) :
    (i.mnemonic, desc) ∈ busRowsOf L := by
  obtain ⟨b, r, hdesc, hi⟩ := decodeBus_ok h
  exact (mem_busRowsOf_iff L d _ _).mpr ⟨b, r, hdesc, congrArg Instr.mnemonic hi⟩

theorem default_enPos_iff (k : Nat) :
    (∃ x ∈ Config.layout.sources, k = Config.layout.enPos.get x) ↔ k = 0 ∨ k = 16 ∨ k = 24 := by
  have hs : Config.layout.sources = [.hsi, .hse, .pll] := rfl
  rw [hs]
  simp [Config.layout, PerSource.get]

theorem present_of_decode_error {pk : Packet} {e : Reserved} {s : State} (h : decode s.params.layout pk = .error e) :
    present pk s = .refused (.reservedEncoding e) := by
  unfold present
  rw [h]

/-- Settles O3: a command word by the row of its code, a descriptor by the register at its offset. -/
theorem reservedExactlyOutsideTheTable : Obligations.ReservedExactlyOutsideTheTable := by
  refine ⟨fun L w => ?cmd, fun L w i h => ?cmdRow,
    fun L desc d => ⟨fun ⟨_, h⟩ => ⟨_, decodeBus_ok_row h⟩, ?bus⟩, fun _ _ _ _ h => decodeBus_ok_row h, by decide, default_enPos_iff, fun _ _ _ h => present_of_decode_error h⟩
  case cmd =>
    simp only [decodeCmd_ok_iff, cmdRowOf_eq_some_iff, ← sourceAt_natCast_ne_none_iff]
    constructor
    · rintro ⟨_, o, ho, hs, _⟩
      exact ⟨_, ⟨o, ho, rfl⟩, fun hm => hs ((row_takes_source_iff o (mem_allOpcs o)).mp hm)⟩
    · rintro ⟨_, ⟨o, ho, rfl⟩, hs⟩
      exact ⟨_, o, ho, fun h => hs ((row_takes_source_iff o (mem_allOpcs o)).mpr h), rfl⟩
  case cmdRow =>
    obtain ⟨o, ho, _, rfl⟩ := (decodeCmd_ok_iff L w i).mp h
    exact ⟨o.row, (cmdRowOf_eq_some_iff w _).mpr ⟨o, ho, rfl⟩, (mnemonic_instr o _ _).symm⟩
  case bus =>
    rintro ⟨m, hm⟩
    obtain ⟨b, r, rfl, _⟩ := (mem_busRowsOf_iff L d m desc).mp hm
    exact decodeBus_descriptor_accepts L b r d

/-- Settles O4: each printed line and each printed word, read by the model's own reader and decoder. -/
theorem workedEncodings : Obligations.WorkedEncodings := by
  unfold Obligations.WorkedEncodings
  decide

end Sys2Proof

/-! Textual operands outside the encodable range (R72). -/

namespace Sys2Proof.Machine

theorem exec_enclk (g : BusGroup) (k p : Int) (s : State) :
    exec ((Opc.enclk g).instr k p) s = gateOperation .enclk g p s := by cases g <;> rfl

theorem exec_disclk (g : BusGroup) (k p : Int) (s : State) :
    exec ((Opc.disclk g).instr k p) s = gateOperation .disclk g p s := by cases g <;> rfl

theorem gateOperation_out_of_range (op : Op) (g : BusGroup) {p : Int} (s : State) (h : p < 0 ∨ 31 < p) :
    gateOperation op g p s = .refused .peripheralOutOfRange :=
  if_neg fun hok => by have := (peripheralOk_iff p).mp hok; omega

theorem execSetclk_unknown {k : Int} (b : Int) {s : State} (h : sourceAt s.params.layout k = none) :
    execSetclk k b s = .refused .unknownSource := by
  unfold execSetclk
  rw [h]

theorem execGetclk_unknown {k : Int} {s : State} (h : sourceAt s.params.layout k = none) :
    execGetclk k s = .refused .unknownSource := by
  unfold execGetclk
  rw [h]

theorem execSetclk_badBoolean {k b : Int} {s : State} (hk : sourceAt s.params.layout k ≠ none) (hb : boolAt b = none) :
    execSetclk k b s = .refused .badBoolean := by
  obtain ⟨x, hx⟩ := Option.ne_none_iff_exists'.mp hk
  unfold execSetclk
  rw [hx, hb]

theorem execSetbyp_badBoolean {b : Int} (s : State) (h : boolAt b = none) :
    execSetbyp b s = .refused .badBoolean := by
  unfold execSetbyp
  rw [h]

theorem execSetsys_out_of_range {v : Int} {s : State} (h : v < 0 ∨ 3 < v) (hb : s.seq.busy = false) :
    execSetsys v s = finish refusedSelection s :=
  (whenIdle_idle hb).trans (if_neg fun hok => by have := (selectorOk_iff v).mp hok; omega)

/-- Settles O5: each operand check of R72 fails before SEQ has taken a primitive. -/
theorem textualOperandsOutOfRange : Obligations.TextualOperandsOutOfRange := by
  refine ⟨fun g p s hp => ⟨?enclk, ?disclk⟩, fun k b s hk => ?source, fun b s h0 h1 => ?boolean, fun v s hv hb => ?target⟩
  case enclk => rw [exec_enclk, gateOperation_out_of_range _ _ s hp]
  case disclk => rw [exec_disclk, gateOperation_out_of_range _ _ s hp]
  case source =>
    have hs : sourceAt s.params.layout k = none := sourceAt_eq_none.mpr fun x hx => (hk x hx).symm
    exact ⟨execSetclk_unknown b hs, execGetclk_unknown hs⟩
  case boolean =>
    have hb : boolAt b = none := (boolAt_eq_none_iff b).mpr ⟨h0, h1⟩
    refine ⟨execSetbyp_badBoolean s hb, fun x hx => execSetclk_badBoolean ?_ hb⟩
    exact (sourceAt_natCast_ne_none_iff _ _).mpr ⟨x, hx, rfl⟩
  case target => exact ⟨_, execSetsys_out_of_range hv hb, rfl, rfl, rfl, rfl⟩

end Sys2Proof.Machine

/-! The raw transactions (R80 to R93): what each read yields, and what each write leaves. -/

namespace Sys2Proof.Machine

/-! Reads. -/

/-- Settles O6: the word latched is `crWord`, read at each position of CR. -/
theorem readOfControlRegister : Obligations.ReadOfControlRegister := by
  refine ⟨by decide, by decide, fun s hw => ?_⟩
  have hL := ((paramsWf_iff _).mp hw.1).1
  obtain ⟨_, hc, _, _, _⟩ := (Memory.wf_iff _ _).mp hw.2
  exact ⟨crWord s.params.layout s.mem, exec_readOf .cr s, fun x hx => ⟨crWord_en hL hc hx, crWord_rdy hL hc hx⟩,
    crWord_byp hL hc, crWord_other hc⟩

/-- Settles O7: the word latched is `cfgrWord`, read at each field of CFGR. -/
theorem readOfConfigurationRegister : Obligations.ReadOfConfigurationRegister := by
  refine ⟨by decide, by decide, fun s hw => ?_⟩
  have hL := ((paramsWf_iff _).mp hw.1).1
  obtain ⟨_, _, hf, _, _⟩ := (Memory.wf_iff _ _).mp hw.2
  exact ⟨cfgrWord s.params.layout s.mem, exec_readOf .cfgr s, cfgrWord_sw hL hf, cfgrWord_sws hL hf, cfgrWord_other hf⟩

/-- Settles O8: a raw read latches the masked register. -/
theorem readOfEnableRegister : Obligations.ReadOfEnableRegister :=
  ⟨by decide, fun g s => exec_readOf (.enr g) s⟩

/-! Writes. -/

/-- A write changes no byte outside its register (R43, R47). -/
theorem Wrote.byteAt_other {s : State} {r : Reg} {n : Memory} (h : Wrote s.params s.mem r n)
    (hL : s.params.layout.ok = true) {a : Word} (ha : ¬ InReg s.params.layout r a) :
    byteAt a { s with mem := n } = byteAt a s :=
  byteAt_congr (t := { s with mem := n }) hL rfl (fun _ hne => h.readReg_other hne) ha

/-- Settles O9: the new enable registers are those of `writeEnr`. -/
theorem enableRegisterWrite : Obligations.EnableRegisterWrite := by
  refine ⟨fun d => ⟨rfl, rfl, rfl, rfl, rfl⟩, fun g d s hL => ?_⟩
  have hsame := writeEnr_get_same s.params g d s.mem
  refine ⟨(s.mem.writeEnr s.params g d).enr, exec_writeOf d (.enr g) s, hsame,
    fun h hne => writeEnr_get_other _ _ _ hne, fun p => ?gates, fun a ha => (Wrote.enr g d).byteAt_other hL ha⟩
  case gates => rw [gate, hsame, BitVec.getLsbD_and]

/-! WR.CR (R91, R210). -/

theorem disablesSelected_iff {P : Params} {d : Word} {m : Memory} : disablesSelected P d m = true ↔
    ∃ x ∈ P.layout.sources, m.en.get x = true ∧ d.getLsbD (P.layout.enPos.get x) = false ∧
      (P.selDep.get m.sw = x ∨ P.selDep.get m.sws = x) := by
  simp only [disablesSelected, selDep, List.any_eq_true, Bool.and_eq_true, Bool.or_eq_true, Bool.not_eq_true',
    beq_iff_eq, and_assoc]

theorem writeReg_cr_refused {d : Word} {s : State} (hp : s.params.disableSelected = .refuse)
    (hd : disablesSelected s.params d s.mem = true) : writeReg .cr d s = .refused .disableOfSelectedSource := by
  simp only [writeReg, hp, hd, if_true]

theorem writeReg_cr_answered {d : Word} {s : State}
    (h : ¬ (s.params.disableSelected = .refuse ∧ disablesSelected s.params d s.mem = true)) :
    writeReg .cr d s = .next { s with mem := s.mem.writeCr s.params d } := by
  cases hp : s.params.disableSelected with
  | allow => simp only [writeReg, hp]
  | refuse => simp only [writeReg, hp, if_neg fun hd => h ⟨hp, hd⟩]

/-- Settles O10: refused exactly as `disablesSelected` says, and otherwise the fields of `writeCr`. -/
theorem controlRegisterWrite : Obligations.ControlRegisterWrite := by
  refine ⟨fun _ => rfl, fun d s hL => ?_⟩
  rw [← disablesSelected_iff]
  refine ⟨fun ⟨hp, hd⟩ => writeReg_cr_refused hp hd, fun h => ?answered⟩
  case answered =>
    let n := s.mem.writeCr s.params d
    refine ⟨n.en, n.rdy, n.byp, n.crOther, writeReg_cr_answered h, fun x hx => writeCr_en _ _ _ hx, fun x hx => ?ready,
      writeCr_en_length _ _ _, writeCr_rdy_length _ _ _, ?bypass, rfl, fun a ha => (Wrote.cr d).byteAt_other hL ha⟩
    case ready => exact (crWord_rdy hL (masked_crAssigned d) hx).symm.trans (crWord_writeCr_rdy hL hx)
    case bypass => simp only [n, Memory.writeCr, Bool.and_eq_true]

/-! WR.CFGR (R93). -/

/-- A write of CFGR replaces its own three fields alone. -/
theorem writeCfgr_frame (P : Params) (d : Word) (m : Memory) : m.writeCfgr P d =
    { m with sw := (m.writeCfgr P d).sw, sws := (m.writeCfgr P d).sws, cfgrOther := (m.writeCfgr P d).cfgrOther } := by
  unfold Memory.writeCfgr
  rcases followNow_cases P { m with sw := field2 d P.layout.swPos, cfgrOther := d &&& P.layout.cfgrOtherMask } with
    h | ⟨_, _, h⟩ <;> rw [h]

/-- Settles O11: the three fields are those of `writeCfgr`, which changes no other. -/
theorem configurationRegisterWrite : Obligations.ConfigurationRegisterWrite := by
  refine ⟨fun _ => rfl, fun d s hL => ?_⟩
  let n := s.mem.writeCfgr s.params d
  have hn : n = { s.mem with sw := n.sw, sws := n.sws, cfgrOther := n.cfgrOther } := writeCfgr_frame _ _ _
  refine ⟨n.sw, n.sws, n.cfgrOther, ?next, writeCfgr_sw _ _ _, writeCfgr_cfgrOther _ _ _, ?status, fun a ha => ?bytes⟩
  case next => rw [← hn]; exact exec_writeOf d .cfgr s
  case status =>
    have hsw : n.sw = field2 d s.params.layout.swPos := writeCfgr_sw _ _ _
    rw [hsw]
    exact writeCfgr_sws _ _ _
  case bytes => rw [← hn]; exact (Wrote.cfgr d).byteAt_other hL ha

/-! SETCLK OFF of a source in use (R91, R121, R210). -/

theorem store_refused {r : Reg} {d : Word} {s : State} {e : Refusal} (h : writeReg r d s = .refused e) :
    store r d s = .refused e := by
  rw [store, h, andThen_refused]

theorem execSetclk_accepts {k b : Int} {x : Source} {f : Bool} {s : State} (hk : sourceAt s.params.layout k = some x)
    (hb : boolAt b = some f) (hidle : s.seq.busy = false) :
    execSetclk k b s = accept .setclk { s with seq := { s.seq with src := x, flag := f } } := by
  simp only [execSetclk, hk, hb, whenIdle_idle hidle]

/-- CR written back with the enable bit of a source in use cleared is refused under the policy `refuse`. -/
theorem writeReg_cr_clearEn_refused {s : State} {x : Source} (t : Word) (hx : x ∈ s.params.layout.sources)
    (hp : s.params.disableSelected = .refuse) (he : s.mem.en.get x = true)
    (hsel : s.params.selDep.get s.mem.sw = x ∨ s.params.selDep.get s.mem.sws = x) :
    writeReg .cr (clearBit t (s.params.layout.enPos.get x)) s = .refused .disableOfSelectedSource :=
  writeReg_cr_refused hp (disablesSelected_iff.mpr ⟨x, hx, he, by rw [getLsbD_clearBit]; simp, hsel⟩)

/-- Settles O25: after the read of CR the write, which clears the enable bit, is refused. -/
theorem setClockOffOfSelectedSourceRefused : Obligations.SetClockOffOfSelectedSourceRefused := by
  intro x s hi hx hidle hu hp he hsel
  have hsource := sourceAt_enPos ((paramsWf_iff _).mp hi.params).1 hx
  refine (execSetclk_accepts hsource (show boolAt 0 = some false from rfl) hidle).trans ?_
  refine runSeq_undisturbed (m := 1) rfl (hu.congr rfl) (show seqStep _ = loadT .cr _ from rfl) (by simp) rfl fun hu1 => ?_
  exact runSeq_stop rfl hu1.next (store_refused (writeReg_cr_clearEn_refused _ hx hp he hsel))

end Sys2Proof.Machine

/-! The ten gate operations (R100 to R112): their encoding, their primitives one by one, and their runs. -/

namespace Sys2Proof

/-- The command word of an operation with no source is its code in bits 31:24 plus its argument (R62). -/
theorem commandWord_eq_add {o : Opc} {p : Int} {w : Word} (hw : o.code ++ (0 : BitVec 24) = w) (h0 : 0 ≤ p)
    (h1 : p ≤ 31) : commandWord o 0 p = w + BitVec.ofInt 32 p := by
  have hp : BitVec.ofInt 32 p = (BitVec.ofInt 5 p).setWidth 32 := by
    apply BitVec.eq_of_toInt_eq
    rw [BitVec.toInt_ofInt, BitVec.toInt_setWidth, BitVec.toNat_ofInt]
    congr 1
    omega
  rw [← hw, hp, commandWord, show BitVec.ofInt 5 0 = 0 from rfl]
  generalize BitVec.ofInt 5 p = a
  rw [BitVec.add_eq_or_of_and_eq_zero]
  all_goals
    apply BitVec.eq_of_getLsbD_eq
    intro i hi
    simp only [BitVec.getLsbD_or, BitVec.getLsbD_and, BitVec.getLsbD_append, BitVec.getLsbD_setWidth]
    interval_cases i <;> simp

end Sys2Proof

namespace Sys2Proof.Machine

/-! The word a gate operation stores. -/

/-- The word a gate operation stores, from the word it has read: ENCLK sets bit `k`, DISCLK clears it (R63). -/
def gateWord (op : Op) (t : Word) (k : Nat) : Word := if op = .enclk then setBit t k else clearBit t k

theorem gateWord_bit (op : Op) (t : Word) {k : Nat} (hk : k < 32) :
    (gateWord op t k).getLsbD k = decide (op = .enclk) := by
  unfold gateWord
  split <;> simp [*, -BitVec.getLsbD_eq_getElem]

theorem gateWord_other_bit (op : Op) (t : Word) {k i : Nat} (hne : i ≠ k) :
    (gateWord op t k).getLsbD i = t.getLsbD i := by
  unfold gateWord
  split <;> simp [hne]

/-- Where its bit is implemented, a gate operation that reads back what it has stored reports true (R110). -/
theorem gateReport_of_implemented {op : Op} (t : Word) {i : Word} {k : Nat} (hi : i.getLsbD k = true) :
    gateReport op ((gateWord op t k &&& i).getLsbD k) = 1 := by
  have hk : k < 32 := BitVec.lt_of_getLsbD hi
  rw [BitVec.getLsbD_and, gateWord_bit op t hk, hi]
  by_cases h : op = .enclk <;> simp [gateReport, boolResult, h]

/-- Stored and read back, the word is stored the same again (R110). -/
theorem gateWord_again (op : Op) (t i : Word) (k : Nat) :
    gateWord op (gateWord op t k &&& i) k &&& i = gateWord op t k &&& i := by
  apply word_ext
  intro j hj
  by_cases h : j = k
  · subst h
    rw [BitVec.getLsbD_and, BitVec.getLsbD_and, gateWord_bit _ _ hj, gateWord_bit _ _ hj]
  · rw [BitVec.getLsbD_and, gateWord_other_bit _ _ h, BitVec.getLsbD_and, Bool.and_assoc, Bool.and_self]

theorem clearBit_masked (w i : Word) (k : Nat) : clearBit (w &&& i) k &&& i = clearBit (w &&& i) k := by
  rw [clearBit, BitVec.and_assoc, BitVec.and_comm (~~~_) i, ← BitVec.and_assoc, BitVec.and_assoc w, BitVec.and_self]

/-! The primitives. -/

section Primitives
variable {s t : State}

theorem seqStep_gate_read (ho : s.seq.op = .enclk ∨ s.seq.op = .disclk) (hu : s.seq.upc = 0) :
    seqStep s = loadT (.enr s.seq.g) s := by
  rcases ho with ho | ho <;> simp only [seqStep, ho, stepEnclk, stepDisclk, hu]

theorem seqStep_gate_store (ho : s.seq.op = .enclk ∨ s.seq.op = .disclk) (hu : s.seq.upc = 1) :
    seqStep s = .next { s with
      mem := s.mem.writeEnr s.params s.seq.g (gateWord s.seq.op s.seq.t s.seq.p.toNat)
      seq := { s.seq with upc := s.seq.upc + 1 } } := by
  rcases ho with ho | ho <;> rw [ho]
  · exact seqStep_of_nextStore_enr (nextStore_of_enclk ho hu)
  · exact seqStep_of_nextStore_enr (nextStore_of_disclk ho hu)

/-- Every primitive of a gate operation but its store leaves the register memory as it is. -/
theorem seqStep_gate_mem (ho : s.seq.op = .enclk ∨ s.seq.op = .disclk) (hu : s.seq.upc ≠ 1) (h : seqStep s = .next t) :
    t.mem = s.mem := by
  rcases seqStep_mem_cases h with hm | ⟨r, d, hn, _⟩
  · exact hm
  · exact absurd (nextStore_upc hn fun e => by simp [e] at ho) hu

/-- A primitive changes the register memory and the sequencer alone, and keeps what it is an operation on. -/
theorem seqStep_frame (h : seqStep s = .next t) :
    t = { s with mem := t.mem, seq := t.seq } ∧ t.seq.g = s.seq.g ∧ t.seq.p = s.seq.p := by
  rcases seqStep_cases h with ⟨_, _, _, _, _, _, rfl⟩ | ⟨_, _, _, _, _, rfl⟩ | ⟨_, _, rfl⟩ <;> exact ⟨rfl, rfl, rfl⟩

end Primitives

/-! Acceptance, and one primitive between two turns of other agents. -/

theorem seqIsNext_of_other {s : State} {x : Turn} {rest : List Turn} (hs : s.sched = x :: rest) (hx : x ≠ .seq) :
    seqIsNext s = false := by
  unfold seqIsNext
  rw [hs]
  cases x with
  | seq => exact absurd rfl hx
  | _ => rfl

/-- A primitive with another agent's turn after it is a step of its own (R48, R50). -/
theorem step_atPrimitive {o : Op} {k : Nat} {x : Turn} {rest : List Turn} {s t : State}
    (ha : AtPrimitive o k x rest s) (h : seqStep { s with sched := x :: rest } = .next t) (ht : t.sched = x :: rest) :
    step s = .next t := by
  obtain ⟨hb, _, _, hs, hx⟩ := ha
  have hp : seqStep (passTurn s) = .next t := by rw [← h, passTurn, hs, List.tail_cons]
  have hn : seqIsNext s = true := by rw [seqIsNext, hs]
  rw [step_of_seq hs, seqTurn_of_busy hb]
  by_cases hu : t.seq.upc = s.seq.upc
  · exact runSeq_wait hb hn hp hu
  · exact (runSeq_step hb hn hp hu).trans (runSeq_other _ (seqIsNext_of_other ht hx))

theorem accept_other {op : Op} {s : State} {x : Turn} {rest : List Turn} (hs : s.sched = x :: rest) (hx : x ≠ .seq) :
    accept op s = .next { s with seq := { s.seq with busy := true, op := op, upc := 0 } } :=
  runSeq_other _ (seqIsNext_of_other hs hx)

theorem peripheralBits_toNat {p : Int} (h0 : 0 ≤ p) (h1 : p ≤ 31) : (peripheralBits p).toNat = p.toNat := by
  have hp : ((peripheralBits p).toNat : Int) = p := toNat_ofInt5 h0 h1
  omega

theorem gateOperation_accepts {op : Op} {g : BusGroup} {p : Int} {s : State} (h0 : 0 ≤ p) (h1 : p ≤ 31)
    (hidle : s.seq.busy = false) :
    gateOperation op g p s = accept op { s with seq := { s.seq with g := g, p := peripheralBits p } } :=
  (if_pos ((peripheralOk_iff p).mpr ⟨h0, h1⟩)).trans (whenIdle_idle hidle)

theorem gateOperation_other (op : Op) (g : BusGroup) {p : Int} {s : State} {x : Turn} {rest : List Turn} (h0 : 0 ≤ p)
    (h1 : p ≤ 31) (hidle : s.seq.busy = false) (hs : s.sched = x :: rest) (hx : x ≠ .seq) :
    ∃ q, gateOperation op g p s = .next { s with seq := q } ∧ q.busy = true ∧ q.op = op ∧ q.upc = 0 ∧
      q.g = g ∧ (q.p.toNat : Int) = p ∧ q.res = s.seq.res :=
  ⟨_, (gateOperation_accepts h0 h1 hidle).trans (accept_other hs hx), rfl, rfl, rfl, rfl, toNat_ofInt5 h0 h1, rfl⟩

/-- Settles O15: the words field by field, and the primitives of the two operations by index. -/
theorem gateOperationsFollowTheirPseudocode : Obligations.GateOperationsFollowTheirPseudocode := by
  refine ⟨fun L p h0 h1 => ?words, fun g p s x rest h0 h1 hidle hs hx => ⟨?enclk, ?disclk⟩,
    fun o s x rest ho => ⟨fun ha => ?read, fun ha => ?store, fun ha => ?readBack, fun ha => ?answer⟩⟩
  case words =>
    have word {o : Opc} {w : Word} (hw : o.code ++ (0 : BitVec 24) = w) :
        Packet.cmd (commandWord o 0 p) = .cmd (w + BitVec.ofInt 32 p) :=
      congrArg Packet.cmd (commandWord_eq_add hw h0 h1)
    exact ⟨word rfl, word rfl, word rfl, word rfl, word rfl, word rfl, word rfl, word rfl, word rfl, word rfl⟩
  case enclk => rw [exec_enclk]; exact gateOperation_other .enclk g h0 h1 hidle hs hx
  case disclk => rw [exec_disclk]; exact gateOperation_other .disclk g h0 h1 hidle hs hx
  all_goals
    have ⟨_, hop, hu, _, _⟩ := ha
    rw [← hop] at ho
  case read =>
    have hstep := step_atPrimitive ha (seqStep_gate_read ho hu) rfl
    simp only [hu] at hstep
    exact hstep
  case store =>
    have hstep := step_atPrimitive ha (seqStep_gate_store ho hu) rfl
    simp only [hu] at hstep
    refine ⟨_, hstep, ?_, ?_⟩ <;> (rintro rfl; rw [hop]; rfl)
  case readBack =>
    have hstep := step_atPrimitive ha (seqStep_gate_readBack ho hu) rfl
    simp only [hu] at hstep
    exact hstep
  case answer =>
    refine ⟨_, step_atPrimitive ha (seqStep_gate_return ho hu) rfl, ?_, ?_⟩
    · rintro rfl
      rw [hop]
      exact ⟨rfl, rfl, rfl, rfl⟩
    · rintro rfl
      rw [hop]
      refine ⟨rfl, rfl, ?_, rfl⟩
      simp [gateReport, boolResult]

/-! Runs without interference (R100 to R111). -/

/-- The register memory after the store of a gate operation that no other agent has interrupted before it. -/
def gateStored (op : Op) (g : BusGroup) (k : Nat) (s : State) : Memory :=
  s.mem.writeEnr s.params g (gateWord op (readReg (.enr g) s) k)

theorem readReg_gateStored {op : Op} {g : BusGroup} {k : Nat} {s t : State} (hm : t.mem = gateStored op g k s)
    (hp : t.params = s.params) :
    readReg (.enr g) t = gateWord op (readReg (.enr g) s) k &&& s.params.enrImpl.get g := by
  rw [readReg_enr, hm, hp, gateStored, writeEnr_get_same, BitVec.and_assoc, BitVec.and_self]

theorem Undisturbed.drop {m n : Nat} {s t : State} (h : Undisturbed (m + n) s) (ht : t.sched = s.sched.drop m) :
    Undisturbed n t := by
  intro x hx
  rw [ht, List.take_drop] at hx
  exact h x (List.mem_of_mem_drop hx)

section Undisturbed
variable {s : State}

/-- A register read back, and the return of a value that rests on it, with no other agent acting before either. -/
theorem runSeq_read_return (n : Nat) {r : Reg} {v : Word} (hb : s.seq.busy = true) (hs : Undisturbed 2 s)
    (hread : seqStep (passTurn s) = loadU r (passTurn s))
    (hreturn : seqStep { s with
        seq := { s.seq with u := readReg r s, upc := s.seq.upc + 1 }, sched := s.sched.tail.tail } =
      finish v { s with seq := { s.seq with u := readReg r s, upc := s.seq.upc + 1 }, sched := s.sched.tail.tail }) :
    ∃ q, runSeq (n + 2) s = .next { s with seq := q, sched := s.sched.tail.tail } ∧ Returned v q := by
  have hfirst := runSeq_step (n := n + 1) hb hs.next hread (by simp)
  have hsecond := runSeq_step (n := n)
    (s := { passTurn s with seq := { s.seq with u := readReg r s, upc := s.seq.upc + 1 } }) hb
    (hs.tail (t := passTurn s) rfl).next hreturn (by simp)
  exact ⟨_, hfirst.trans (hsecond.trans (runSeq_idle n rfl)), rfl, rfl, rfl, rfl⟩

theorem runSeq_gate_readBack_undisturbed (n : Nat) (ho : s.seq.op = .enclk ∨ s.seq.op = .disclk)
    (hb : s.seq.busy = true) (hu : s.seq.upc = 2) (hs : Undisturbed 2 s) :
    ∃ q, runSeq (n + 2) s = .next { s with seq := q, sched := s.sched.tail.tail } ∧
      Returned (gateReport s.seq.op ((readReg (.enr s.seq.g) s).getLsbD s.seq.p.toNat)) q :=
  runSeq_read_return n hb hs (seqStep_gate_readBack ho hu) (seqStep_gate_return ho (by simp [hu]))

/-- From its store on: it stores the word it makes of its latch, and reports the bit of it that it reads back. -/
theorem runSeq_gate_store_undisturbed (n : Nat) (ho : s.seq.op = .enclk ∨ s.seq.op = .disclk)
    (hb : s.seq.busy = true) (hu : s.seq.upc = 1) (hs : Undisturbed 3 s) :
    ∃ q, runSeq (n + 3) s = .next { s with
        mem := s.mem.writeEnr s.params s.seq.g (gateWord s.seq.op s.seq.t s.seq.p.toNat)
        seq := q
        sched := s.sched.drop 3 } ∧
      Returned (gateReport s.seq.op
        ((gateWord s.seq.op s.seq.t s.seq.p.toNat &&& s.params.enrImpl.get s.seq.g).getLsbD s.seq.p.toNat)) q := by
  have hstore := runSeq_step (n := n + 2) hb hs.next (seqStep_gate_store (s := passTurn s) ho hu) (by simp)
  obtain ⟨q, hrun, hq⟩ := runSeq_gate_readBack_undisturbed n
    (s := { s with
      mem := s.mem.writeEnr s.params s.seq.g (gateWord s.seq.op s.seq.t s.seq.p.toNat)
      seq := { s.seq with upc := s.seq.upc + 1 }
      sched := s.sched.tail })
    ho hb (by simp [hu]) (hs.tail rfl)
  have hdrop : s.sched.drop 3 = s.sched.tail.tail.tail := by simp only [← List.drop_one, List.drop_drop]
  rw [readReg_enr, writeEnr_get_same, BitVec.and_assoc, BitVec.and_self] at hq
  exact ⟨q, hstore.trans (hdrop ▸ hrun), hq⟩

/-- All four primitives: the latch is the register as the operation found it. -/
theorem runSeq_gate_undisturbed (n : Nat) (ho : s.seq.op = .enclk ∨ s.seq.op = .disclk)
    (hb : s.seq.busy = true) (hu : s.seq.upc = 0) (hs : Undisturbed 4 s) :
    ∃ q, runSeq (n + 4) s = .next { s with
        mem := gateStored s.seq.op s.seq.g s.seq.p.toNat s
        seq := q
        sched := s.sched.drop 4 } ∧
      Returned (gateReport s.seq.op ((gateWord s.seq.op (readReg (.enr s.seq.g) s) s.seq.p.toNat &&&
        s.params.enrImpl.get s.seq.g).getLsbD s.seq.p.toNat)) q := by
  have hread := runSeq_step (n := n + 3) hb hs.next (seqStep_gate_read (s := passTurn s) ho hu) (by simp)
  obtain ⟨q, hrun, hq⟩ := runSeq_gate_store_undisturbed n
    (s := { s with
      seq := { s.seq with t := readReg (.enr s.seq.g) s, upc := s.seq.upc + 1 }
      sched := s.sched.tail })
    ho hb (by simp [hu]) (hs.tail rfl)
  have hdrop : s.sched.drop 4 = s.sched.tail.drop 3 := by rw [← List.drop_one, List.drop_drop]
  exact ⟨q, hread.trans (hdrop ▸ hrun), hq⟩

end Undisturbed

theorem gateOperation_undisturbed {op : Op} (g : BusGroup) {p : Int} {s : State} (ho : op = .enclk ∨ op = .disclk)
    (h0 : 0 ≤ p) (h1 : p ≤ 31) (hidle : s.seq.busy = false) (hs : Undisturbed 4 s) :
    ∃ q, gateOperation op g p s = .next { s with mem := gateStored op g p.toNat s, seq := q, sched := s.sched.drop 4 } ∧
      Returned (gateReport op ((gateWord op (readReg (.enr g) s) p.toNat &&& s.params.enrImpl.get g).getLsbD p.toNat)) q := by
  rw [gateOperation_accepts h0 h1 hidle, ← peripheralBits_toNat h0 h1]
  exact runSeq_gate_undisturbed 3 ho rfl rfl (hs.congr rfl)

/-- Settles O16: the word stored, and its bit p reported. -/
theorem enableClockSetsItsBit : Obligations.EnableClockSetsItsBit := by
  intro g p s h0 h1 hidle hs
  obtain ⟨q, hrun, hq⟩ := gateOperation_undisturbed g (.inl rfl) h0 h1 hidle hs
  exact ⟨_, q, (exec_enclk g 0 p s).trans hrun, rfl, hq⟩

/-- Settles O17: the bit read is implemented or 0, so masking the word stored changes nothing of it. -/
theorem disableClockClearsItsBit : Obligations.DisableClockClearsItsBit := by
  intro g p s h0 h1 hidle hs
  obtain ⟨q, hrun, hq⟩ := gateOperation_undisturbed g (.inr rfl) h0 h1 hidle hs
  have hclear : (gateWord .disclk (readReg (.enr g) s) p.toNat).getLsbD p.toNat = false :=
    gateWord_bit .disclk _ (by omega)
  have hmask : gateWord .disclk (readReg (.enr g) s) p.toNat &&& s.params.enrImpl.get g =
      gateWord .disclk (readReg (.enr g) s) p.toNat := clearBit_masked _ _ _
  rw [hmask, hclear] at hq
  refine ⟨_, q, (exec_disclk g 0 p s).trans ?_, rfl, hclear, hq⟩
  rw [hrun, gateStored, Memory.writeEnr, hmask]
  rfl

/-- The ten gate operations are `gateOperation` of ENCLK or DISCLK. -/
theorem exec_gate {o : Opc} {g : BusGroup} (ho : o = .enclk g ∨ o = .disclk g) :
    ∃ op, (op = .enclk ∨ op = .disclk) ∧ ∀ k p s, exec (o.instr k p) s = gateOperation op g p s := by
  rcases ho with rfl | rfl
  · exact ⟨.enclk, .inl rfl, exec_enclk g⟩
  · exact ⟨.disclk, .inr rfl, exec_disclk g⟩

/-- A word stored again over itself changes nothing (R110). -/
theorem gateStored_again {op : Op} {g : BusGroup} {k : Nat} {s t : State} (hm : t.mem = gateStored op g k s)
    (hp : t.params = s.params) : gateStored op g k t = t.mem := by
  rw [gateStored, readReg_gateStored hm hp, hm, hp, gateStored]
  simp only [Memory.writeEnr, gateWord_again, PerGroup.set_set]

/-- Settles O19: the second run stores over the first one's word the same word. -/
theorem gateOperationsAreIdempotent : Obligations.GateOperationsAreIdempotent := by
  intro o g p s ho h0 h1 hidle hs himpl
  obtain ⟨op, hop, hexec⟩ := exec_gate ho
  obtain ⟨q, hfirst, hq⟩ := gateOperation_undisturbed g hop h0 h1 hidle (hs.mono (by omega))
  let t : State := { s with mem := gateStored op g p.toNat s, seq := q, sched := s.sched.drop 4 }
  have ht : Undisturbed 4 t := hs.drop (m := 4) rfl
  obtain ⟨q', hsecond, hq'⟩ := gateOperation_undisturbed (s := t) g hop h0 h1 hq.1 ht
  rw [gateReport_of_implemented _ himpl] at hq hq'
  obtain ⟨-, -, hres, -⟩ := hq
  obtain ⟨hidle', -, hres', -⟩ := hq'
  exact ⟨t, _, (hexec 0 p s).trans hfirst, (hexec 0 p t).trans hsecond, gateStored_again rfl rfl, hres, hres', hidle',
    List.drop_drop⟩

/-! However far they run (R111). -/

/-- How far a gate operation accepted in `a` has come in `u`, no other agent having acted since: to its read, to its
store, or past it. -/
structure GateRan (a u : State) : Prop where
  frame : u = { a with mem := u.mem, seq := u.seq, sched := u.sched }
  op : u.seq.op = a.seq.op
  group : u.seq.g = a.seq.g
  peripheral : u.seq.p = a.seq.p
  mem : (u.mem = a.mem ∧ u.seq.upc = 0) ∨ (u.mem = a.mem ∧ u.seq.upc = 1 ∧ u.seq.t = readReg (.enr a.seq.g) a) ∨
    (u.mem = gateStored a.seq.op a.seq.g a.seq.p.toNat a ∧ (u.seq.busy = true → 2 ≤ u.seq.upc))

theorem GateRan.next {a u v : State} (ho : a.seq.op = .enclk ∨ a.seq.op = .disclk) (h : GateRan a u)
    (hb : u.seq.busy = true) (hs : seqStep (passTurn u) = .next v) : GateRan a v := by
  obtain ⟨hf, hop, hg, hp, hm⟩ := h
  have hu : (passTurn u).seq.op = .enclk ∨ (passTurn u).seq.op = .disclk := by rwa [passTurn_seq, hop]
  obtain ⟨hf', hg', hp'⟩ := seqStep_frame hs
  refine ⟨?frame, (seqStep_op hs).trans hop, hg'.trans hg, hp'.trans hp, ?mem⟩
  case frame =>
    rw [hf', hf]
    rfl
  case mem =>
    have hpar : u.params = a.params := by rw [hf]
    rcases hm with ⟨hm, h0⟩ | ⟨hm, h1, ht⟩ | ⟨hm, h2⟩
    · rw [seqStep_gate_read hu h0] at hs
      cases hs
      refine .inr (.inl ⟨hm, by simp [h0], ?_⟩)
      simp [readReg_enr, hg, hm, hpar]
    · rw [seqStep_gate_store hu h1] at hs
      cases hs
      refine .inr (.inr ⟨?_, fun _ => by simp [h1]⟩)
      simp [gateStored, hm, hpar, hop, hg, hp, ht]
    · have hge := h2 hb
      refine .inr (.inr ⟨(seqStep_gate_mem hu (by simp; omega) hs).trans hm, fun hb' => ?_⟩)
      exact hge.trans (seqStep_upc_le (s := passTurn u) hs hb')

theorem gateOperation_ran {op : Op} {g : BusGroup} {p : Int} {s t : State} (ho : op = .enclk ∨ op = .disclk)
    (h : gateOperation op g p s = .next t) :
    0 ≤ p ∧ t = { s with mem := t.mem, seq := t.seq, sched := t.sched } ∧
      (t.mem = s.mem ∨ t.mem = gateStored op g p.toNat s) := by
  unfold gateOperation at h
  split at h
  case isFalse => cases h
  case isTrue hok =>
    obtain ⟨h0, h1⟩ := (peripheralOk_iff p).mp hok
    obtain ⟨-, h⟩ := whenIdle_next h
    let a : State := { s with seq := { s.seq with g := g, p := peripheralBits p, busy := true, op := op, upc := 0 } }
    have hran : GateRan a t := runSeq_induct (P := GateRan a) (fun u v hb hu hs => hu.next ho hb hs) _ h
      ⟨rfl, rfl, rfl, rfl, .inl ⟨rfl, rfl⟩⟩
    refine ⟨h0, hran.frame, ?_⟩
    rw [← peripheralBits_toNat h0 h1]
    rcases hran.mem with ⟨hm, _⟩ | ⟨hm, _⟩ | ⟨hm, _⟩
    · exact .inl hm
    · exact .inl hm
    · exact .inr hm

/-- Settles O18: the register memory is as it was or as the store leaves it, and the store changes bit p alone. -/
theorem gateOperationsTouchOneBit : Obligations.GateOperationsTouchOneBit := by
  intro o g p s t hL ho h
  obtain ⟨op, hop, hexec⟩ := exec_gate ho
  obtain ⟨h0, hf, hm⟩ := gateOperation_ran hop ((hexec 0 p s).symm.trans h)
  have hparams : t.params = s.params := by rw [hf]
  have hmem : t.mem = { s.mem with enr := t.mem.enr } := by
    rcases hm with hm | hm
    · rw [hm]
    · rw [hm]; rfl
  have hgates : ∀ h, h ≠ g → t.mem.enr.get h = s.mem.enr.get h := by
    intro h hne
    rcases hm with hm | hm <;> rw [hm]
    exact writeEnr_get_other _ _ _ hne
  refine ⟨hf.trans (by rw [← hmem]), hgates, fun k hk => ?bits, fun a ha => byteAt_congr hL hparams (fun r hne => ?_) ha⟩
  case bits =>
    rcases hm with hm | hm
    · rw [readReg_enr, readReg_enr, hm, hparams]
    · rw [readReg_gateStored hm hparams, BitVec.getLsbD_and, gateWord_other_bit _ _ (by omega), ← BitVec.getLsbD_and,
        readReg_enr, BitVec.and_assoc, BitVec.and_self]
  · cases r with
    | enr h => rw [readReg_enr, readReg_enr, hgates h fun e => hne (congrArg Reg.enr e), hparams]
    | cr | cfgr =>
      unfold readReg
      rw [hparams, hmem]
      rfl

/-! The read-back (R112, R120). -/

theorem gateReport_disclk (b : Bool) : gateReport .disclk b = if b then 0 else 1 := by cases b <;> rfl

/-- What SETBYP returns of the bit it has read back: true if it equals the operand (R120). -/
def bypassReport (flag b : Bool) : Word := boolResult (if flag then b else !b)

theorem bypassReport_eq (flag b : Bool) : bypassReport flag b = if b = flag then 1 else 0 := by
  cases flag <;> cases b <;> rfl

section Bypass
variable {s : State}

theorem seqStep_setbyp_readBack (ho : s.seq.op = .setbyp) (hu : s.seq.upc = 2) : seqStep s = loadU .cr s := by
  simp only [seqStep, ho, stepSetbyp, hu]

theorem seqStep_setbyp_return (ho : s.seq.op = .setbyp) (hu : s.seq.upc = 3) :
    seqStep s = finish (bypassReport s.seq.flag (s.seq.u.getLsbD s.params.layout.bypPos)) s := by
  simp only [seqStep, ho, stepSetbyp, hu, bypassReport]

theorem runSeq_setbyp_readBack (n : Nat) (ho : s.seq.op = .setbyp) (hb : s.seq.busy = true) (hu : s.seq.upc = 2)
    (hs : Undisturbed 2 s) : ∃ q, runSeq (n + 2) s = .next { s with seq := q, sched := s.sched.tail.tail } ∧
      Returned (bypassReport s.seq.flag ((readReg .cr s).getLsbD s.params.layout.bypPos)) q :=
  runSeq_read_return n hb hs (seqStep_setbyp_readBack ho hu) (seqStep_setbyp_return ho (by simp [hu]))

end Bypass

/-- Settles O21: in canonical form the bit read back is the state variable itself. -/
theorem mismatchIsReportedAsFalse : Obligations.MismatchIsReportedAsFalse := by
  intro s rest ⟨hp, hm⟩ hb hu hs
  obtain ⟨henr, hcr, _⟩ := (Memory.wf_iff _ _).mp hm
  have hgate : readReg (.enr s.seq.g) s = s.mem.enr.get s.seq.g := masked_of_canonical (henr s.seq.g)
  have hbyp : (readReg .cr s).getLsbD s.params.layout.bypPos = s.mem.byp := crWord_byp ((paramsWf_iff _).mp hp).1 hcr
  have hstep : step s = runSeq 7 s := (step_of_seq hs).trans (seqTurn_of_busy hb)
  rw [hstep]
  refine ⟨fun ho => ?enclk, fun ho => ?disclk, fun ho => ?setbyp⟩
  case enclk =>
    obtain ⟨q, hrun, hq⟩ := runSeq_gate_readBack 5 (.inl ho) hb hu hs
    rw [hgate, ho] at hq
    exact ⟨q, hrun, hq⟩
  case disclk =>
    obtain ⟨q, hrun, hq⟩ := runSeq_gate_readBack 5 (.inr ho) hb hu hs
    rw [hgate, ho, gateReport_disclk] at hq
    exact ⟨q, hrun, hq⟩
  case setbyp =>
    obtain ⟨q, hrun, hq⟩ := runSeq_setbyp_readBack 5 ho hb hu (by simp [Undisturbed, hs])
    rw [hs] at hrun
    rw [hbyp, bypassReport_eq] at hq
    exact ⟨q, hrun, hq⟩

end Sys2Proof.Machine

/-! The poll loop of SETCLK ON (R121, R123, R126): one turn of SEQ in it, and the runs that stay in it or leave it. -/

namespace Sys2Proof.Machine

theorem MachineInv.wf {s : State} (h : MachineInv s) : s.wf := ⟨h.params, h.mem⟩

theorem MachineInv.layout_ok {s : State} (h : MachineInv s) : s.params.layout.ok = true :=
  ((paramsWf_iff _).mp h.params).1

theorem Polling.busy {x : Source} {s : State} (hp : Polling x s) : s.seq.busy = true := hp.1

theorem Polling.src_mem {x : Source} {s : State} (hp : Polling x s) (hi : MachineInv s) :
    x ∈ s.params.layout.sources := by
  obtain ⟨_, _, _, rfl, _⟩ := hp
  exact hi.src

theorem Polling.congr {x : Source} {s t : State} (hp : Polling x s) (h : t.seq = s.seq) : Polling x t := by
  unfold Polling
  rw [h]
  exact hp

/-- A run of one step more, taken apart. -/
theorem run_succ_inv {n : Nat} {s t : State} (h : Sys2Proof.core.run (n + 1) s = .next t) :
    ∃ s', step s = .next s' ∧ Sys2Proof.core.run n s' = .next t := by
  cases hs : step s with
  | next s' => exact ⟨s', rfl, (run_succ_next hs).symm.trans h⟩
  | fault f => exact nomatch f
  | refused e => cases (run_succ_refused hs).symm.trans h

/-! One turn of SEQ in the loop. -/

/-- The return after a poll read that has seen the ready bit, and after the write of SETCLK OFF (R125). -/
theorem seqStep_setclk_return {s : State} (ho : s.seq.op = .setclk)
    (hu : s.seq.upc = 3 ∨ s.seq.upc = 2 ∧ s.seq.flag = false) : seqStep s = finish 1 s := by
  rcases hu with hu | ⟨hu, hf⟩
  · simp only [seqStep, ho, stepSetclk, hu]
    rfl
  · simp only [seqStep, ho, stepSetclk, hu, hf]
    rfl

/-- The state after a poll read: the word read is in `u`, and `upc` is where the read has sent it. -/
def polled (s : State) (k : Nat) : State :=
  { passTurn s with seq := { s.seq with u := crWord s.params.layout s.mem, upc := k } }

section Poll
variable {x : Source} {s t : State}

/-- With the ready bit clear SEQ's turns end with the poll read. -/
theorem runSeq_polling_unready (n : Nat) (hw : s.wf) (hx : x ∈ s.params.layout.sources) (hp : Polling x s)
    (hr : s.mem.rdy.get x = false) (hn : seqIsNext s = true) : runSeq (n + 1) s = .next (polled s s.seq.upc) :=
  runSeq_wait hp.busy hn (seqStep_polling_wait (s := passTurn s) hw hx hp hr) rfl

/-- With the ready bit set the return comes next. -/
theorem runSeq_polling_ready (n : Nat) (hw : s.wf) (hx : x ∈ s.params.layout.sources) (hp : Polling x s)
    (hr : s.mem.rdy.get x = true) (hn : seqIsNext s = true) : runSeq (n + 1) s = runSeq n (polled s 3) := by
  obtain ⟨hb, _, _, _, hu⟩ := id hp
  refine runSeq_step hb hn ?_ (by simp [polled, hu])
  rw [seqStep_polling_ready (s := passTurn s) hw hx hp hr, passTurn_seq, hu]
  rfl

theorem runSeq_polled_return (n : Nat) (hp : Polling x s) (hn : seqIsNext (polled s 3) = true) :
    ∃ q, runSeq (n + 1) (polled s 3) = .next { s with seq := q, sched := s.sched.tail.tail } ∧ Returned 1 q := by
  obtain ⟨hb, ho, _⟩ := hp
  have hreturn := runSeq_step (n := n) (s := polled s 3) hb hn
    (seqStep_setclk_return (s := passTurn (polled s 3)) ho (.inl rfl)) (Nat.zero_ne_add_one 2)
  exact ⟨_, hreturn.trans (runSeq_idle n rfl), rfl, rfl, rfl, rfl⟩

/-- Undisturbed, a poll of a ready source returns true. -/
theorem runSeq_polling_returns (n : Nat) (hw : s.wf) (hx : x ∈ s.params.layout.sources) (hp : Polling x s)
    (hr : s.mem.rdy.get x = true) (hs : Undisturbed 2 s) :
    ∃ q, runSeq (n + 2) s = .next { s with seq := q, sched := s.sched.tail.tail } ∧ Returned 1 q := by
  rw [runSeq_polling_ready (n + 1) hw hx hp hr hs.next]
  exact runSeq_polled_return n hp (hs.tail (t := polled s 3) rfl).next

/-- SEQ's turns leave it polling while the source is not ready. -/
theorem runSeq_polling_stays (n : Nat) (hw : s.wf) (hx : x ∈ s.params.layout.sources) (hp : Polling x s)
    (hr : s.mem.rdy.get x = false) (h : runSeq (n + 1) s = .next t) : Polling x t ∧ t.seq.res = s.seq.res := by
  cases hn : seqIsNext s with
  | true => cases (runSeq_polling_unready n hw hx hp hr hn).symm.trans h; exact ⟨hp, rfl⟩
  | false => cases (runSeq_other _ hn).symm.trans h; exact ⟨hp, rfl⟩

end Poll

/-- Settles O28: the poll read, and after one that sees the ready bit the return. -/
theorem pollIterationReadsTheReadyBit : Obligations.PollIterationReadsTheReadyBit := by
  intro x s rest hw hx hp
  have hstep {l : List Turn} (hs : s.sched = .seq :: l) : step s = runSeq 7 s :=
    (step_of_seq hs).trans (seqTurn_of_busy hp.busy)
  refine ⟨fun hr hs => ⟨polled s s.seq.upc, ?wait, hp, ?frame, rfl⟩, fun hr hs => ?returns⟩
  case wait => exact (hstep hs).trans (runSeq_polling_unready 6 hw hx hp hr (by rw [seqIsNext, hs]))
  case frame => rw [polled, passTurn, hs, List.tail_cons]
  case returns =>
    obtain ⟨q, hrun, hq⟩ := runSeq_polling_returns 5 hw hx hp hr (by simp [Undisturbed, hs])
    rw [hs] at hrun
    exact ⟨q, (hstep hs).trans hrun, hq⟩

/-! A source that never stabilises (R123, R184). -/

/-- A state that polls for a source which is not ready and never will be, RESET not among the turns listed. -/
structure Hung (x : Source) (s : State) : Prop where
  inv : MachineInv s
  polling : Polling x s
  unready : s.mem.rdy.get x = false
  unstable : s.params.stabilizes.get x = false
  noReset : Turn.reset ∉ s.sched

section Hung
variable {x : Source} {s t : State}

/-- A step from it that is not RESET goes on polling: any other agent's keeps SEQ's state, and SEQ's own is a poll read. -/
theorem Hung.polling_next (h : Hung x s) (hs : step s = .next t) : Polling x t ∧ t.seq.res = s.seq.res := by
  obtain ⟨hi, hp, hr, _, hreset⟩ := h
  cases step_kind hs with
  | inputs | hardware | write => exact ⟨hp.congr rfl, rfl⟩
  | sentinel _ hidle => exact absurd (hidle.symm.trans hp.busy) (by decide)
  | accepted _ hidle => exact absurd (hidle.symm.trans hp.busy) (by decide)
  | reset _ hhead => exact absurd (List.mem_of_head? hhead) hreset
  | resumed _ hrun => exact runSeq_polling_stays 6 hi.wf (hp.src_mem hi) hp hr hrun

/-- The state stays hung: only its own oscillator could make the source ready. -/
theorem Hung.next (h : Hung x s) (hs : step s = .next t) : Hung x t := by
  have hparams : t.params = s.params := (step_events hs).params_eq
  have hhead : s.sched.head? ≠ some .reset := fun e => h.noReset (List.mem_of_head? e)
  refine ⟨everyStepKeepsTheInvariant s t h.inv hs, (h.polling_next hs).1, ?unready, hparams ▸ h.unstable, ?noReset⟩
  case unready =>
    refine Bool.eq_false_iff.mpr fun hr => ?_
    obtain ⟨_, _, hst, _⟩ := readyRisesOnlyByStabilizing x s t hs hhead h.unready hr
    exact absurd (h.unstable.symm.trans hst) (by decide)
  case noReset =>
    obtain ⟨k, hk⟩ := step_sched hs
    rw [hk]
    exact fun hm => h.noReset (List.mem_of_mem_drop hm)

/-- With no turn listed there is a next step: a hardware agent's or a poll read, and neither is refused. -/
theorem Hung.exists_next (h : Hung x s) (hs : s.sched = []) : ∃ t, step s = .next t := by
  rw [step_of_empty hs]
  unfold defaultTurn
  cases firstEnabled s with
  | some a => exact ⟨_, rfl⟩
  | none =>
    have hpoll := runSeq_polling_unready 6 h.inv.wf (h.polling.src_mem h.inv) h.polling h.unready (by rw [seqIsNext, hs])
    exact ⟨_, (seqTurn_of_busy h.polling.busy).trans hpoll⟩

theorem Hung.run : ∀ {n : Nat} {s t : State}, Hung x s → Sys2Proof.core.run n s = .next t →
    Polling x t ∧ t.seq.res = s.seq.res
  | 0, _, _, h, hr => by cases hr; exact ⟨h.polling, rfl⟩
  | n + 1, s, t, h, hr => by
    obtain ⟨s', hs, hr⟩ := run_succ_inv hr
    obtain ⟨hp, hres⟩ := (h.next hs).run hr
    exact ⟨hp, hres.trans (h.polling_next hs).2⟩

theorem Hung.exists_run : ∀ (n : Nat) {s : State}, Hung x s → s.sched = [] → ∃ t, Sys2Proof.core.run n s = .next t
  | 0, s, _, _ => ⟨s, rfl⟩
  | n + 1, s, h, hs => by
    obtain ⟨s', hstep⟩ := h.exists_next hs
    obtain ⟨k, hk⟩ := step_sched hstep
    rw [run_succ_next hstep]
    exact (h.next hstep).exists_run n (by rw [hk, hs, List.drop_nil])

end Hung

/-- Settles O29: being hung is an invariant of every step but RESET, and with no turn listed it never stops a run. -/
theorem unstableSourceHangsThePoll : Obligations.UnstableSourceHangsThePoll := by
  intro x s hi hp hr hst hreset
  have hung : Hung x s := ⟨hi, hp, hr, hst, hreset⟩
  exact ⟨fun _ _ => hung.run, fun hs n => hung.exists_run n hs⟩

/-! A source that is ready, or becomes so (R121, R126, R164). -/

/-- SEQ's turns from the poll loop end with SEQ idle only by the return after a read of the ready bit. -/
theorem runSeq_polling_idle {x : Source} {s t : State} (n : Nat) (hw : s.wf) (hx : x ∈ s.params.layout.sources)
    (hp : Polling x s) (h : runSeq (n + 2) s = .next t) (hidle : t.seq.busy = false) :
    s.mem.rdy.get x = true ∧ t.mem = s.mem ∧ t.seq.res = 1 := by
  have waits {u : State} (hu : u.seq.busy = true) (ht : runSeq (n + 2) s = .next u) : False := by
    cases ht.symm.trans h
    exact absurd (hidle.symm.trans hu) (by decide)
  cases hr : s.mem.rdy.get x with
  | false => exact absurd (hidle.symm.trans (runSeq_polling_stays (n + 1) hw hx hp hr h).1.busy) (by decide)
  | true =>
    cases hn : seqIsNext s with
    | false => exact (waits hp.busy (runSeq_other _ hn)).elim
    | true =>
      have hrun := runSeq_polling_ready (n + 1) hw hx hp hr hn
      cases hn' : seqIsNext (polled s 3) with
      | false => exact (waits (u := polled s 3) hp.busy (hrun.trans (runSeq_other _ hn'))).elim
      | true =>
        obtain ⟨q, hreturn, _, _, hres, _⟩ := runSeq_polled_return n hp hn'
        cases (hrun.trans hreturn).symm.trans h
        exact ⟨rfl, rfl, hres⟩

/-- Settles O31: every turn but SEQ's keeps SEQ busy, and SEQ's own returns only after a read of the ready bit. -/
theorem setClockOnReturnsOnlyWhenReady : Obligations.SetClockOnReturnsOnlyWhenReady := by
  intro x s t hi hp hhead h hidle
  cases step_kind h with
  | inputs | hardware | write => exact absurd (hidle.symm.trans hp.busy) (by decide)
  | sentinel _ hidle' => exact absurd (hidle'.symm.trans hp.busy) (by decide)
  | accepted _ hidle' => exact absurd (hidle'.symm.trans hp.busy) (by decide)
  | reset _ hreset => exact absurd hreset hhead
  | resumed _ hrun => exact runSeq_polling_idle 5 hi.wf (hp.src_mem hi) hp hrun hidle

end Sys2Proof.Machine

/-! A source that stabilises (R123, R160, R164): in the default order each oscillator and MUX move at most once, and then
SEQ reads the ready bit. -/

namespace Sys2Proof.Machine

/-! The hardware agents that have something to do. -/

section Pending
variable {P : Params} {m : Memory} {y z : Source}

/-- OSC[y]'s step leaves it nothing to do (R160, R162). -/
theorem oscEnabled_osc_same (hy : y ∈ P.layout.sources) (hl : m.rdy.extra.length = P.layout.enPos.extra.length) :
    oscEnabled P y (m.osc P y) = false := by
  unfold Memory.osc
  split
  case isTrue hs =>
    obtain ⟨he, _, _⟩ := (stabilizeEnabled_iff _ _ _).mp hs
    simp [oscEnabled, stabilizeEnabled, decayEnabled, PerSource.get_set_same hy hl, he]
  case isFalse hs =>
    split
    case isTrue hd =>
      obtain ⟨_, he, _⟩ := (decayEnabled_iff _ _ _).mp hd
      simp [oscEnabled, stabilizeEnabled, decayEnabled, PerSource.get_set_same hy hl, he]
    case isFalse hd => simp [oscEnabled, hs, hd]

theorem oscEnabled_osc_other (hne : z ≠ y) : oscEnabled P z (m.osc P y) = oscEnabled P z m := by
  unfold Memory.osc
  split
  · simp [oscEnabled, stabilizeEnabled, decayEnabled, PerSource.get_set_other _ _ hne]
  · split
    · simp [oscEnabled, stabilizeEnabled, decayEnabled, PerSource.get_set_other _ _ hne]
    · rfl

/-- The sources whose oscillators have an enabled step. -/
def pending (P : Params) (m : Memory) : List Source := P.layout.sources.filter fun x => oscEnabled P x m

theorem mem_pending : y ∈ pending P m ↔ y ∈ P.layout.sources ∧ oscEnabled P y m = true := List.mem_filter

theorem pending_osc (hy : y ∈ P.layout.sources) (hl : m.rdy.extra.length = P.layout.enPos.extra.length) :
    pending P (m.osc P y) = (pending P m).filter (· ≠ y) := by
  rw [pending, pending, List.filter_filter]
  refine List.filter_congr fun z _ => ?_
  by_cases h : z = y
  · subst h; simp [oscEnabled_osc_same hy hl]
  · simp [oscEnabled_osc_other h, h]

theorem pending_osc_length (hy : y ∈ pending P m) (hl : m.rdy.extra.length = P.layout.enPos.extra.length) :
    (pending P (m.osc P y)).length < (pending P m).length := by
  rw [pending_osc (mem_pending.mp hy).1 hl, List.length_filter_lt_length_iff_exists]
  exact ⟨y, hy, by simp⟩

theorem pending_follow (P : Params) (m : Memory) : pending P (m.follow P) = pending P m := by
  rcases follow_cases P m with ⟨_, h⟩ | ⟨_, h⟩ <;> rw [h]
  rfl

theorem muxEnabled_follow (P : Params) (m : Memory) : muxEnabled P (m.follow P) = false := by
  rcases follow_cases P m with ⟨_, h⟩ | ⟨h0, h⟩ <;> rw [h]
  · simp [muxEnabled]
  · exact h0

end Pending

/-- The default order asks the oscillators first, then MUX (log 3). -/
theorem firstEnabled_cases (s : State) :
    (∃ y ∈ pending s.params s.mem, firstEnabled s = some (.osc y)) ∨
      (pending s.params s.mem = [] ∧
        firstEnabled s = if muxEnabled s.params s.mem then some .mux else none) := by
  unfold firstEnabled
  rw [List.find?_append]
  cases hf : (s.params.layout.sources.map Hardware.osc).find? fun h => h.enabled s.params s.mem with
  | some a =>
    obtain ⟨y, hy, rfl⟩ := List.mem_map.mp (List.mem_of_find?_eq_some hf)
    exact .inl ⟨y, mem_pending.mpr ⟨hy, List.find?_some (p := Hardware.enabled s.params s.mem) hf⟩, rfl⟩
  | none =>
    have hnone : ∀ y ∈ s.params.layout.sources, ¬ oscEnabled s.params y s.mem = true := fun y hy =>
      List.find?_eq_none.mp hf _ (List.mem_map_of_mem hy)
    refine .inr ⟨List.filter_eq_nil_iff.mpr hnone, ?_⟩
    have hmux : Hardware.mux.enabled s.params s.mem = muxEnabled s.params s.mem := rfl
    rw [Option.none_or, List.find?_singleton, hmux]

/-! The run. -/

/-- A state that polls for an enabled source which stabilises, with no turn listed. -/
structure Awaiting (x : Source) (s : State) : Prop where
  inv : MachineInv s
  polling : Polling x s
  enabled : s.mem.en.get x = true
  stabilizes : s.params.stabilizes.get x = true
  unlisted : s.sched = []

/-- A run of at most `k` steps from `s` ends with the operation returned and its source ready. -/
def ReturnsWithin (x : Source) (k : Nat) (s : State) : Prop :=
  ∃ n t, n ≤ k ∧ Sys2Proof.core.run n s = .next t ∧ Returned 1 t.seq ∧ t.mem.rdy.get x = true

section Awaiting
variable {x : Source} {s : State}

theorem ReturnsWithin.mono {k k' : Nat} (h : ReturnsWithin x k s) (hk : k ≤ k') : ReturnsWithin x k' s := by
  obtain ⟨n, t, hn, h⟩ := h
  exact ⟨n, t, hn.trans hk, h⟩

theorem ReturnsWithin.of_step {k : Nat} {s' : State} (hs : step s = .next s') (h : ReturnsWithin x k s') :
    ReturnsWithin x (k + 1) s := by
  obtain ⟨n, t, hn, hrun, h⟩ := h
  exact ⟨n + 1, t, Nat.succ_le_succ hn, (run_succ_next hs).trans hrun, h⟩

theorem Awaiting.hardware (h : Awaiting x s) (a : Hardware) : Awaiting x (hardwareStep a s) := by
  obtain ⟨hi, hp, he, hst, hs⟩ := h
  exact ⟨(Event.hardware a).machineInv hi, hp, by rwa [hardwareStep_mem, (hardware_act_en _ _ a).1], hst, hs⟩

theorem Awaiting.step_hardware (h : Awaiting x s) {a : Hardware} (ha : firstEnabled s = some a) :
    step s = .next (hardwareStep a s) := by
  rw [step_of_empty h.unlisted, defaultTurn, ha]

/-- Once its oscillator has nothing to do, the source is ready. -/
theorem Awaiting.ready (h : Awaiting x s) (hp : pending s.params s.mem = []) : s.mem.rdy.get x = true := by
  by_contra hr
  have hosc : x ∈ pending s.params s.mem := by
    refine mem_pending.mpr ⟨h.polling.src_mem h.inv, ?_⟩
    rw [oscEnabled, (stabilizeEnabled_iff _ _ _).mpr ⟨h.enabled, Bool.eq_false_iff.mpr hr, h.stabilizes⟩, Bool.true_or]
  rw [hp] at hosc
  cases hosc

/-- With no hardware left to move, SEQ reads the ready bit and returns. -/
theorem Awaiting.returns (h : Awaiting x s) (hp : pending s.params s.mem = [])
    (hm : muxEnabled s.params s.mem = false) : ReturnsWithin x 1 s := by
  have hr := h.ready hp
  have hnone : firstEnabled s = none := by
    rcases firstEnabled_cases s with ⟨y, hy, _⟩ | ⟨_, hf⟩
    · rw [hp] at hy; cases hy
    · rw [hf, hm]; rfl
  obtain ⟨q, hrun, hq⟩ := runSeq_polling_returns 5 h.inv.wf (h.polling.src_mem h.inv) h.polling hr
    (by simp [Undisturbed, h.unlisted])
  have hstep := (step_of_no_hardware h.unlisted hnone).trans ((seqTurn_of_busy h.polling.busy).trans hrun)
  exact ⟨1, _, Nat.le_refl 1, run_succ_next hstep, hq, hr⟩

/-- MUX may have one step before that. -/
theorem Awaiting.returns_of_settled (h : Awaiting x s) (hp : pending s.params s.mem = []) : ReturnsWithin x 2 s := by
  cases hm : muxEnabled s.params s.mem with
  | false => exact (h.returns hp hm).mono (by decide)
  | true =>
    rcases firstEnabled_cases s with ⟨y, hy, _⟩ | ⟨_, hf⟩
    · rw [hp] at hy; cases hy
    · rw [hm] at hf
      refine .of_step (h.step_hardware hf) ((h.hardware .mux).returns ?_ (muxEnabled_follow _ _))
      exact (pending_follow _ _).trans hp

/-- And every oscillator that has something to do one step before that. -/
theorem Awaiting.returns_of_pending : ∀ (k : Nat) {s : State}, Awaiting x s → (pending s.params s.mem).length ≤ k →
    ReturnsWithin x (k + 2) s
  | 0, _, h, hk => h.returns_of_settled (List.length_eq_zero_iff.mp (Nat.le_zero.mp hk))
  | k + 1, s, h, hk => by
    rcases firstEnabled_cases s with ⟨y, hy, hf⟩ | ⟨hp, _⟩
    · obtain ⟨_, _, _, _, hl⟩ := (Memory.wf_iff _ _).mp h.inv.mem
      have hlt := pending_osc_length hy hl
      exact .of_step (h.step_hardware hf) ((h.hardware (.osc y)).returns_of_pending k (Nat.le_of_lt_succ (hlt.trans_le hk)))
    · exact (h.returns_of_settled hp).mono (by omega)

end Awaiting

/-- Settles O30: at most one step of each oscillator, one of MUX and one of SEQ. -/
theorem stabilizingSourceEndsThePoll : Obligations.StabilizingSourceEndsThePoll := by
  intro x s hi hp he hst hs
  have h : Awaiting x s := ⟨hi, hp, he, hst, hs⟩
  exact h.returns_of_pending _ (List.length_filter_le _ _)

end Sys2Proof.Machine

/-! The oscillator operations SETBYP, SETCLK and GETCLK (R120 to R122): their encoding, acceptance and primitives. -/

namespace Sys2Proof

/-- The command word of an operation with a source has its enable position in bits 12:8 (R62, R64). -/
theorem commandWord_source_eq_add {o : Opc} {n : Nat} {k : Int} {w : Word} (hw : o.code ++ (0 : BitVec 24) = w)
    (hn : n < 32) (h0 : 0 ≤ k) (h1 : k ≤ 31) :
    commandWord o n k = w + BitVec.ofNat 32 n <<< 8 + BitVec.ofInt 32 k := by
  have hsrc : BitVec.ofNat 32 n = (BitVec.ofInt 5 (n : Int)).setWidth 32 := by
    apply BitVec.eq_of_toNat_eq
    simp only [BitVec.toNat_ofNat, BitVec.toNat_setWidth, BitVec.toNat_ofInt]
    omega
  have hadd : commandWord o n k = commandWord o 0 k + BitVec.ofNat 32 n <<< 8 := by
    rw [hsrc, commandWord, commandWord, show BitVec.ofInt 5 0 = 0 from rfl]
    generalize BitVec.ofInt 5 (n : Int) = a
    generalize BitVec.ofInt 5 k = b
    rw [BitVec.add_eq_or_of_and_eq_zero]
    all_goals
      apply BitVec.eq_of_getLsbD_eq
      intro i hi
      simp only [BitVec.getLsbD_or, BitVec.getLsbD_and, BitVec.getLsbD_append, BitVec.getLsbD_setWidth,
        BitVec.getLsbD_shiftLeft]
      interval_cases i <;> simp
  rw [hadd, commandWord_eq_add hw h0 h1, BitVec.add_assoc, BitVec.add_comm (BitVec.ofInt 32 k), ← BitVec.add_assoc]

end Sys2Proof

namespace Sys2Proof.Machine

/-! Acceptance (R72). -/

theorem execSetbyp_accepts {b : Int} {f : Bool} {s : State} (hb : boolAt b = some f) (hidle : s.seq.busy = false) :
    execSetbyp b s = accept .setbyp { s with seq := { s.seq with flag := f } } := by
  simp only [execSetbyp, hb, whenIdle_idle hidle]

theorem execGetclk_accepts {k : Int} {x : Source} {s : State} (hk : sourceAt s.params.layout k = some x)
    (hidle : s.seq.busy = false) : execGetclk k s = accept .getclk { s with seq := { s.seq with src := x } } := by
  simp only [execGetclk, hk, whenIdle_idle hidle]

theorem boolAt_of_value {k : Int} {b : Bool} (h : (k = 1 ∧ b = true) ∨ (k = 0 ∧ b = false)) : boolAt k = some b := by
  rcases h with ⟨rfl, rfl⟩ | ⟨rfl, rfl⟩ <;> rfl

/-! The write of CR (R91): what it does rests on the parameters and the register memory alone. -/

theorem writeReg_cr_eq (d : Word) (s : State) : writeReg .cr d s =
    if s.params.disableSelected = .refuse ∧ disablesSelected s.params d s.mem = true
    then .refused .disableOfSelectedSource else .next { s with mem := s.mem.writeCr s.params d } := by
  split
  case isTrue h => exact writeReg_cr_refused h.1 h.2
  case isFalse h => exact writeReg_cr_answered h

/-! The primitives of the two operations that write CR, and those of GETCLK. -/

/-- `t` with bit `k` put to `b` (R63). -/
def putBit (b : Bool) (t : Word) (k : Nat) : Word := if b then setBit t k else clearBit t k

/-- The position of CR that SETBYP and SETCLK put to their flag (R120, R121). -/
def crBit (s : State) : Nat :=
  if s.seq.op = .setbyp then s.params.layout.bypPos else s.params.layout.enPos.get s.seq.src

section Primitives
variable {s : State}

theorem seqStep_cr_read (ho : s.seq.op = .setbyp ∨ s.seq.op = .setclk) (hu : s.seq.upc = 0) :
    seqStep s = loadT .cr s := by
  rcases ho with ho | ho <;> simp only [seqStep, ho, stepSetbyp, stepSetclk, hu]

theorem seqStep_cr_store (ho : s.seq.op = .setbyp ∨ s.seq.op = .setclk) (hu : s.seq.upc = 1) :
    seqStep s = store .cr (putBit s.seq.flag s.seq.t (crBit s)) s := by
  rcases ho with ho | ho <;> simp only [seqStep, ho, stepSetbyp, stepSetclk, hu, crBit] <;> rfl

theorem seqStep_getclk_read (ho : s.seq.op = .getclk) (hu : s.seq.upc = 0) : seqStep s = loadU .cr s := by
  simp only [seqStep, ho, stepGetclk, hu]

theorem seqStep_getclk_return (ho : s.seq.op = .getclk) (hu : s.seq.upc = 1) :
    seqStep s = finish (boolResult (s.seq.u.getLsbD (s.params.layout.rdyPos s.seq.src))) s := by
  simp only [seqStep, ho, stepGetclk, hu]

end Primitives

section AtPrimitive
variable {o : Op} {k : Nat} {x : Turn} {rest : List Turn} {s : State}

/-- A refused primitive refuses its step (log 23). -/
theorem step_atPrimitive_refused {e : Refusal} (ha : AtPrimitive o k x rest s)
    (h : seqStep { s with sched := x :: rest } = .refused e) : step s = .refused e := by
  obtain ⟨hb, _, _, hs, _⟩ := ha
  have hp : seqStep (passTurn s) = .refused e := by rw [← h, passTurn, hs, List.tail_cons]
  rw [step_of_seq hs, seqTurn_of_busy hb]
  exact runSeq_stop hb (by rw [seqIsNext, hs]) hp

theorem step_at_cr_read (ho : o = .setbyp ∨ o = .setclk) (ha : AtPrimitive o 0 x rest s) :
    step s = .next { s with seq := { s.seq with t := readReg .cr s, upc := 1 }, sched := x :: rest } := by
  have ⟨_, hop, hu, _, _⟩ := ha
  rw [← hop] at ho
  have hstep := step_atPrimitive ha (seqStep_cr_read ho hu) rfl
  simp only [hu] at hstep
  exact hstep

/-- The write of CR inside an operation does what the transaction WR.CR does, and is refused where that is. -/
theorem step_at_cr_store (ho : o = .setbyp ∨ o = .setclk) (ha : AtPrimitive o 1 x rest s) {d : Word}
    (hd : d = putBit s.seq.flag s.seq.t (crBit s)) :
    (∀ m, exec (.wrCr d) s = .next m →
      step s = .next { m with seq := { s.seq with upc := 2 }, sched := x :: rest }) ∧
    (∀ e, exec (.wrCr d) s = .refused e → step s = .refused e) := by
  have ⟨_, hop, hu, _, _⟩ := ha
  rw [← hop] at ho
  have hstore : seqStep { s with sched := x :: rest } = store .cr d { s with sched := x :: rest } := by
    rw [hd]; exact seqStep_cr_store ho hu
  have hexec : exec (.wrCr d) s = writeReg .cr d s := rfl
  rw [hexec, writeReg_cr_eq]
  by_cases hc : s.params.disableSelected = .refuse ∧ disablesSelected s.params d s.mem = true
  · rw [if_pos hc]
    refine ⟨fun m hm => (by cases hm), fun e he => ?_⟩
    cases he
    have hrefused := store_refused (writeReg_cr_refused (s := { s with sched := x :: rest }) hc.1 hc.2)
    exact step_atPrimitive_refused ha (hstore.trans hrefused)
  · rw [if_neg hc]
    refine ⟨fun m hm => ?_, fun e he => (by cases he)⟩
    cases hm
    have hnext := store_next (writeReg_cr_answered (s := { s with sched := x :: rest }) hc)
    have hstep := step_atPrimitive ha (hstore.trans hnext) rfl
    simp only [hu] at hstep
    exact hstep

end AtPrimitive

/-- Settles O22: the words field by field, the operands latched, and the primitives by operation and index. -/
theorem oscillatorOperationsFollowTheirPseudocode : Obligations.OscillatorOperationsFollowTheirPseudocode := by
  refine ⟨fun L k hL hk => ⟨?setbypWord, ?sourceWords⟩,
    fun k b y s x rest hk hL hy hidle hs hx => ⟨?setbyp, ?setclk, ?getclk⟩,
    fun s x rest => ⟨?read, ?store, fun ha => ?readBack, fun ha => ?confirm, fun ha hf => ?poll, ?answer,
      fun ha => ?readReady, fun ha => ?report⟩⟩
  case setbypWord => exact congrArg Packet.cmd (commandWord_eq_add rfl (by omega) (by omega))
  case sourceWords =>
    rintro y hy n rfl
    have hn := enPos_lt hL hy
    refine ⟨congrArg Packet.cmd (commandWord_source_eq_add rfl hn (by omega) (by omega)), congrArg Packet.cmd ?_⟩
    rw [commandWord_source_eq_add (w := 0x22000000) rfl hn (by decide) (by decide), show BitVec.ofInt 32 0 = 0 from rfl]
    exact BitVec.add_zero _
  case setbyp =>
    exact ⟨_, (execSetbyp_accepts (boolAt_of_value hk) hidle).trans (accept_other hs hx), rfl, rfl, rfl, rfl, rfl⟩
  case setclk =>
    exact ⟨_, (execSetclk_accepts (sourceAt_enPos hL hy) (boolAt_of_value hk) hidle).trans (accept_other hs hx),
      rfl, rfl, rfl, rfl, rfl, rfl⟩
  case getclk =>
    exact ⟨_, (execGetclk_accepts (sourceAt_enPos hL hy) hidle).trans (accept_other hs hx), rfl, rfl, rfl, rfl, rfl⟩
  case read => exact fun ha => ha.elim (step_at_cr_read (.inl rfl)) (step_at_cr_read (.inr rfl))
  case store =>
    rintro k (⟨ha, rfl⟩ | ⟨ha, rfl⟩) d hd
    all_goals
      have ⟨_, ho, _, _, _⟩ := ha
    · exact step_at_cr_store (.inl rfl) ha (by rw [hd, crBit, ho]; rfl)
    · exact step_at_cr_store (.inr rfl) ha (by rw [hd, crBit, ho]; rfl)
  case readBack =>
    have ⟨_, ho, hu, _, _⟩ := ha
    have hstep := step_atPrimitive ha (seqStep_setbyp_readBack ho hu) rfl
    simp only [hu] at hstep
    exact hstep
  case confirm =>
    have ⟨_, ho, hu, _, _⟩ := ha
    exact ⟨_, step_atPrimitive ha (seqStep_setbyp_return ho hu) rfl, rfl, rfl, bypassReport_eq _ _, rfl⟩
  case poll =>
    have ⟨hb, ho, hu, _, _⟩ := ha
    have hp : Polling s.seq.src { s with sched := x :: rest } := ⟨hb, ho, hf, rfl, hu⟩
    have hstep := step_atPrimitive ha (seqStep_polling hp) rfl
    simp only [hu] at hstep
    exact hstep
  case answer =>
    rintro (⟨ha, hf⟩ | ha)
    all_goals
      have ⟨_, ho, hu, _, _⟩ := ha
    · exact ⟨_, step_atPrimitive ha (seqStep_setclk_return ho (.inr ⟨hu, hf⟩)) rfl, rfl, rfl, rfl, rfl⟩
    · exact ⟨_, step_atPrimitive ha (seqStep_setclk_return ho (.inl hu)) rfl, rfl, rfl, rfl, rfl⟩
  case readReady =>
    have ⟨_, ho, hu, _, _⟩ := ha
    have hstep := step_atPrimitive ha (seqStep_getclk_read ho hu) rfl
    simp only [hu] at hstep
    exact hstep
  case report =>
    have ⟨_, ho, hu, _, _⟩ := ha
    exact ⟨_, step_atPrimitive ha (seqStep_getclk_return ho hu) rfl, rfl, rfl, rfl, rfl⟩

end Sys2Proof.Machine

/-! The oscillator operations without interference (R120 to R122, R125), and their frame (R124). -/

namespace Sys2Proof.Machine

/-! What the read-modify-write of CR leaves (R91, R120, R121). -/

section Put
variable {P : Params} {m : Memory} {x : Source} {b : Bool}

theorem getLsbD_putBit (b : Bool) (t : Word) {k i : Nat} (hi : i < 32) :
    (putBit b t k).getLsbD i = if i = k then b else t.getLsbD i := by
  unfold putBit
  by_cases h : i = k <;> cases b <;> simp [h, -BitVec.getLsbD_eq_getElem]
  omega

theorem writeCr_putByp (hL : P.layout.ok = true) (hm : MemoryInv P m) (b : Bool) :
    m.writeCr P (putBit b (crWord P.layout m) P.layout.bypPos) =
      { m with byp := if P.bypLock && m.en.get .hse then m.byp else b } :=
  writeCr_byp hL hm.wf hm.ready b

/-- The bypass bit written back, no source is disabled, so the write is not refused. -/
theorem disablesSelected_putByp (hL : P.layout.ok = true) (hm : MemoryInv P m) (b : Bool) :
    disablesSelected P (putBit b (crWord P.layout m) P.layout.bypPos) m = false := by
  obtain ⟨_, hc, _⟩ := (Memory.wf_iff P m).mp hm.wf
  refine disablesSelected_of_kept fun y hy he => ?_
  rw [getLsbD_putBit b _ (enPos_lt hL hy), if_neg (bypPos_ne_enPos hL hy).symm, crWord_en hL hc hy, he]

/-- The register memory after the write of SETCLK (R121, R161). -/
def putEn (P : Params) (x : Source) (b : Bool) (m : Memory) : Memory :=
  { m with
    en := m.en.set x b
    rdy := if b = false ∧ P.readyClear = .immediate then m.rdy.set x false else m.rdy }

theorem writeCr_putEn (hL : P.layout.ok = true) (hm : MemoryInv P m) (hx : x ∈ P.layout.sources) (b : Bool) :
    m.writeCr P (putBit b (crWord P.layout m) (P.layout.enPos.get x)) = putEn P x b m := by
  cases b with
  | true => exact (writeCr_setEn hL hm.wf hm.ready hx).trans (by simp [putEn])
  | false => exact (writeCr_clearEn hL hm.wf hm.ready hx).trans (by simp [putEn])

/-- Only `x` can be disabled by it, if it is enabled and put to OFF. -/
theorem disablesSelected_putEn (hL : P.layout.ok = true) (hm : MemoryInv P m) (hx : x ∈ P.layout.sources)
    (h : disablesSelected P (putBit b (crWord P.layout m) (P.layout.enPos.get x)) m = true) :
    b = false ∧ m.en.get x = true ∧ (P.selDep.get m.sw = x ∨ P.selDep.get m.sws = x) := by
  obtain ⟨_, hc, _⟩ := (Memory.wf_iff P m).mp hm.wf
  obtain ⟨y, hy, he, hbit, hsel⟩ := disablesSelected_iff.mp h
  rw [getLsbD_putBit b _ (enPos_lt hL hy)] at hbit
  split at hbit
  case isTrue e =>
    obtain rfl := (enPos_inj hL hy hx).mp e
    exact ⟨hbit, he, hsel⟩
  case isFalse => exact absurd ((crWord_en hL hc hy).symm.trans hbit) (by simp [he])

theorem putEn_get_other {y : Source} (hne : y ≠ x) :
    (putEn P x b m).en.get y = m.en.get y ∧ (putEn P x b m).rdy.get y = m.rdy.get y := by
  refine ⟨PerSource.get_set_other _ _ hne, ?_⟩
  unfold putEn
  split
  · exact PerSource.get_set_other _ _ hne
  · rfl

end Put

/-! The first two primitives of SETBYP and SETCLK. -/

/-- The word that SETBYP or SETCLK writes to CR if no other agent acts between its read and its write. -/
def crPut (s : State) : Word := putBit s.seq.flag (crWord s.params.layout s.mem) (crBit s)

/-- The state after that write. -/
def crWritten (s : State) : State :=
  { s with
    mem := s.mem.writeCr s.params (crPut s)
    seq := { s.seq with t := crWord s.params.layout s.mem, upc := 2 }
    sched := s.sched.drop 2 }

theorem runSeq_cr_written (n : Nat) {s : State} (ho : s.seq.op = .setbyp ∨ s.seq.op = .setclk)
    (hb : s.seq.busy = true) (hu : s.seq.upc = 0) (hs : Undisturbed 2 s)
    (hd : ¬ (s.params.disableSelected = .refuse ∧ disablesSelected s.params (crPut s) s.mem = true)) :
    runSeq (n + 2) s = runSeq n (crWritten s) := by
  let r : State := { passTurn s with seq := { s.seq with t := crWord s.params.layout s.mem, upc := 1 } }
  have hread : seqStep (passTurn s) = .next r := by
    rw [seqStep_cr_read (s := passTurn s) ho hu, loadT, passTurn_seq, hu]
    rfl
  have hstore : seqStep (passTurn r) = .next (crWritten s) := by
    have hw : writeReg .cr (crPut s) (passTurn r) = _ := writeReg_cr_answered hd
    have hdrop : s.sched.drop 2 = s.sched.tail.tail := by simp only [← List.drop_one, List.drop_drop]
    rw [crWritten, hdrop]
    exact (seqStep_cr_store (s := passTurn r) ho rfl).trans (store_next hw)
  have hnext : Undisturbed 1 r := hs.tail rfl
  rw [runSeq_step (n := n + 1) hb hs.next hread (by simp [r, hu]),
    runSeq_step (s := r) hb hnext.next hstore (by simp [r, crWritten])]

/-- Settles O23: the write puts the bypass bit unless it is locked, and the read-back compares it. -/
theorem setBypassConfirmsItsBit : Obligations.SetBypassConfirmsItsBit := by
  intro k b s hk hi hidle hs
  have hL := hi.layout_ok
  let a : State := { s with seq := { s.seq with flag := b, busy := true, op := .setbyp, upc := 0 } }
  have hkept : ¬ (s.params.disableSelected = .refuse ∧ disablesSelected s.params (crPut a) s.mem = true) := fun h =>
    absurd ((disablesSelected_putByp hL hi.memoryInv b).symm.trans h.2) (by decide)
  have hwrite := runSeq_cr_written 5 (s := a) (.inl rfl) rfl rfl ((hs.mono (by decide)).congr rfl) hkept
  obtain ⟨q, hrun, hq⟩ := runSeq_setbyp_readBack 3 (s := crWritten a) rfl rfl rfl
    (Undisturbed.drop (m := 2) (s := s) hs rfl)
  have hmem : (crWritten a).mem = { s.mem with byp := if s.params.bypLock && s.mem.en.get .hse then s.mem.byp else b } :=
    writeCr_putByp hL hi.memoryInv b
  have hread : (readReg .cr (crWritten a)).getLsbD s.params.layout.bypPos = (crWritten a).mem.byp :=
    crWord_byp hL (masked_crAssigned (crPut a))
  have hexec : exec (.setbyp k) s = _ :=
    (execSetbyp_accepts (boolAt_of_value hk) hidle).trans (hwrite.trans hrun)
  refine ⟨(crWritten a).mem.byp, q, ?next, ?bit, ?result⟩
  case next =>
    have hdrop : s.sched.drop 4 = (s.sched.drop 2).tail.tail := by simp only [List.tail_drop]
    rw [hexec, hdrop, hmem]
    rfl
  case bit => rw [hmem]; simp only [Bool.and_eq_true]
  case result => rw [← bypassReport_eq, ← hread]; exact hq

/-! SETCLK (R121). -/

section SetClock
variable {x : Source} {s : State}

/-- SEQ as it has accepted SETCLK of `x` with status `b`. -/
def setclkAccepted (x : Source) (b : Bool) (s : State) : State :=
  { s with seq := { s.seq with src := x, flag := b, busy := true, op := .setclk, upc := 0 } }

theorem exec_setclk_accepted {k : Int} {b : Bool} (hi : MachineInv s) (hx : x ∈ s.params.layout.sources)
    (hb : boolAt k = some b) (hidle : s.seq.busy = false) :
    exec (.setclk (clockOperand s x) k) s = runSeq 7 (setclkAccepted x b s) :=
  execSetclk_accepts (sourceAt_enPos hi.layout_ok hx) hb hidle

/-- The state after its write, where that is not refused. -/
def setclkWritten (x : Source) (b : Bool) (s : State) : State :=
  { setclkAccepted x b s with
    mem := putEn s.params x b s.mem
    seq := { (setclkAccepted x b s).seq with t := crWord s.params.layout s.mem, upc := 2 }
    sched := s.sched.drop 2 }

theorem exec_setclk_written {k : Int} {b : Bool} (hi : MachineInv s) (hx : x ∈ s.params.layout.sources)
    (hb : boolAt k = some b) (hidle : s.seq.busy = false) (hs : Undisturbed 2 s)
    (hd : b = false → s.params.disableSelected = .allow ∨ s.mem.en.get x = false ∨
      (s.params.selDep.get s.mem.sw ≠ x ∧ s.params.selDep.get s.mem.sws ≠ x)) :
    exec (.setclk (clockOperand s x) k) s = runSeq 5 (setclkWritten x b s) := by
  have hkept : ¬ (s.params.disableSelected = .refuse ∧
      disablesSelected s.params (crPut (setclkAccepted x b s)) s.mem = true) := by
    rintro ⟨hp, hdis⟩
    obtain ⟨hoff, he, hsel⟩ := disablesSelected_putEn hi.layout_ok hi.memoryInv hx hdis
    rcases hd hoff with h | h | ⟨h, h'⟩
    · exact absurd (hp.symm.trans h) (by decide)
    · exact absurd (he.symm.trans h) (by decide)
    · exact hsel.elim h h'
  have hmem : (crWritten (setclkAccepted x b s)).mem = putEn s.params x b s.mem :=
    writeCr_putEn hi.layout_ok hi.memoryInv hx b
  rw [exec_setclk_accepted hi hx hb hidle,
    runSeq_cr_written 5 (s := setclkAccepted x b s) (.inr rfl) rfl rfl (hs.congr rfl) hkept, setclkWritten, ← hmem]
  rfl

theorem setclkWritten_wf (b : Bool) (hi : MachineInv s) : (setclkWritten x b s).wf := by
  obtain ⟨hen, _, hboth⟩ := Memory.wf_set hi.mem x b false
  refine ⟨hi.params, ?_⟩
  show (putEn s.params x b s.mem).wf s.params = true
  unfold putEn
  split
  · exact hboth
  · exact hen

/-- Put ON, a source keeps its ready bit, and SEQ is in the poll loop. -/
theorem setclkWritten_polling (x : Source) (s : State) : Polling x (setclkWritten x true s) := ⟨rfl, rfl, rfl, rfl, rfl⟩

theorem setclkWritten_on_mem (x : Source) (s : State) :
    (setclkWritten x true s).mem = { s.mem with en := s.mem.en.set x true } := by
  simp [setclkWritten, putEn]

end SetClock

/-- Settles O24: after the write, which is not refused, comes the return. -/
theorem setClockOffDisables : Obligations.SetClockOffDisables := by
  intro x s hi hx hidle hs hd
  have hreturn := runSeq_step (n := 4) (s := setclkWritten x false s) rfl
    (Undisturbed.drop (m := 2) (n := 1) (s := s) hs rfl).next
    (seqStep_setclk_return (s := passTurn (setclkWritten x false s)) rfl (.inr ⟨rfl, rfl⟩)) (Nat.zero_ne_add_one 1)
  obtain ⟨q, hrun, hq⟩ : ∃ q, runSeq 5 (setclkWritten x false s) =
      .next { setclkWritten x false s with seq := q, sched := (s.sched.drop 2).tail } ∧ Returned 1 q :=
    ⟨_, hreturn.trans (runSeq_idle 4 rfl), rfl, rfl, rfl, rfl⟩
  have hexec := (exec_setclk_written hi hx (b := false) (k := 0) rfl hidle (hs.mono (by decide)) fun _ => hd).trans hrun
  refine ⟨q, ?_, hq⟩
  rw [hexec, List.tail_drop]
  simp [setclkWritten, setclkAccepted, putEn]

/-- Settles O26: after the write SEQ polls, and its first read sees the ready bit. -/
theorem setClockOnOfReadySourceReturns : Obligations.SetClockOnOfReadySourceReturns := by
  intro x s hi hx hidle hs hr
  have hmem := setclkWritten_on_mem x s
  obtain ⟨q, hrun, hq⟩ := runSeq_polling_returns 3 (setclkWritten_wf true hi) hx (setclkWritten_polling x s)
    (by rw [hmem]; exact hr) (Undisturbed.drop (m := 2) (s := s) hs rfl)
  have hexec := (exec_setclk_written hi hx (b := true) (k := 1) rfl hidle (hs.mono (by decide)) nofun).trans hrun
  have hdrop : s.sched.drop 4 = (s.sched.drop 2).tail.tail := by simp only [List.tail_drop]
  refine ⟨q, ?_, hq⟩
  rw [hexec, hdrop, hmem]
  rfl

/-- Settles O27: after the write SEQ polls, and its first read does not see the ready bit. -/
theorem setClockOnOfUnreadySourcePolls : Obligations.SetClockOnOfUnreadySourcePolls := by
  intro x s hi hx hidle hs hr
  have hmem := setclkWritten_on_mem x s
  have hpoll := runSeq_polling_unready 4 (setclkWritten_wf true hi) hx (setclkWritten_polling x s)
    (by rw [hmem]; exact hr) (Undisturbed.drop (m := 2) (n := 1) (s := s) hs rfl).next
  have hexec := (exec_setclk_written hi hx (b := true) (k := 1) rfl hidle (hs.mono (by decide)) nofun).trans hpoll
  have hdrop : s.sched.drop 3 = (s.sched.drop 2).tail := List.tail_drop.symm
  refine ⟨_, hexec, ⟨rfl, rfl, rfl, rfl, rfl⟩, ?_, rfl, rfl⟩
  rw [hdrop, ← hmem]
  rfl

/-- Settles O32: the bit read is the ready bit, and the return reports it. -/
theorem getClockReportsTheReadyBit : Obligations.GetClockReportsTheReadyBit := by
  intro x s hw hx hidle hs
  have hL := ((paramsWf_iff _).mp hw.1).1
  let a : State := { s with seq := { s.seq with src := x, busy := true, op := .getclk, upc := 0 } }
  obtain ⟨q, hrun, hq⟩ := runSeq_read_return 5 (s := a) (r := .cr) rfl (hs.congr rfl)
    (seqStep_getclk_read rfl rfl) (seqStep_getclk_return rfl rfl)
  have hbit : (readReg .cr a).getLsbD (s.params.layout.rdyPos x) = s.mem.rdy.get x := crWord_rdy_of_wf hw hx
  have hdrop : s.sched.drop 2 = s.sched.tail.tail := by simp only [← List.drop_one, List.drop_drop]
  refine ⟨q, ?_, hbit ▸ hq⟩
  rw [hdrop]
  exact (execGetclk_accepts (sourceAt_enPos hL hx) hidle).trans hrun

end Sys2Proof.Machine

/-! The frames of the five operations of ClockSourceController, however far they run (R124, R141). -/

namespace Sys2Proof.Machine

/-! What SEQ's turns leave outside the register memory, the sequencer and the turns. -/

theorem Ran.frame {s t : State} (h : Ran s t) : t = { s with mem := t.mem, seq := t.seq, sched := t.sched } := by
  obtain ⟨hp, hl, hi, hprog, _⟩ := h
  rw [← hp, ← hl, ← hi, ← hprog]

theorem accept_frame {op : Op} {q : SeqState} {s t : State} (h : accept op { s with seq := q } = .next t) :
    t = { s with mem := t.mem, seq := t.seq, sched := t.sched } := (runSeq_ran _ h).frame

/-! The operations that only read: GETCLK and GETSYS (R122, R141). -/

/-- A state that SEQ reaches from `s` within GETCLK or GETSYS. -/
structure RanReading (s u : State) : Prop where
  op : u.seq.op = .getclk ∨ u.seq.op = .getsys
  mem : u.mem = s.mem

theorem nextStore_of_reading {s : State} (ho : s.seq.op = .getclk ∨ s.seq.op = .getsys) : nextStore s = none := by
  rcases ho with ho | ho <;> simp only [nextStore, ho]

theorem runSeq_reading_mem {n : Nat} {s t : State} (ho : s.seq.op = .getclk ∨ s.seq.op = .getsys)
    (h : runSeq n s = .next t) : t.mem = s.mem := by
  have hran : RanReading s t := runSeq_induct (P := RanReading s)
    (fun u v _ hu hs => ⟨by rw [seqStep_op hs]; exact hu.op,
      (seqStep_mem_of_no_store (nextStore_of_reading (s := passTurn u) hu.op) hs).trans hu.mem⟩) n h ⟨ho, rfl⟩
  exact hran.mem

theorem accept_reading_frame {op : Op} {q : SeqState} {s t : State} (ho : op = .getclk ∨ op = .getsys)
    (h : accept op { s with seq := q } = .next t) : t = { s with seq := t.seq, sched := t.sched } := by
  let a : State := { s with seq := { q with busy := true, op := op, upc := 0 } }
  have hmem : t.mem = s.mem := runSeq_reading_mem (s := a) ho h
  rw [← hmem]
  exact accept_frame h

/-! The operations that write CR: SETBYP and SETCLK (R120, R121). -/

/-- How far SETBYP or SETCLK accepted in `a` has come in `u`, no other agent having acted since: to its read, to its
write, or past it. -/
structure CrRan (a u : State) : Prop where
  op : u.seq.op = .setbyp ∨ u.seq.op = .setclk
  params : u.params = a.params
  flag : u.seq.flag = a.seq.flag
  bit : crBit u = crBit a
  mem : (u.mem = a.mem ∧ u.seq.upc = 0) ∨
    (u.mem = a.mem ∧ u.seq.upc = 1 ∧ u.seq.t = crWord a.params.layout a.mem) ∨
    (u.mem = a.mem.writeCr a.params (crPut a) ∧ (u.seq.busy = true → 2 ≤ u.seq.upc))

/-- A primitive keeps the bit that its operation writes and what it puts there. -/
theorem seqStep_cr_operands {s t : State} (h : seqStep s = .next t) : t.seq.flag = s.seq.flag ∧ crBit t = crBit s := by
  rcases seqStep_cases h with ⟨_, _, _, _, _, _, rfl⟩ | ⟨_, _, _, _, _, rfl⟩ | ⟨_, _, rfl⟩ <;> exact ⟨rfl, rfl⟩

theorem CrRan.next {a u v : State} (h : CrRan a u) (hb : u.seq.busy = true) (hs : seqStep (passTurn u) = .next v) :
    CrRan a v := by
  obtain ⟨ho, hp, hf, hk, hm⟩ := h
  obtain ⟨hf', hk'⟩ := seqStep_cr_operands hs
  refine ⟨by rwa [seqStep_op hs], (seqStep_params hs).trans hp, hf'.trans hf, hk'.trans hk, ?mem⟩
  rcases hm with ⟨hm, h0⟩ | ⟨hm, h1, ht⟩ | ⟨hm, h2⟩
  · rw [seqStep_cr_read (s := passTurn u) ho h0] at hs
    cases hs
    exact .inr (.inl ⟨hm, by simp [h0], by simp [readReg, hm, hp]⟩)
  · have hput : putBit u.seq.flag u.seq.t (crBit (passTurn u)) = crPut a := by rw [crPut, hf, ht, ← hk]; rfl
    rw [seqStep_cr_store (s := passTurn u) ho h1, passTurn_seq, hput] at hs
    obtain ⟨s', hw, hs⟩ := andThen_eq_next hs
    cases writeReg_cr_next hw
    cases hs
    exact .inr (.inr ⟨by simp [hm, hp], fun _ => by simp [h1]⟩)
  · have hge := h2 hb
    refine .inr (.inr ⟨?_, fun hb' => hge.trans (seqStep_upc_le (s := passTurn u) hs hb')⟩)
    rcases seqStep_mem_cases hs with hmem | ⟨r, d, hn, _⟩
    · exact hmem.trans hm
    · have h1 : u.seq.upc = 1 := nextStore_upc hn fun e => by simp [show u.seq.op = .setsys from e] at ho
      omega

theorem accept_cr_mem {op : Op} {s t : State} (ho : op = .setbyp ∨ op = .setclk) (h : accept op s = .next t) :
    t.mem = s.mem ∨ t.mem = s.mem.writeCr s.params
      (crPut { s with seq := { s.seq with busy := true, op := op, upc := 0 } }) := by
  let a : State := { s with seq := { s.seq with busy := true, op := op, upc := 0 } }
  have hran : CrRan a t := runSeq_induct (P := CrRan a) (fun u v hb hu hs => hu.next hb hs) _ h
    ⟨ho, rfl, rfl, rfl, .inl ⟨rfl, rfl⟩⟩
  rcases hran.mem with ⟨hm, _⟩ | ⟨hm, _⟩ | ⟨hm, _⟩
  · exact .inl hm
  · exact .inl hm
  · exact .inr hm

section Oscillator
variable {s t : State}

/-- SETBYP changes at most the bypass bit. -/
theorem execSetbyp_frame {k : Int} (hi : MachineInv s) (h : execSetbyp k s = .next t) :
    t = { s with mem := { s.mem with byp := t.mem.byp }, seq := t.seq, sched := t.sched } := by
  unfold execSetbyp at h
  split at h
  case h_2 => cases h
  case h_1 b _ =>
    obtain ⟨-, h⟩ := whenIdle_next h
    have hmem : t.mem = { s.mem with byp := t.mem.byp } := by
      rcases accept_cr_mem (.inl rfl) h with hm | hm
      · rw [hm]
      · rw [hm.trans (writeCr_putByp hi.layout_ok hi.memoryInv b)]
    rw [← hmem]
    exact accept_frame h

/-- SETCLK changes the register memory, if at all, as `putEn` says of its source. -/
theorem execSetclk_frame {k b : Int} (hi : MachineInv s) (h : execSetclk k b s = .next t) :
    ∃ x f, sourceAt s.params.layout k = some x ∧ (t.mem = s.mem ∨ t.mem = putEn s.params x f s.mem) ∧
      t = { s with mem := t.mem, seq := t.seq, sched := t.sched } := by
  unfold execSetclk at h
  split at h
  case h_2 => cases h
  case h_3 => cases h
  case h_1 x f hx _ =>
    obtain ⟨-, h⟩ := whenIdle_next h
    refine ⟨x, f, hx, ?_, accept_frame h⟩
    rw [← writeCr_putEn hi.layout_ok hi.memoryInv (sourceAt_some hx).1 f]
    exact accept_cr_mem (.inr rfl) h

/-- GETCLK changes nothing of the register memory. -/
theorem execGetclk_frame {k : Int} (h : execGetclk k s = .next t) : t = { s with seq := t.seq, sched := t.sched } := by
  unfold execGetclk at h
  split at h
  case h_2 => cases h
  case h_1 x _ =>
    obtain ⟨-, h⟩ := whenIdle_next h
    exact accept_reading_frame (.inl rfl) h

end Oscillator

/-- A change of the fields of CR alone changes no byte outside CR (R43). -/
theorem byteAt_of_cr_fields {s t : State} (hL : s.params.layout.ok = true) (hp : t.params = s.params)
    (henr : t.mem.enr = s.mem.enr) (hcfgr : cfgrWord s.params.layout t.mem = cfgrWord s.params.layout s.mem) {a : Word}
    (ha : ¬ InReg s.params.layout .cr a) : byteAt a t = byteAt a s := by
  refine byteAt_congr hL hp (fun r hne => ?_) ha
  cases r with
  | cr => exact absurd rfl hne
  | cfgr => rw [readReg, readReg, hp, hcfgr]
  | enr g => rw [readReg_enr, readReg_enr, hp, henr]

/-- Settles O33: each operation's memory is as it was or as its one write leaves it, and that write puts one bit. -/
theorem oscillatorOperationsKeepTheOtherFields : Obligations.OscillatorOperationsKeepTheOtherFields := by
  intro i s t hi h
  have hL := hi.layout_ok
  refine ⟨?setbyp, ?setclk, ?getclk, ?bytes⟩
  case setbyp =>
    rintro ⟨k, rfl⟩
    exact execSetbyp_frame hi h
  case setclk =>
    rintro x hx b rfl
    obtain ⟨y, f, hy, hmem, hframe⟩ := execSetclk_frame hi h
    cases (sourceAt_enPos hL hx).symm.trans hy
    rcases hmem with hm | hm <;> rw [hm] at hframe ⊢
    · exact ⟨hframe, fun _ _ => ⟨rfl, rfl⟩⟩
    · exact ⟨hframe, fun _ hne => putEn_get_other hne⟩
  case getclk =>
    rintro ⟨k, rfl⟩
    exact execGetclk_frame h
  case bytes =>
    rintro (⟨k, rfl⟩ | ⟨k, b, rfl⟩ | ⟨k, rfl⟩) a ha
    · have hf := execSetbyp_frame hi h
      exact byteAt_of_cr_fields hL (by rw [hf]) (by rw [hf]) (by rw [hf]; rfl) ha
    · obtain ⟨y, f, _, hmem, hf⟩ := execSetclk_frame hi h
      have hp : t.params = s.params := by rw [hf]
      rcases hmem with hm | hm
      · exact byteAt_of_cr_fields hL hp (by rw [hm]) (by rw [hm]) ha
      · exact byteAt_of_cr_fields hL hp (by rw [hm]; rfl) (by rw [hm]; rfl) ha
    · have hf := execGetclk_frame h
      exact byteAt_of_cr_fields hL (by rw [hf]) (by rw [hf]) (by rw [hf]) ha

/-! SETSYS (R140, R65). -/

section Fields
variable {L : Layout}

/-- Words that agree outside the selector field have the same unassigned bits (R22). -/
theorem cfgrOther_of_agree_off_sw {v w : Word} (h : ∀ i, i ≠ L.swPos → i ≠ L.swPos + 1 → v.getLsbD i = w.getLsbD i) :
    v &&& L.cfgrOtherMask = w &&& L.cfgrOtherMask := by
  apply word_ext
  intro i hi
  rw [BitVec.getLsbD_and, BitVec.getLsbD_and, cfgrOtherMask_bit hi]
  by_cases hp : i ∈ L.cfgrPositions
  · simp [hp]
  · simp only [Layout.cfgrPositions, List.mem_cons, not_or] at hp
    rw [h i hp.1 hp.2.1]

theorem clearField_other (t : Word) : clearField t L.swPos &&& L.cfgrOtherMask = t &&& L.cfgrOtherMask :=
  cfgrOther_of_agree_off_sw fun i h0 h1 => by simp [getLsbD_clearField, h0, h1, -BitVec.getLsbD_eq_getElem]

theorem orField_other (t : Word) (v : BitVec 2) : orField t v L.swPos &&& L.cfgrOtherMask = t &&& L.cfgrOtherMask :=
  cfgrOther_of_agree_off_sw fun i h0 h1 => by rw [getLsbD_orField, getLsbD_placeField_outside v h0 h1, Bool.or_false]

end Fields

/-- What a primitive of SETSYS does: it reads CFGR into `t`, or keeps `t` and writes no register, or writes CFGR with
the unassigned bits of `t`. -/
theorem seqStep_setsys_cases {s t : State} (ho : s.seq.op = .setsys) (h : seqStep s = .next t) :
    (t.mem = s.mem ∧ t.seq.t = readReg .cfgr s) ∨
    (t.mem = s.mem ∧ t.seq.t = s.seq.t ∧ (2 ≤ t.seq.upc → 2 ≤ s.seq.upc)) ∨
    (∃ d, t.mem = s.mem.writeCfgr s.params d ∧ t.seq.t = s.seq.t ∧ 2 ≤ s.seq.upc ∧
      d &&& s.params.layout.cfgrOtherMask = s.seq.t &&& s.params.layout.cfgrOtherMask) := by
  simp only [seqStep, ho, stepSetsys] at h
  split at h
  case h_1 hu => cases h; exact .inr (.inl ⟨rfl, rfl, fun h2 => by simp [hu] at h2⟩)
  case h_2 hu =>
    split at h
    · cases h; exact .inl ⟨rfl, rfl⟩
    · cases h; exact .inr (.inl ⟨rfl, rfl, fun h2 => by simp at h2⟩)
  case h_3 hu => cases h; exact .inr (.inr ⟨_, rfl, rfl, hu.ge, clearField_other _⟩)
  case h_4 => cases h; exact .inl ⟨rfl, rfl⟩
  case h_5 hu => cases h; exact .inr (.inr ⟨_, rfl, rfl, by omega, orField_other _ _⟩)
  case h_6 hu => cases h; exact .inr (.inl ⟨rfl, rfl, fun _ => by omega⟩)
  case h_7 => cases h; exact .inr (.inl ⟨rfl, rfl, fun h2 => by simp at h2⟩)

/-- A state `u` that SEQ reaches from `a` within SETSYS: only the two fields of CFGR differ, and a word in `t` that is
to be written back holds the unassigned bits. -/
structure SelectorRan (a u : State) : Prop where
  op : u.seq.op = .setsys
  params : u.params = a.params
  mem : u.mem = { a.mem with sw := u.mem.sw, sws := u.mem.sws }
  latch : 2 ≤ u.seq.upc → u.seq.t &&& a.params.layout.cfgrOtherMask = a.mem.cfgrOther

theorem SelectorRan.next {a u v : State} (hw : a.mem.wf a.params = true) (h : SelectorRan a u)
    (hs : seqStep (passTurn u) = .next v) : SelectorRan a v := by
  obtain ⟨ho, hp, hm, ht⟩ := h
  obtain ⟨_, _, hother, _⟩ := (Memory.wf_iff _ _).mp hw
  have hu : u.mem.cfgrOther = a.mem.cfgrOther := by rw [hm]
  refine ⟨(seqStep_op hs).trans ho, (seqStep_params hs).trans hp, ?mem, ?latch⟩ <;>
    rcases seqStep_setsys_cases (s := passTurn u) ho hs with ⟨hmem, hl⟩ | ⟨hmem, hl, hupc⟩ | ⟨d, hmem, hl, hupc, hd⟩
  case mem.inl => rw [hmem]; exact hm
  case mem.inr.inl => rw [hmem]; exact hm
  case mem.inr.inr =>
    have hframe : v.mem = { u.mem with sw := v.mem.sw, sws := v.mem.sws, cfgrOther := v.mem.cfgrOther } := by
      rw [hmem]; exact writeCfgr_frame _ _ _
    have hv : v.mem.cfgrOther = a.mem.cfgrOther := by
      rw [hmem, writeCfgr_cfgrOther, hd, passTurn_params, hp]
      exact ht hupc
    rw [hframe, hv, hm]
  case latch.inl =>
    intro _
    rw [hl, readReg, passTurn_params, passTurn_mem, hp, cfgrWord_other (hu ▸ hother), hu]
  case latch.inr.inl => exact fun h2 => hl ▸ ht (hupc h2)
  case latch.inr.inr => exact fun _ => hl ▸ ht hupc

/-- SETSYS changes at most the selector and the status field. -/
theorem execSetsys_frame {v : Int} {s t : State} (hw : s.mem.wf s.params = true) (h : execSetsys v s = .next t) :
    t = { s with mem := { s.mem with sw := t.mem.sw, sws := t.mem.sws }, seq := t.seq, sched := t.sched } := by
  unfold execSetsys at h
  obtain ⟨-, h⟩ := whenIdle_next h
  split at h
  case isTrue =>
    let a : State := { s with seq := { s.seq with target := selectorBits v, busy := true, op := .setsys, upc := 0 } }
    have hran : SelectorRan a t := runSeq_induct (P := SelectorRan a) (fun _ _ _ hu hs => hu.next hw hs) _ h
      ⟨rfl, rfl, rfl, fun h2 => absurd h2 (Nat.not_succ_le_zero 1)⟩
    have hmem : t.mem = { s.mem with sw := t.mem.sw, sws := t.mem.sws } := hran.mem
    rw [← hmem]
    exact accept_frame h
  case isFalse => cases h; rfl

/-- GETSYS changes nothing of the register memory. -/
theorem execGetsys_frame {s t : State} (h : execGetsys s = .next t) : t = { s with seq := t.seq, sched := t.sched } := by
  obtain ⟨-, h⟩ := whenIdle_next h
  exact accept_reading_frame (q := s.seq) (.inr rfl) h

/-- Settles O42: SETSYS writes back what it has read but for the selector field, and GETSYS writes nothing. -/
theorem selectionKeepsTheOtherFields : Obligations.SelectionKeepsTheOtherFields := by
  intro i s t ⟨hp, hw⟩ h
  refine ⟨?setsys, ?getsys⟩
  case setsys =>
    rintro ⟨v, rfl⟩
    have hf := execSetsys_frame hw h
    refine ⟨hf, fun a ha => byteAt_congr ((paramsWf_iff _).mp hp).1 (by rw [hf]) (fun r hne => ?_) ha⟩
    cases r with
    | cfgr => exact absurd rfl hne
    | cr | enr => rw [hf]; rfl
  case getsys =>
    rintro rfl
    have hf := execGetsys_frame h
    exact ⟨hf, byteAt_congr_all (by rw [hf]) fun r => by rw [hf]; cases r <;> rfl⟩

end Sys2Proof.Machine


/-! The selection operations SETSYS and GETSYS (R140 to R146): their encoding, acceptance and primitives one by one. -/

namespace Sys2Proof.Machine

/-! Acceptance (R140, R141). -/

theorem exec_setsys_accepts (v : BitVec 2) {s : State} (hidle : s.seq.busy = false) :
    exec (.setsys v.toNat) s = accept .setsys { s with seq := { s.seq with target := v } } := by
  have hexec : exec (.setsys v.toNat) s = execSetsys v.toNat s := rfl
  rw [hexec, execSetsys, whenIdle_idle hidle, if_pos (selectorOk_toNat v), selectorBits_toNat]

theorem exec_getsys_accepts {s : State} (hidle : s.seq.busy = false) : exec .getsys s = accept .getsys s :=
  whenIdle_idle hidle

/-! The primitives of SETSYS, and the read of the selector with its return, which GETSYS has too. -/

section Primitives
variable {s : State}

theorem seqStep_setsys_readCr (ho : s.seq.op = .setsys) (hu : s.seq.upc = 0) : seqStep s = loadU .cr s := by
  simp only [seqStep, ho, stepSetsys, hu]

/-- Validation fails: the ready bit of the source the target depends on is clear in the word read. -/
theorem seqStep_setsys_refuse (ho : s.seq.op = .setsys) (hu : s.seq.upc = 1)
    (hr : s.seq.u.getLsbD (s.params.layout.rdyPos (selDep s.params s.seq.target)) = false) :
    seqStep s = finish refusedSelection s := by
  simp only [seqStep, ho, stepSetsys, hu, hr, Bool.false_eq_true, if_false]

/-- Validation succeeds, and CFGR is read for the first write. -/
theorem seqStep_setsys_validate (ho : s.seq.op = .setsys) (hu : s.seq.upc = 1)
    (hr : s.seq.u.getLsbD (s.params.layout.rdyPos (selDep s.params s.seq.target)) = true) :
    seqStep s = loadT .cfgr s := by
  simp only [seqStep, ho, stepSetsys, hu, hr, if_true]

theorem seqStep_setsys_clear (ho : s.seq.op = .setsys) (hu : s.seq.upc = 2) :
    seqStep s = store .cfgr (clearField s.seq.t s.params.layout.swPos) s := by
  simp only [seqStep, ho, stepSetsys, hu]

theorem seqStep_setsys_reread (ho : s.seq.op = .setsys) (hu : s.seq.upc = 3) : seqStep s = loadT .cfgr s := by
  simp only [seqStep, ho, stepSetsys, hu]

theorem seqStep_setsys_put (ho : s.seq.op = .setsys) (hu : s.seq.upc = 4) :
    seqStep s = store .cfgr (orField s.seq.t s.seq.target s.params.layout.swPos) s := by
  simp only [seqStep, ho, stepSetsys, hu]

theorem seqStep_selector_read (h : (s.seq.op = .setsys ∧ s.seq.upc = 5) ∨ (s.seq.op = .getsys ∧ s.seq.upc = 0)) :
    seqStep s = loadU .cfgr s := by
  rcases h with ⟨ho, hu⟩ | ⟨ho, hu⟩ <;> simp only [seqStep, ho, stepSetsys, stepGetsys, hu]

theorem seqStep_selector_return (h : (s.seq.op = .setsys ∧ s.seq.upc = 6) ∨ (s.seq.op = .getsys ∧ s.seq.upc = 1)) :
    seqStep s = finish (selectorResult (field2 s.seq.u s.params.layout.swPos)) s := by
  rcases h with ⟨ho, hu⟩ | ⟨ho, hu⟩ <;> simp only [seqStep, ho, stepSetsys, stepGetsys, hu]

end Primitives

/-! One primitive between two turns of other agents, by its kind. -/

section AtPrimitive
variable {o : Op} {k : Nat} {x : Turn} {rest : List Turn} {s : State}

theorem step_at_loadT {r : Reg} (ha : AtPrimitive o k x rest s)
    (h : seqStep { s with sched := x :: rest } = loadT r { s with sched := x :: rest }) :
    step s = .next { s with seq := { s.seq with t := readReg r s, upc := k + 1 }, sched := x :: rest } := by
  have ⟨_, _, hu, _, _⟩ := ha
  rw [← hu]
  exact step_atPrimitive ha h rfl

theorem step_at_loadU {r : Reg} (ha : AtPrimitive o k x rest s)
    (h : seqStep { s with sched := x :: rest } = loadU r { s with sched := x :: rest }) :
    step s = .next { s with seq := { s.seq with u := readReg r s, upc := k + 1 }, sched := x :: rest } := by
  have ⟨_, _, hu, _, _⟩ := ha
  rw [← hu]
  exact step_atPrimitive ha h rfl

/-- A write of CFGR inside an operation does what the transaction WR.CFGR does. -/
theorem step_at_cfgr_store {d : Word} (ha : AtPrimitive o k x rest s)
    (h : seqStep { s with sched := x :: rest } = store .cfgr d { s with sched := x :: rest }) :
    ∃ m, exec (.wrCfgr d) s = .next m ∧
      step s = .next { m with seq := { s.seq with upc := k + 1 }, sched := x :: rest } := by
  have ⟨_, _, hu, _, _⟩ := ha
  rw [← hu]
  exact ⟨_, rfl, step_atPrimitive ha h rfl⟩

theorem step_at_return {v : Word} (ha : AtPrimitive o k x rest s)
    (h : seqStep { s with sched := x :: rest } = finish v { s with sched := x :: rest }) :
    ∃ q, step s = .next { s with seq := q, sched := x :: rest } ∧ Returned v q :=
  ⟨_, step_atPrimitive ha h rfl, rfl, rfl, rfl, rfl⟩

end AtPrimitive

/-- Settles O35: the words field by field, the operand latched, and the primitives by operation and index. -/
theorem selectionOperationsFollowTheirPseudocode : Obligations.SelectionOperationsFollowTheirPseudocode := by
  refine ⟨fun L => ⟨fun v => congrArg Packet.cmd ?word, rfl⟩,
    fun v s x rest hidle hs hx => ⟨?setsys, ?getsys⟩,
    fun s x rest => ⟨fun ha => ?readCr, fun ha => ⟨fun hr => ?refuse, fun hr => ?validate⟩, fun ha => ?clear,
      fun ha => ?reread, fun ha => ?put, fun ha => ?readBack, fun ha => ?answer, fun ha => ?read, fun ha => ?report⟩⟩
  case word =>
    have hv : BitVec.ofInt 32 (v.toNat : Int) = v.setWidth 32 := by rw [BitVec.ofInt_natCast, BitVec.ofNat_toNat]
    rw [← hv]
    exact commandWord_eq_add rfl (by omega) (by omega)
  case setsys => exact ⟨_, (exec_setsys_accepts v hidle).trans (accept_other hs hx), rfl, rfl, rfl, rfl, rfl⟩
  case getsys => exact ⟨_, (exec_getsys_accepts hidle).trans (accept_other hs hx), rfl, rfl, rfl, rfl⟩
  all_goals have ⟨_, ho, hu, _, _⟩ := ha
  case readCr => exact step_at_loadU ha (seqStep_setsys_readCr ho hu)
  case refuse => exact step_at_return ha (seqStep_setsys_refuse ho hu hr)
  case validate => exact step_at_loadT ha (seqStep_setsys_validate ho hu hr)
  case clear => exact step_at_cfgr_store ha (seqStep_setsys_clear ho hu)
  case reread => exact step_at_loadT ha (seqStep_setsys_reread ho hu)
  case put => exact step_at_cfgr_store ha (seqStep_setsys_put ho hu)
  case readBack => exact step_at_loadU ha (seqStep_selector_read (.inl ⟨ho, hu⟩))
  case answer => exact step_at_return ha (seqStep_selector_return (.inl ⟨ho, hu⟩))
  case read => exact step_at_loadU ha (seqStep_selector_read (.inr ⟨ho, hu⟩))
  case report => exact step_at_return ha (seqStep_selector_return (.inr ⟨ho, hu⟩))

end Sys2Proof.Machine

/-! The selection operations without interference (R140, R141, R143 to R146). -/

namespace Sys2Proof.Machine

theorem tail_tail_eq_drop {α : Type} (l : List α) : l.tail.tail = l.drop 2 := by
  rw [← List.drop_one, ← List.drop_one, List.drop_drop]

/-! What the status field does while the selector passes through 0 to its new value (R93, R163). -/

section Following
variable {P : Params} {m : Memory} {v : BitVec 2}

theorem follow_eq (P : Params) (m : Memory) :
    m.follow P = { m with sws := if m.rdy.get (P.selDep.get m.sw) then m.sw else m.sws } := by
  rcases follow_cases P m with ⟨hg, h⟩ | ⟨hg, h⟩ <;> rw [h]
  · rw [if_pos ((muxEnabled_iff P m).mp hg).2]
  · have hkeep : (if m.rdy.get (P.selDep.get m.sw) then m.sw else m.sws) = m.sws := by
      refine ite_eq_right_iff.mpr fun hr => ?_
      by_contra hne
      exact absurd (hg.symm.trans ((muxEnabled_iff P m).mpr ⟨Ne.symm hne, hr⟩)) (by decide)
    rw [hkeep]

theorem followNow_of_agent (h : P.swsFollow = .agent) (m : Memory) : m.followNow P = m := by
  simp only [Memory.followNow, h]

theorem followNow_of_immediate (h : P.swsFollow = .immediate) (m : Memory) : m.followNow P = m.follow P := by
  simp only [Memory.followNow, h]

/-- The register memory after the two writes of SETSYS, if the source of `v` is ready. -/
def Memory.selected (P : Params) (v : BitVec 2) (m : Memory) : Memory :=
  { m with sw := v, sws := if P.swsFollow = .immediate then v else m.sws }

/-- The canonical form says nothing of the selector and the status field. -/
theorem Memory.selected_wf (v : BitVec 2) (hm : m.wf P = true) : (m.selected P v).wf P = true := hm

/-- Whether or not the status field follows the selector to 0 on the way, it ends where `v` leaves it. -/
theorem followNow_through_zero (hr : m.rdy.get (P.selDep.get v) = true) :
    Memory.followNow P { Memory.followNow P { m with sw := 0 } with sw := v } = m.selected P v := by
  cases hf : P.swsFollow
  case agent => simp only [followNow_of_agent hf, Memory.selected, hf, reduceCtorEq, if_false]
  case immediate => simp only [followNow_of_immediate hf, follow_eq, Memory.selected, hf, hr, if_true]

end Following

section Undisturbed
variable {v : BitVec 2} {s : State}

/-- The bit that SETSYS tests is the ready bit of the source its target depends on. -/
theorem readReg_cr_selDep (hw : s.wf) (v : BitVec 2) :
    (readReg .cr s).getLsbD (s.params.layout.rdyPos (selDep s.params v)) = s.mem.rdy.get (s.params.selDep.get v) :=
  crWord_rdy_of_wf hw (selDep_mem hw.1 v)

theorem readReg_cfgr_sw (hw : s.wf) : field2 (readReg .cfgr s) s.params.layout.swPos = s.mem.sw := by
  obtain ⟨hp, hm⟩ := hw
  obtain ⟨_, _, hother, _⟩ := (Memory.wf_iff _ _).mp hm
  exact cfgrWord_sw ((paramsWf_iff _).mp hp).1 hother

/-- The last two primitives of SETSYS, and all of GETSYS: the selector is read and returned. -/
theorem runSeq_selector (n : Nat) (hw : s.wf) (hb : s.seq.busy = true)
    (h : (s.seq.op = .setsys ∧ s.seq.upc = 5) ∨ (s.seq.op = .getsys ∧ s.seq.upc = 0)) (hs : Undisturbed 2 s) :
    ∃ q, runSeq (n + 2) s = .next { s with seq := q, sched := s.sched.drop 2 } ∧ Returned (s.mem.sw.setWidth 32) q := by
  rw [← readReg_cfgr_sw hw, ← tail_tail_eq_drop]
  exact runSeq_read_return n hb hs (seqStep_selector_read h) (seqStep_selector_return (by simpa using h))

/-- SEQ as it has accepted SETSYS of `v`. -/
def setsysAccepted (v : BitVec 2) (s : State) : State :=
  { s with seq := { s.seq with target := v, busy := true, op := .setsys, upc := 0 } }

/-- SETSYS between its two writes: the selector is 0. -/
def setsysCleared (v : BitVec 2) (s : State) : State :=
  { s with
    mem := Memory.followNow s.params { s.mem with sw := 0 }
    seq := { (setsysAccepted v s).seq with u := readReg .cr s, t := readReg .cfgr s, upc := 3 }
    sched := s.sched.drop 3 }

theorem runSeq_setsys_cleared (n : Nat) (hw : s.wf) (hr : s.mem.rdy.get (s.params.selDep.get v) = true)
    (hs : Undisturbed 3 s) : runSeq (n + 3) (setsysAccepted v s) = runSeq n (setsysCleared v s) := by
  obtain ⟨_, _, hother, _⟩ := (Memory.wf_iff _ _).mp hw.2
  have hdrop : s.sched.drop 3 = s.sched.tail.tail.tail := by rw [tail_tail_eq_drop, List.drop_tail]
  refine runSeq_undisturbed rfl (hs.congr rfl) (seqStep_setsys_readCr rfl rfl) (Nat.succ_ne_self _) rfl fun h => ?_
  refine runSeq_undisturbed rfl h (seqStep_setsys_validate rfl rfl ((readReg_cr_selDep hw v).trans hr))
    (Nat.succ_ne_self _) rfl fun h => ?_
  refine runSeq_undisturbed (m := 0) rfl h (seqStep_setsys_clear rfl rfl) (Nat.succ_ne_self _) rfl fun _ => ?_
  rw [setsysCleared, ← writeCfgr_cleared hother, hdrop]
  rfl

/-- SETSYS after its second write. -/
def setsysPut (v : BitVec 2) (s : State) : State :=
  { s with
    mem := s.mem.selected s.params v
    seq := { (setsysCleared v s).seq with t := readReg .cfgr (setsysCleared v s), upc := 5 }
    sched := s.sched.drop 5 }

theorem runSeq_setsys_put (n : Nat) (hw : s.wf) (hr : s.mem.rdy.get (s.params.selDep.get v) = true)
    (hs : Undisturbed 5 s) : runSeq (n + 2) (setsysCleared v s) = runSeq n (setsysPut v s) := by
  obtain ⟨hp, hm⟩ := hw
  obtain ⟨_, _, hother, _⟩ := (Memory.wf_iff _ _).mp hm
  have hput : (setsysCleared v s).mem.writeCfgr s.params
      (orField (readReg .cfgr (setsysCleared v s)) v s.params.layout.swPos) = s.mem.selected s.params v := by
    rw [← followNow_through_zero hr]
    exact writeCfgr_put ((paramsWf_iff _).mp hp).1 ((followNow_cfgrOther _ _).symm ▸ hother) (followNow_sw _ _) v
  have hdrop : s.sched.drop 5 = (s.sched.drop 3).tail.tail := by rw [tail_tail_eq_drop, List.drop_drop]
  refine runSeq_undisturbed rfl (hs.drop (m := 3) (n := 2) rfl) (seqStep_setsys_reread rfl rfl) (Nat.succ_ne_self _) rfl
    fun h => ?_
  refine runSeq_undisturbed (m := 0) rfl h (seqStep_setsys_put rfl rfl) (Nat.succ_ne_self _) rfl fun _ => ?_
  rw [setsysPut, ← hput, hdrop]
  rfl

end Undisturbed

/-- Settles O36: the ready bit is found clear, and the sentinel is returned before CFGR is touched. -/
theorem selectionOfUnreadySourceFails : Obligations.SelectionOfUnreadySourceFails := by
  intro v s hw hidle hs hr
  obtain ⟨q, hrun, hq⟩ := runSeq_read_return 5 (s := setsysAccepted v s) (r := .cr) rfl (hs.congr rfl)
    (seqStep_setsys_readCr rfl rfl) (seqStep_setsys_refuse rfl rfl ((readReg_cr_selDep hw v).trans hr))
  obtain ⟨_, _, hres, _⟩ := id hq
  rw [tail_tail_eq_drop] at hrun
  exact ⟨q, (exec_setsys_accepts v hidle).trans hrun, hq, hres ▸ rfl⟩

/-- Settles O37: the two writes leave the selector `v`, which the read-back finds. -/
theorem selectionOfReadySourceSucceeds : Obligations.SelectionOfReadySourceSucceeds := by
  intro v s hw hidle hs hr
  have hcleared := runSeq_setsys_cleared 4 hw hr (hs.mono (by decide))
  have hput := runSeq_setsys_put 2 hw hr (hs.mono (by decide))
  obtain ⟨q, hrun, hq⟩ := runSeq_selector 0 (s := setsysPut v s) ⟨hw.1, Memory.selected_wf v hw.2⟩ rfl (.inl ⟨rfl, rfl⟩)
    (hs.drop (m := 5) rfl)
  have hdrop : (setsysPut v s).sched.drop 2 = s.sched.drop 7 := List.drop_drop
  rw [hdrop] at hrun
  exact ⟨q, (exec_setsys_accepts v hidle).trans (hcleared.trans (hput.trans hrun)), hq⟩

/-- Settles O38: the run stops at MUX's turn between the two writes. -/
theorem selectorPassesThroughZero : Obligations.SelectorPassesThroughZero := by
  intro v s rest hw hidle hr hf hs
  have hrun := (runSeq_setsys_cleared 4 hw hr (by simp [Undisturbed, hs])).trans
    (runSeq_other 4 (s := setsysCleared v s) (by simp [setsysCleared, seqIsNext, hs]))
  have hmem : (setsysCleared v s).mem = { s.mem with sw := 0 } := followNow_of_agent hf _
  have hsched : (setsysCleared v s).sched = .mux :: rest := by simp [setsysCleared, hs]
  have hstep : step (setsysCleared v s) = .next (hardwareStep .mux (passTurn (setsysCleared v s))) := by
    rw [step, takeTurn, hsched]
  refine ⟨_, _, (exec_setsys_accepts v hidle).trans hrun, hstep, ?frame, rfl, rfl, rfl, rfl, ?selector, ?mux⟩
  case frame => rw [← hmem, ← hsched]; rfl
  case selector =>
    have hm : (setsysCleared v s).mem.wf s.params = true := by rw [hmem]; exact hw.2
    exact (readReg_cfgr_sw (s := setsysCleared v s) ⟨hw.1, hm⟩).trans (by rw [hmem])
  case mux =>
    have hfollow : (setsysCleared v s).mem.follow s.params = { (setsysCleared v s).mem with
        sws := if s.mem.rdy.get (s.params.selDep.get 0) then 0 else s.mem.sws } := by rw [follow_eq, hmem]
    have hrest : (setsysCleared v s).sched.tail = rest := by rw [hsched, List.tail_cons]
    rw [← hfollow, ← hrest]
    rfl

/-- Settles O39: the word read back is CFGR as it then is, and a 2-bit field is no sentinel. -/
theorem selectionResultIsReadBack : Obligations.SelectionResultIsReadBack := by
  intro s rest hw hb ho hu hs
  obtain ⟨q, hrun, hq⟩ := runSeq_selector 5 hw hb (.inl ⟨ho, hu⟩) (by simp [Undisturbed, hs])
  have hstep : step s = runSeq 7 s := (step_of_seq hs).trans (seqTurn_of_busy hb)
  have hdrop : s.sched.drop 2 = rest := by rw [hs]; rfl
  obtain ⟨_, _, hres, _⟩ := id hq
  have hle : q.res.toNat ≤ 3 := by
    rw [hres, BitVec.toNat_setWidth]
    omega
  rw [hdrop] at hrun
  refine ⟨q, hstep.trans hrun, hq, hle, fun hsent => ?_⟩
  rw [hsent] at hle
  exact absurd hle (by decide)

/-- Settles O40: both primitives, the read of CFGR and the return. -/
theorem getSystemClockReportsTheSelector : Obligations.GetSystemClockReportsTheSelector := by
  intro s hw hidle hs
  obtain ⟨q, hrun, hq⟩ := runSeq_selector 5
    (s := { s with seq := { s.seq with busy := true, op := .getsys, upc := 0 } }) hw rfl (.inr ⟨rfl, rfl⟩) (hs.congr rfl)
  exact ⟨q, (exec_getsys_accepts hidle).trans hrun, hq⟩

/-- Settles O41: from O36, and from O37 with O40 in the state it leaves. -/
theorem selectionRoundTrip : Obligations.SelectionRoundTrip := by
  intro v s hw hidle hs
  refine ⟨fun hr => ?unready, fun hr => ?ready⟩
  case unready =>
    obtain ⟨q, hexec, hq, _⟩ := selectionOfUnreadySourceFails v s hw hidle (hs.mono (by decide)) hr
    exact ⟨_, hexec, hq, rfl⟩
  case ready =>
    obtain ⟨q, hset, hq⟩ := selectionOfReadySourceSucceeds v s hw hidle (hs.mono (by decide)) hr
    obtain ⟨q', hget, hq'⟩ := getSystemClockReportsTheSelector
      { s with mem := s.mem.selected s.params v, seq := q, sched := s.sched.drop 7 }
      ⟨hw.1, Memory.selected_wf v hw.2⟩ hq.1 (hs.drop (m := 7) rfl)
    exact ⟨_, _, hset, hget, rfl, rfl, hq'⟩

end Sys2Proof.Machine

/-! The hardware agents' turns (R160 to R163), what they leave alone (R166), and the turns of the EXT contexts (R165,
R191). -/

namespace Sys2Proof.Machine

/-! A listed turn of a hardware agent. -/

theorem step_of_hardware {s : State} {rest : List Turn} (a : Hardware) (hs : s.sched = a.turn :: rest) :
    step s = .next { s with mem := a.act s.params s.mem, sched := rest } := by
  cases a <;>
  · unfold step takeTurn passTurn
    rw [hs]
    rfl

section Oscillator
variable {P : Params} {m : Memory} {x : Source}

/-- OSC[x]'s step when its source stabilises (R160). -/
theorem osc_of_stabilizes (he : m.en.get x = true) (hr : m.rdy.get x = false) (hst : P.stabilizes.get x = true) :
    m.osc P x = Memory.followNow P { m with rdy := m.rdy.set x true } :=
  if_pos ((stabilizeEnabled_iff P x m).mpr ⟨he, hr, hst⟩)

/-- OSC[x]'s step when its source decays (R162). -/
theorem osc_of_decays (hc : P.readyClear = .eventual) (he : m.en.get x = false) (hr : m.rdy.get x = true) :
    m.osc P x = { m with rdy := m.rdy.set x false } := by
  have hs : ¬ stabilizeEnabled P x m = true := by simp [stabilizeEnabled_iff, he]
  exact (if_neg hs).trans (if_pos ((decayEnabled_iff P x m).mpr ⟨hc, he, hr⟩))

/-- Without an enabled step OSC[x] leaves the register memory as it is (log 4). -/
theorem osc_of_disabled (h : oscEnabled P x m = false) : m.osc P x = m := by
  obtain ⟨hs, hd⟩ := Bool.or_eq_false_iff.mp h
  rw [Memory.osc, hs, hd]
  rfl

end Oscillator

/-- Settles O43: OSC[x]'s step is `osc_of_stabilizes`, and what follows depends on SWS_FOLLOW; a source that does not
stabilise leaves OSC[x] nothing to do. -/
theorem stabilizeSetsTheReadyBit : Obligations.StabilizeSetsTheReadyBit := by
  intro x s rest hs he hr
  rw [step_of_hardware (.osc x) hs, Hardware.act]
  refine ⟨fun hst hf => ?agent, fun hst hf => ?immediate, fun hst => ?unstable⟩
  case agent => rw [osc_of_stabilizes he hr hst, followNow_of_agent hf]
  case immediate => rw [osc_of_stabilizes he hr hst, followNow_of_immediate hf, follow_eq]
  case unstable => rw [osc_of_disabled (by simp [oscEnabled, stabilizeEnabled, decayEnabled, he, hst])]

/-- Settles O44: Decay's guard asks for eventual clearing, and a disabled source does not stabilise. -/
theorem decayClearsTheReadyBit : Obligations.DecayClearsTheReadyBit := by
  intro x s rest hs he hr
  rw [step_of_hardware (.osc x) hs, Hardware.act]
  refine ⟨fun hc => ?eventual, fun hc => ?immediate⟩
  case eventual => rw [osc_of_decays hc he hr]
  case immediate => rw [osc_of_disabled (by simp [oscEnabled, stabilizeEnabled, decayEnabled, he, hc])]

/-- Settles O45: MUX's step is `follow_eq`. -/
theorem followCopiesTheSelector : Obligations.FollowCopiesTheSelector := by
  intro s rest hs
  rw [step_of_hardware .mux hs, Hardware.act, follow_eq]

/-! What changes the register memory, and in which fields (R166). -/

theorem followNow_frame (P : Params) (m : Memory) : m.followNow P = { m with sws := (m.followNow P).sws } := by
  rcases followNow_cases P m with h | ⟨_, _, h⟩ <;> rw [h]

/-- A hardware agent changes nothing of the register memory but ready bits and the status field. -/
theorem hardware_act_frame (P : Params) (m : Memory) (a : Hardware) :
    a.act P m = { m with rdy := (a.act P m).rdy, sws := (a.act P m).sws } := by
  rcases hardware_act_cases P m a with h | ⟨x, _, _, h⟩ | ⟨_, _, _, h⟩ | ⟨_, _, h⟩ <;> rw [h]
  rw [followNow_rdy]
  exact followNow_frame P { m with rdy := m.rdy.set x true }

/-- A store of SEQ leaves the register memory as its bus write does. -/
theorem store_mem {r : Reg} {d : Word} {s t : State} (h : store r d s = .next t) :
    ∃ m, exec (writeOf d r) s = .next m ∧ t.mem = m.mem := by
  obtain ⟨m, hw, ht⟩ := andThen_eq_next h
  cases ht
  exact ⟨m, (exec_writeOf d r s).trans hw, rfl⟩

theorem exec_readOf_mem {r : Reg} {s t : State} (h : exec (readOf r) s = .next t) : t.mem = s.mem := by
  rw [exec_readOf] at h
  cases h
  rfl

theorem present_bus_read_mem {desc : BitVec 16} {d : Word} {s t : State} (hd : desc.getLsbD 15 = false)
    (h : present (.bus desc d) s = .next t) : t.mem = s.mem := by
  rcases present_bus_next h with ⟨_, _, rfl⟩ | ⟨hw, _⟩
  · rfl
  · exact absurd (hd.symm.trans hw) (by decide)

theorem busAccess_read_mem {a : Access} {s t : State} (ha : a.write = false) (h : busAccess a s = .next t) :
    t.mem = s.mem := by
  rcases busAccess_next h with ⟨_, _, rfl⟩ | ⟨hw, _⟩
  · rfl
  · exact absurd (ha.symm.trans hw) (by decide)

theorem readResult_mem {s t : State} (h : readResult s = .next t) : t.mem = s.mem := by
  unfold readResult at h
  split at h <;> cases h
  rfl

/-- Settles O46: the agents by `hardware_act_frame`, the primitives of SEQ by `nextStore`, and each kind of read
by what it answers. -/
theorem hardwareChangesOnlyReadyAndStatus : Obligations.HardwareChangesOnlyReadyAndStatus := by
  refine ⟨fun a s => ?agent, fun s t h => ⟨fun r d hn => ?store, fun hn => seqStep_mem_of_no_store hn h⟩,
    fun r s t h => exec_readOf_mem h, fun s t y rest h hs hy => ?turn, fun s t y rest h hs hy => ?read⟩
  case agent => exact congrArg (fun m => { s with mem := m }) (hardware_act_frame s.params s.mem a)
  case store => exact store_mem ((seqStep_of_nextStore hn).symm.trans h)
  case turn =>
    obtain ⟨a, rfl⟩ : ∃ a : Hardware, y = a.turn := by
      rcases hy with ⟨x, rfl⟩ | rfl
      · exact ⟨.osc x, rfl⟩
      · exact ⟨.mux, rfl⟩
    rw [step_of_hardware a hs] at h
    cases h
    exact congrArg (fun m => { s with mem := m, sched := rest }) (hardware_act_frame s.params s.mem a)
  case read =>
    rcases hy with ⟨c, desc, d, rfl, hd⟩ | ⟨c, a, rfl, ha⟩ | rfl
    · exact present_bus_read_mem (s := presenting s rest s.program (.ext c)) hd ((step_of_ext hs).symm.trans h)
    · exact busAccess_read_mem (s := presenting s rest s.program (.ext c)) ha ((step_of_access hs).symm.trans h)
    · exact readResult_mem (s := { s with sched := rest }) ((step_of_result hs).symm.trans h)

/-! The turns of the EXT contexts (R165, R191). -/

/-- What the turn of EXT context `c` that takes `s` to `t` leaves alone: all but the register memory and its own
latch. -/
structure ContextTurn (c : Nat) (s t : State) : Prop where
  seq : t.seq = s.seq
  params : t.params = s.params
  program : t.program = s.program
  sched : t.sched = s.sched.tail
  issuer : t.issuer = .ext c
  latches : ∀ c', c' ≠ .ext c → t.latches.get c' = s.latches.get c'

/-- A turn of an EXT context is a delivery to its own latch or a write of the register memory. -/
theorem step_contextTurn {s t : State} {c : Nat} {x : Turn}
    (hx : (∃ desc d, x = .ext c desc d) ∨ ∃ a, x = .access c a) (hs : s.sched.head? = some x) (h : step s = .next t) :
    ContextTurn c s t := by
  obtain ⟨rest, hs⟩ := List.head?_eq_some_iff.mp hs
  let s' := presenting s rest s.program (.ext c)
  have hsched : s'.sched = s.sched.tail := by rw [hs]; rfl
  have hread : ∀ w, ContextTurn c s { s' with latches := s'.latches.set (.ext c) w } := fun w =>
    ⟨rfl, rfl, rfl, hsched, rfl, fun c' hc => Latches.get_set_other s.latches w hc⟩
  have hwrite : ∀ n, ContextTurn c s { s' with mem := n } := fun n =>
    ⟨rfl, rfl, rfl, hsched, rfl, fun _ _ => rfl⟩
  rcases hx with ⟨desc, d, rfl⟩ | ⟨a, rfl⟩
  · rw [step_of_ext hs] at h
    rcases present_bus_next h with ⟨_, r, rfl⟩ | ⟨_, _, n, _, rfl⟩
    · exact hread _
    · exact hwrite n
  · rw [step_of_access hs] at h
    rcases busAccess_next h with ⟨_, r, rfl⟩ | ⟨_, _, n, _, rfl⟩
    · exact hread _
    · exact hwrite n

/-- A descriptor of an EXT context is the transaction it names (R61). -/
theorem step_ext_descriptor {s : State} {c : Nat} {b : Bool} {r : Reg} {d : Word} {rest : List Turn}
    (hL : s.params.layout.ok = true) (hs : s.sched = .ext c (descriptor s.params.layout b r) d :: rest) :
    step s = exec (if b then writeOf d r else readOf r) (presenting s rest s.program (.ext c)) := by
  rw [step_of_ext hs, present_of_decode (pk := .bus _ d) (decodeBus_descriptor hL b r d)]

/-- An access of 4 bytes at a register's address is that register's transaction (R40, R41). -/
theorem step_access_register {s : State} {c : Nat} {r : Reg} {a : Access} {rest : List Turn}
    (hL : s.params.layout.ok = true) (ha : a.addr = regAddr s.params.layout r) (hw : a.width = 4)
    (hs : s.sched = .access c a :: rest) :
    step s = exec (if a.write then writeOf a.data r else readOf r) (presenting s rest s.program (.ext c)) := by
  rw [step_of_access hs]
  exact busAccess_of_locate_ok (s := presenting s rest s.program (.ext c)) ((locate_ok_iff hL _ _ _).mpr ⟨hw, ha⟩)

/-- A read delivers its word to the latch of the context that has the port (R191). -/
theorem exec_readOf_latch {r : Reg} {s t : State} {l : List Turn} {ps : List Packet} {c : Context}
    (hl : s.latches.wf = true) (h : exec (readOf r) (presenting s l ps c) = .next t) :
    t.latches.get c = readReg r s := by
  rw [exec_readOf] at h
  cases h
  exact Latches.get_set_same hl c (readReg r s)

theorem exec_writeOf_latches {r : Reg} {d : Word} {s t : State} {l : List Turn} {ps : List Packet} {c : Context}
    (h : exec (writeOf d r) (presenting s l ps c) = .next t) : t.latches = s.latches := by
  rw [exec_writeOf] at h
  obtain ⟨_, _, rfl⟩ := writeReg_next h
  rfl

/-- Settles O14: the frame is `ContextTurn`; the context's own latch is as the transaction of the register named
leaves it. -/
theorem externalContextCannotTouchTheSequencer : Obligations.ExternalContextCannotTouchTheSequencer := by
  intro s t c x hi hx hs h
  obtain ⟨hseq, hparams, hprogram, hsched, hissuer, hothers⟩ := step_contextTurn hx hs h
  refine ⟨hseq, hparams, hprogram, hsched, hissuer, hothers, fun r d e => ?read, fun r d e => ?write,
    fun r a e ha hw => ?access⟩
  all_goals
    subst e
    obtain ⟨rest, hs⟩ := List.head?_eq_some_iff.mp hs
  case read =>
    rw [step_ext_descriptor hi.layout_ok hs] at h
    exact exec_readOf_latch hi.latches h
  case write =>
    rw [step_ext_descriptor hi.layout_ok hs] at h
    exact exec_writeOf_latches h
  case access =>
    rw [step_access_register hi.layout_ok ha hw hs] at h
    split
    case isTrue hwrite =>
      rw [if_pos hwrite] at h
      exact exec_writeOf_latches h
    case isFalse hread =>
      rw [if_neg hread] at h
      exact exec_readOf_latch hi.latches h

end Sys2Proof.Machine

/-! Presentations to a busy SEQ (R27, R189): which instruction is refused for it, and that no step makes one. -/

namespace Sys2Proof.Machine

/-! Results that come after acceptance, or come from the bus port. -/

theorem accept_ne_commandWhileBusy (op : Op) (s : State) : accept op s ≠ .refused .commandWhileBusy :=
  fun h => nomatch runSeq_refused _ h

theorem exec_readOf_ne_commandWhileBusy (r : Reg) (s : State) : exec (readOf r) s ≠ .refused .commandWhileBusy := by
  rw [exec_readOf]
  exact nofun

theorem exec_writeOf_ne_commandWhileBusy (d : Word) (r : Reg) (s : State) :
    exec (writeOf d r) s ≠ .refused .commandWhileBusy := by
  rw [exec_writeOf]
  exact fun h => nomatch writeReg_refused h

/-! The command port. -/

/-- What `exec` makes of an operation: either its operands are refused (R72), and then they are not well-formed, or it
is handed to the command port, where SEQ being busy is asked once, before acceptance (R189). -/
inductive PortCase (i : Instr) (s : State) : Prop where
  | refused {e : Refusal} (hw : Instr.wellFormed s.params.layout i = false) (h : exec i s = .refused e)
      (he : e ≠ .commandWhileBusy)
  | handed {k : State → Result} (h : exec i s = whenIdle s k) (hk : ∀ t, k t ≠ .refused .commandWhileBusy)

theorem gateOperation_portCase {i : Instr} {op : Op} {g : BusGroup} {p : Int} {s : State}
    (h : exec i s = gateOperation op g p s) (hw : Instr.wellFormed s.params.layout i = peripheralOk p) :
    PortCase i s := by
  by_cases hp : peripheralOk p = true
  · exact .handed (h.trans (if_pos hp)) fun _ => accept_ne_commandWhileBusy _ _
  · exact .refused (hw.trans (Bool.eq_false_iff.mpr hp)) (h.trans (if_neg hp)) nofun

theorem setbyp_portCase (b : Int) (s : State) : PortCase (.setbyp b) s := by
  cases hb : boolAt b with
  | none => exact .refused (by simp [Instr.wellFormed, hb]) (execSetbyp_badBoolean s hb) nofun
  | some f => exact .handed (by simp only [exec, execSetbyp, hb]; rfl) fun _ => accept_ne_commandWhileBusy _ _

theorem setclk_portCase (k b : Int) (s : State) : PortCase (.setclk k b) s := by
  cases hk : sourceAt s.params.layout k with
  | none => exact .refused (by simp [Instr.wellFormed, hk]) (execSetclk_unknown b hk) nofun
  | some x =>
    cases hb : boolAt b with
    | none => exact .refused (by simp [Instr.wellFormed, hb]) (execSetclk_badBoolean (by simp [hk]) hb) nofun
    | some f => exact .handed (by simp only [exec, execSetclk, hk, hb]; rfl) fun _ => accept_ne_commandWhileBusy _ _

theorem getclk_portCase (k : Int) (s : State) : PortCase (.getclk k) s := by
  cases hk : sourceAt s.params.layout k with
  | none => exact .refused (by simp [Instr.wellFormed, hk]) (execGetclk_unknown hk) nofun
  | some x => exact .handed (by simp only [exec, execGetclk, hk]; rfl) fun _ => accept_ne_commandWhileBusy _ _

/-- A selector outside 0 to 3 is no refusal: SEQ accepts it and returns the sentinel (R72). -/
theorem setsys_portCase (v : Int) (s : State) : PortCase (.setsys v) s := by
  refine .handed (show execSetsys v s = _ from rfl) fun t => ?_
  split
  · exact accept_ne_commandWhileBusy _ _
  · exact nofun

/-- Every operation is one of the two cases. -/
theorem operation_portCase (o : Opc) (k a : Int) (s : State) : PortCase (o.instr k a) s := by
  cases o with
  | enclk g => exact gateOperation_portCase (exec_enclk g k a s) (by cases g <;> rfl)
  | disclk g => exact gateOperation_portCase (exec_disclk g k a s) (by cases g <;> rfl)
  | setbyp => exact setbyp_portCase a s
  | setclk => exact setclk_portCase k a s
  | getclk => exact getclk_portCase k s
  | setsys => exact setsys_portCase a s
  | getsys => exact .handed rfl (accept_ne_commandWhileBusy .getsys)

theorem PortCase.exec_busy {i : Instr} {s : State} (h : PortCase i s) (hw : Instr.wellFormed s.params.layout i = true)
    (hb : s.seq.busy = true) : exec i s = .refused .commandWhileBusy := by
  cases h with
  | refused hn => exact absurd (hw.symm.trans hn) (by decide)
  | handed h => exact h.trans (whenIdle_busy hb)

theorem PortCase.exec_idle {i : Instr} {s : State} (h : PortCase i s) (hb : s.seq.busy = false) :
    exec i s ≠ .refused .commandWhileBusy := by
  cases h with
  | refused _ h he => exact fun hr => he (Host.Outcome.refused.inj (h.symm.trans hr))
  | handed h hk => rw [h, whenIdle_idle hb]; exact hk s

/-- The encoding tells an operation from a transaction (R61, R62). -/
theorem portCase_of_encode_cmd {i : Instr} {L : Layout} {w : Word} (h : encode L i = .cmd w) (s : State) :
    PortCase i s := by
  cases Instr.form i with
  | read r => rw [encode_readOf] at h; cases h
  | write d r => rw [encode_writeOf] at h; cases h
  | op o k a => exact operation_portCase o k a s

/-! Every turn. -/

theorem exec_idle_ne_commandWhileBusy (i : Instr) {s : State} (hb : s.seq.busy = false) :
    exec i s ≠ .refused .commandWhileBusy := by
  cases Instr.form i with
  | read r => exact exec_readOf_ne_commandWhileBusy r s
  | write d r => exact exec_writeOf_ne_commandWhileBusy d r s
  | op o k a => exact (operation_portCase o k a s).exec_idle hb

theorem present_ne_commandWhileBusy {pk : Packet} {s : State}
    (h : ∀ i, decode s.params.layout pk = .ok i → exec i s ≠ .refused .commandWhileBusy) :
    present pk s ≠ .refused .commandWhileBusy := by
  unfold present
  split
  case h_1 => exact nofun
  case h_2 i hi => exact h i hi

/-- A descriptor names a transaction, whatever SEQ is doing. -/
theorem present_bus_ne_commandWhileBusy (desc : BitVec 16) (d : Word) (s : State) :
    present (.bus desc d) s ≠ .refused .commandWhileBusy := by
  refine present_ne_commandWhileBusy fun i hi => ?_
  obtain ⟨b, r, _, rfl⟩ := decodeBus_ok hi
  split
  · exact exec_writeOf_ne_commandWhileBusy d r s
  · exact exec_readOf_ne_commandWhileBusy r s

theorem locate_ne_commandWhileBusy (L : Layout) (addr : Word) (width : Nat) :
    locate L addr width ≠ .error .commandWhileBusy := by
  unfold locate
  repeat' split
  all_goals exact nofun

/-- An access by address is a transaction too, or is refused for its width or its address. -/
theorem busAccess_ne_commandWhileBusy (a : Access) (s : State) : busAccess a s ≠ .refused .commandWhileBusy := by
  cases hl : locate s.params.layout a.addr a.width with
  | error e =>
    rw [busAccess_of_locate_error hl]
    exact fun h => locate_ne_commandWhileBusy _ _ _ (hl.trans (congrArg _ (Host.Outcome.refused.inj h)))
  | ok r =>
    rw [busAccess_of_locate_ok hl]
    split
    · exact exec_writeOf_ne_commandWhileBusy a.data r s
    · exact exec_readOf_ne_commandWhileBusy r s

theorem readResult_ne_commandWhileBusy (s : State) : readResult s ≠ .refused .commandWhileBusy := by
  unfold readResult
  split <;> exact nofun

/-- In SEQ's turn the caller presents only to an idle SEQ (R8). -/
theorem seqTurn_ne_commandWhileBusy (s : State) : seqTurn s ≠ .refused .commandWhileBusy := by
  cases hb : s.seq.busy with
  | true =>
    rw [seqTurn_of_busy hb]
    exact fun h => nomatch runSeq_refused _ h
  | false =>
    cases hp : s.program with
    | nil => rw [seqTurn_of_idle_nil hb hp]; exact nofun
    | cons pk ps =>
      rw [seqTurn_of_idle_cons hb hp]
      exact present_ne_commandWhileBusy fun i _ => exec_idle_ne_commandWhileBusy i hb

theorem defaultTurn_ne_commandWhileBusy (s : State) : defaultTurn s ≠ .refused .commandWhileBusy := by
  unfold defaultTurn
  split
  · exact nofun
  · exact seqTurn_ne_commandWhileBusy s

theorem step_ne_commandWhileBusy (s : State) : step s ≠ .refused .commandWhileBusy := by
  cases hs : s.sched with
  | nil => rw [step_of_empty hs]; exact defaultTurn_ne_commandWhileBusy s
  | cons x rest =>
    cases x with
    | seq => rw [step_of_seq hs]; exact seqTurn_ne_commandWhileBusy s
    | osc y => rw [step_of_hardware (.osc y) hs]; exact nofun
    | mux => rw [step_of_hardware .mux hs]; exact nofun
    | ext c desc d => rw [step_of_ext hs]; exact present_bus_ne_commandWhileBusy desc d _
    | access c a => rw [step_of_access hs]; exact busAccess_ne_commandWhileBusy a _
    | result => rw [step_of_result hs]; exact readResult_ne_commandWhileBusy _
    | reset => rw [step, takeTurn, hs]; exact nofun

/-- Settles O54: the command port is the only place where the refusal arises, and a step hands an operation to it only
in SEQ's turn, when SEQ is idle. -/
theorem operationsAreAcceptedOnlyWhenIdle : Obligations.OperationsAreAcceptedOnlyWhenIdle :=
  ⟨fun _ s _ hw he hb => (portCase_of_encode_cmd he s).exec_busy hw hb, step_ne_commandWhileBusy⟩

end Sys2Proof.Machine

/-! Disabling the source in use, and RESET (R200, R210). -/

namespace Sys2Proof.Machine

/-- The system clock is not alive once the ready bit of the source its status field depends on is cleared (R25). -/
theorem sysclkAlive_of_rdy_cleared {s t : State} (hw : s.wf) (hp : t.params = s.params) (hsws : t.mem.sws = s.mem.sws)
    (hr : t.mem.rdy = s.mem.rdy.set (s.params.selDep.get s.mem.sws) false) : sysclkAlive t = false := by
  obtain ⟨hparams, hmem⟩ := hw
  obtain ⟨_, _, _, _, hlength⟩ := (Memory.wf_iff _ _).mp hmem
  rw [sysclkAlive, selDep, hp, hsws, hr, PerSource.get_set_same (selDep_mem hparams s.mem.sws) hlength]

/-- Settles O34: SETCLK OFF is O24 for the source in use, whose ready bit immediate clearing takes with the enable
bit. -/
theorem disablingTheSourceInUseStopsTheClock : Obligations.DisablingTheSourceInUseStopsTheClock := by
  intro s hi hidle hs hpolicy hclear
  obtain ⟨q, hexec, hq⟩ := setClockOffDisables _ s hi (selDep_mem hi.params s.mem.sws) hidle hs (.inl hpolicy)
  exact ⟨_, hexec, hq, rfl, rfl, sysclkAlive_of_rdy_cleared ⟨hi.params, hi.mem⟩ rfl rfl (if_pos hclear)⟩

theorem step_of_reset {s : State} {rest : List Turn} (hs : s.sched = .reset :: rest) :
    step s = .next (resetEvent { s with sched := rest }) := by
  rw [step, takeTurn, passTurn, hs]
  rfl

/-- After RESET the internal oscillator alone is enabled (R33; log 16). -/
theorem Memory.reset_en_get (P : Params) (x : Source) : (Memory.reset P).en.get x = decide (x = .hsi) := by
  cases x with
  | hsi => rfl
  | hse => rfl
  | pll => rfl
  | extra n => exact List.getElem?_getD_replicate_default_eq false _ n

/-- After RESET exactly the enabled sources are ready (R33). -/
theorem Memory.reset_rdy (P : Params) : (Memory.reset P).rdy = (Memory.reset P).en := rfl

theorem Memory.reset_off (P : Params) {x : Source} (hx : x ≠ .hsi) :
    (Memory.reset P).en.get x = false ∧ (Memory.reset P).rdy.get x = false := by
  rw [Memory.reset_rdy, Memory.reset_en_get]
  exact ⟨decide_eq_false hx, decide_eq_false hx⟩

theorem readResult_resetEvent (s : State) : readResult (resetEvent s) = .refused .resultNotWritten := rfl

/-- Settles O57: the turn is `resetEvent`, whose memory is `Memory.reset` and which marks RES as not written. -/
theorem resetEventRestoresTheRegisters : Obligations.ResetEventRestoresTheRegisters := fun _ _ hs =>
  ⟨_, step_of_reset hs, rfl, rfl, rfl, rfl, fun _ _ hx => Memory.reset_off _ hx, rfl, rfl, rfl, rfl, rfl, rfl,
    readResult_resetEvent _⟩

end Sys2Proof.Machine

/-! The state after reset with the default parameters (R201). -/

namespace Sys2Proof.Machine

theorem defaults_wf : paramsWf Config.defaults = true := by decide

/-- Settles O51: `Memory.reset` keeps its part of the invariant under all parameters that fit each other, as the defaults
do. -/
theorem invariantHoldsAtReset : Obligations.InvariantHoldsAtReset := by
  obtain ⟨hwf, hready, hfollow⟩ := Memory.reset_memoryInv defaults_wf
  exact {
    params := defaults_wf
    mem := hwf
    ready := hready
    follow := hfollow
    upc := Nat.le_refl 0
    src := Layout.hsi_mem _
    latches := rfl }

/-- An enable register after reset holds the implemented bits of its reset value (R12, R32). -/
theorem readReg_enr_of_reset {s : State} (h : s.mem = Memory.reset s.params) (g : BusGroup) :
    readReg (.enr g) s = s.params.enrReset.get g &&& s.params.enrImpl.get g := by
  rw [readReg_enr, h, Memory.reset]

/-- After reset the system clock is alive exactly if selector value 0 depends on the internal oscillator, the only ready
source (R20, R25, R33). -/
theorem sysclkAlive_of_reset {s : State} (h : s.mem = Memory.reset s.params) :
    sysclkAlive s = decide (s.params.selDep.v0 = .hsi) := by
  rw [sysclkAlive, h, Memory.reset_rdy, Memory.reset_en_get]
  rfl

theorem sourceState_hsi_reset (P : Params) : sourceState .hsi (Memory.reset P) = .ready := rfl

/-- Settles O58: what holds of every reset memory, at the default parameters; the default layout places the internal
oscillator's bit pair at positions 0 and 1 of CR. -/
theorem registersAfterReset : Obligations.RegistersAfterReset := by
  refine ⟨fun g => ?enableRegisters, ?cr, ?cfgr, rfl, sourceState_hsi_reset _, ?clock⟩
  case enableRegisters =>
    have hzero : State.reset.params.enrReset.get g = 0 := PerGroup.get_const 0 g
    rw [readReg_enr_of_reset rfl, hzero]
    exact BitVec.zero_and
  case cr => decide
  case cfgr => decide
  case clock => rw [sysclkAlive_of_reset rfl]; decide

end Sys2Proof.Machine
